-- ==== Sys2Proof/Word.lean ====
section
/-! DEFINITION. The words of SMCE (spec/00_scope.md R9 to R11): nothing but names for bit vectors. -/

namespace Sys2Proof

/-- A command word, a register read value, a timestamp or a duration (R9, R34). -/
abbrev Word := BitVec 32

/-- The content of a written image cell (R32, R33). -/
abbrev Byte := BitVec 8

/-- The IEEE 754 binary32 encoding that an `f32` register holds (R11). -/
abbrev F32 := BitVec 32

/-- The IEEE 754 binary64 encoding of an intermediate of `COMPH` (R11, R130). -/
abbrev F64 := BitVec 64

end Sys2Proof
end

