-- ==== Sys2Proof/Syntax.lean ====
section
/-! DEFINITION. The 23 host commands of spec/30_encoding.md R84 (spec/opcode_table.json), one constructor a row, with
the operands of R85 at exactly the width of their fields. `Poll(m)` and `Edge(m)` are no commands (R89): they are
`AgentStep`s of Machine/State.lean. The pseudo-commands of R88 are lists of commands. -/

namespace Sys2Proof

/-- The image operand `sp` of `WRB` (R85): bit 20 of the word, 0 for `ENV`, 1 for `LUXI`. -/
inductive Space
  | env
  | luxi
  deriving DecidableEq, Repr

/-- A command (R84). Operands are unsigned fields used as they stand (R85): `a` and `d` are bytes, `imm3` the new
`CTRL[2:0]`, `m` a measurer number 0 to 15, `s` a strategy code 0 to 3. -/
inductive Instr
  | nop
  | wrb (sp : Space) (a d : Byte)
  | wrc (imm3 : BitVec 3)
  | envclose
  | srst
  | calt
  | calp
  | calh
  | dect
  | decp
  | dech
  | compt
  | compp
  | comph
  | lux
  | pmopen (m : BitVec 4) (s : BitVec 2)
  | pmstart (m : BitVec 4)
  | pmstop (m : BitVec 4)
  | pmclose (m : BitVec 4)
  | pmrd (m : BitVec 4)
  | pmavg (m : BitVec 4)
  | ppm (m : BitVec 4)
  | dens (m : BitVec 4)
  deriving DecidableEq, Repr

/-- How `sp` is written in assembler text (R88). -/
def Space.asm : Space → String
  | .env => "ENV"
  | .luxi => "LUXI"

/-- How a strategy code is written in assembler text: its name, or 3 as a number (R88). -/
def strategyAsm (s : BitVec 2) : String :=
  if s = 0#2 then "CYCLE" else if s = 1#2 then "EPOLL" else if s = 2#2 then "EIRQ" else "3"

/-- The mnemonic of a command, as R84 and spec/opcode_table.json spell it. -/
def Instr.mnemonic : Instr → String
  | .nop => "NOP"
  | .wrb _ _ _ => "WRB"
  | .wrc _ => "WRC"
  | .envclose => "ENVCLOSE"
  | .srst => "SRST"
  | .calt => "CALT"
  | .calp => "CALP"
  | .calh => "CALH"
  | .dect => "DECT"
  | .decp => "DECP"
  | .dech => "DECH"
  | .compt => "COMPT"
  | .compp => "COMPP"
  | .comph => "COMPH"
  | .lux => "LUX"
  | .pmopen _ _ => "PMOPEN"
  | .pmstart _ => "PMSTART"
  | .pmstop _ => "PMSTOP"
  | .pmclose _ => "PMCLOSE"
  | .pmrd _ => "PMRD"
  | .pmavg _ => "PMAVG"
  | .ppm _ => "PPM"
  | .dens _ => "DENS"

/-- A command's operands in assembler text, numbers in decimal (R88). -/
def Instr.operandsAsm : Instr → List String
  | .wrb sp a d => [sp.asm, toString a.toNat, toString d.toNat]
  | .wrc imm3 => [toString imm3.toNat]
  | .pmopen m s => [toString m.toNat, strategyAsm s]
  | .pmstart m | .pmstop m | .pmclose m | .pmrd m | .pmavg m | .ppm m | .dens m => [toString m.toNat]
  | .nop | .envclose | .srst | .calt | .calp | .calh | .dect | .decp | .dech | .compt | .compp | .comph | .lux => []

/-- A command as the assembler of R88 writes it: the mnemonic, then its operands separated by commas. -/
def Instr.asm (i : Instr) : String :=
  match i.operandsAsm with
  | [] => i.mnemonic
  | ops => i.mnemonic ++ " " ++ String.intercalate ", " ops

/-- The pseudo-command `WRBUF sp, a, b0, ..., bk`: one `WRB` a byte, in ascending address order (R88). DESIGN CHOICE
(notes/assumptions/19.md): R88 does not say what `a + i` is past 0xFF, the end of the address field of R85; the model
goes on at 0x00. Unsafe for a claim about an expansion that passes 0xFF; no step of the machine uses this function. -/
def pseudoWrbuf (sp : Space) (a : Byte) : List Byte → List Instr
  | [] => []
  | b :: bs => .wrb sp a b :: pseudoWrbuf sp (a + 1#8) bs

/-- The pseudo-command `WRW sp, a, w`: the low byte at the lower address (R88). At `a = 0xFF` the high byte goes to 0x00:
DESIGN CHOICE, R88 does not say (notes/assumptions/19.md). -/
def pseudoWrw (sp : Space) (a : Byte) (w : BitVec 16) : List Instr :=
  pseudoWrbuf sp a [w.extractLsb' 0 8, w.extractLsb' 8 8]

/-- The pseudo-command `READING`: one full reading in an order that satisfies R150 (R88). -/
def pseudoReading : List Instr :=
  [.decp, .dect, .dech, .compt, .compp, .comph]

end Sys2Proof
end

