-- ==== Sys2Proof/Decode.lean ====
section
/-! DEFINITION. The decoder of spec/30_encoding.md R82 to R90, total on 32-bit words, and the encoder written from the
same tables. A word is one command (R87); there is no stream to parse. -/

namespace Sys2Proof

/-- Why a word is illegal: the three cases (a), (b), (c) of R86, in that order. All of them raise `Err(ILLEGAL)`. -/
inductive Illegal
  /-- (a) `op` is none of the 23 assigned values -/
  | unassignedOp
  /-- (b) `z` is not 0 -/
  | zNotZero
  /-- (c) a bit of `sel` or `imm` that the command's format does not use is not 0 -/
  | unusedBits
  deriving DecidableEq, Repr

/-- `op`, bits 31:24 (R82). -/
def opField (w : Word) : BitVec 8 := w.extractLsb' 24 8

/-- `sel`, bits 23:20 (R82). -/
def selField (w : Word) : BitVec 4 := w.extractLsb' 20 4

/-- `z`, bits 19:16, must be 0 in every command (R82). -/
def zField (w : Word) : BitVec 4 := w.extractLsb' 16 4

/-- `imm`, bits 15:0 (R82). -/
def immField (w : Word) : BitVec 16 := w.extractLsb' 0 16

/-- The checks shared by the formats of R83: `z` is 0 and the unused bits of `sel` and `imm` are 0. -/
def checkedFormat (w : Word) (unusedZero : Bool) (i : Instr) : Except Illegal Instr :=
  if zField w ≠ 0#4 then .error .zNotZero
  else if unusedZero then .ok i
  else .error .unusedBits

/-- Format `N`: no operand (R83). -/
def formatN (w : Word) (i : Instr) : Except Illegal Instr :=
  checkedFormat w (selField w == 0#4 && immField w == 0#16) i

/-- Format `B`: `sp` is bit 20, bits 23:21 are 0, `a` is bits 15:8, `d` is bits 7:0 (R83, R85). -/
def formatB (w : Word) (mk : Space → Byte → Byte → Instr) : Except Illegal Instr :=
  checkedFormat w ((selField w).extractLsb' 1 3 == 0#3)
    (mk (if (selField w).extractLsb' 0 1 = 0#1 then .env else .luxi)
      ((immField w).extractLsb' 8 8) ((immField w).extractLsb' 0 8))

/-- Format `C`: `imm3` is bits 2:0, bits 15:3 and `sel` are 0 (R83, R85). -/
def formatC (w : Word) (mk : BitVec 3 → Instr) : Except Illegal Instr :=
  checkedFormat w (selField w == 0#4 && (immField w).extractLsb' 3 13 == 0#13) (mk ((immField w).extractLsb' 0 3))

/-- Format `M`: `m` is `sel`, `imm` is 0 (R83, R85). -/
def formatM (w : Word) (mk : BitVec 4 → Instr) : Except Illegal Instr :=
  checkedFormat w (immField w == 0#16) (mk (selField w))

/-- Format `MS`: `m` is `sel`, `s` is bits 1:0, bits 15:2 are 0 (R83, R85). -/
def formatMS (w : Word) (mk : BitVec 4 → BitVec 2 → Instr) : Except Illegal Instr :=
  checkedFormat w ((immField w).extractLsb' 2 14 == 0#14) (mk (selField w) ((immField w).extractLsb' 0 2))

/-- Decoding (R84, R86, R90): the row is found by `op`, which every mask includes whole. -/
def decode (w : Word) : Except Illegal Instr :=
  match (opField w).toNat with
  | 0x00 => formatN w .nop
  | 0x01 => formatB w .wrb
  | 0x02 => formatC w .wrc
  | 0x03 => formatN w .envclose
  | 0x0F => formatN w .srst
  | 0x10 => formatN w .calt
  | 0x11 => formatN w .calp
  | 0x12 => formatN w .calh
  | 0x14 => formatN w .dect
  | 0x15 => formatN w .decp
  | 0x16 => formatN w .dech
  | 0x18 => formatN w .compt
  | 0x19 => formatN w .compp
  | 0x1A => formatN w .comph
  | 0x20 => formatN w .lux
  | 0x30 => formatMS w .pmopen
  | 0x31 => formatM w .pmstart
  | 0x32 => formatM w .pmstop
  | 0x33 => formatM w .pmclose
  | 0x34 => formatM w .pmrd
  | 0x35 => formatM w .pmavg
  | 0x36 => formatM w .ppm
  | 0x37 => formatM w .dens
  | _ => .error .unassignedOp

/-- The instruction the decoder reads from a table word: a command is one 32-bit word (R82, R87), and bits of it that
the table gives no number are 0. -/
def decodeTableWord (nbits w : Nat) : Option Instr :=
  match decode (BitVec.ofNat 32 (w % 2 ^ nbits)) with
  | .ok i => some i
  | .error _ => none

/-- A command word put together from its four fields (R82), with `z` 0. -/
def assemble (op : BitVec 8) (sel : BitVec 4) (imm : BitVec 16) : Word :=
  op ++ sel ++ 0#4 ++ imm

/-- The bit `sp` (R85). -/
def Space.bit : Space → BitVec 1
  | .env => 0#1
  | .luxi => 1#1

/-- The word of a command, from the formats of R83 and the opcodes of R84. -/
def encode : Instr → Word
  | .nop => assemble 0x00#8 0#4 0#16
  | .wrb sp a d => assemble 0x01#8 (0#3 ++ sp.bit) (a ++ d)
  | .wrc imm3 => assemble 0x02#8 0#4 (0#13 ++ imm3)
  | .envclose => assemble 0x03#8 0#4 0#16
  | .srst => assemble 0x0F#8 0#4 0#16
  | .calt => assemble 0x10#8 0#4 0#16
  | .calp => assemble 0x11#8 0#4 0#16
  | .calh => assemble 0x12#8 0#4 0#16
  | .dect => assemble 0x14#8 0#4 0#16
  | .decp => assemble 0x15#8 0#4 0#16
  | .dech => assemble 0x16#8 0#4 0#16
  | .compt => assemble 0x18#8 0#4 0#16
  | .compp => assemble 0x19#8 0#4 0#16
  | .comph => assemble 0x1A#8 0#4 0#16
  | .lux => assemble 0x20#8 0#4 0#16
  | .pmopen m s => assemble 0x30#8 m (0#14 ++ s)
  | .pmstart m => assemble 0x31#8 m 0#16
  | .pmstop m => assemble 0x32#8 m 0#16
  | .pmclose m => assemble 0x33#8 m 0#16
  | .pmrd m => assemble 0x34#8 m 0#16
  | .pmavg m => assemble 0x35#8 m 0#16
  | .ppm m => assemble 0x36#8 m 0#16
  | .dens m => assemble 0x37#8 m 0#16

/-- `match` of a command's row of R84. -/
def rowMatch : Instr → Word
  | .nop => 0x00000000#32
  | .wrb _ _ _ => 0x01000000#32
  | .wrc _ => 0x02000000#32
  | .envclose => 0x03000000#32
  | .srst => 0x0F000000#32
  | .calt => 0x10000000#32
  | .calp => 0x11000000#32
  | .calh => 0x12000000#32
  | .dect => 0x14000000#32
  | .decp => 0x15000000#32
  | .dech => 0x16000000#32
  | .compt => 0x18000000#32
  | .compp => 0x19000000#32
  | .comph => 0x1A000000#32
  | .lux => 0x20000000#32
  | .pmopen _ _ => 0x30000000#32
  | .pmstart _ => 0x31000000#32
  | .pmstop _ => 0x32000000#32
  | .pmclose _ => 0x33000000#32
  | .pmrd _ => 0x34000000#32
  | .pmavg _ => 0x35000000#32
  | .ppm _ => 0x36000000#32
  | .dens _ => 0x37000000#32

/-- `mask` of a command's row of R84: every bit but the operand bits of its format. -/
def rowMask : Instr → Word
  | .wrb _ _ _ => 0xFFEF0000#32
  | .wrc _ => 0xFFFFFFF8#32
  | .pmopen _ _ => 0xFF0FFFFC#32
  | .pmstart _ | .pmstop _ | .pmclose _ | .pmrd _ | .pmavg _ | .ppm _ | .dens _ => 0xFF0FFFFF#32
  | .nop | .envclose | .srst | .calt | .calp | .calh | .dect | .decp | .dech | .compt | .compp | .comph | .lux =>
    0xFFFFFFFF#32

end Sys2Proof
end

