-- ==== Sys2Proof/Config.lean ====
section
/-! DEFINITION. The implementation parameters of spec/00_scope.md R6, at the values the spec gives or defaults to.
`State.reset` takes `npm` and `h45Signed` from here; a state carries its own copies (the length of its list of
measurers, and `bench.h45Signed`), so a statement about every state is a statement about every allowed value of
the two (notes/assumptions/6.md and 7.md). -/

namespace Sys2Proof.Config

/-- The identity string a model may print (R1). -/
def identity : String := "SMCE-1 (zeus3110/AndroidThingsDriver core, ATD v7)"

/-- `NPM`, the number of pulse measurers: 1 to 16, default 2 (R6, decision D27). -/
def npm : Nat := 2

/-- `H45_SIGNED`: whether `H4` and `H5` are sign-extended from bit 11; default false (R6, R28, decision D10). -/
def h45Signed : Bool := false

/-- `WINDOW_MS`, the cycle-integrator's window threshold in milliseconds (R6, R202). -/
def windowMs : Nat := 30000

/-- `FIFO_CAP`, the capacity of the pulse-width FIFO (R6, R36). -/
def fifoCap : Nat := 10

/-- `SAT_LUX`, 2500.0 (R6, R167). -/
def satLux : F32 := 0x451C4000#32

/-- `CH0_SAT`, the saturated count of light channel 0 (R6, R161). -/
def ch0Sat : BitVec 16 := 0xFFFF#16

end Sys2Proof.Config
end

