-- ==== Sys2Proof/Machine/State.lean ====
section
/-! DEFINITION. The state of SMCE as plain data (spec/10_state.md), the reasons a step can stop, and the state after
reset (R54). Registers whose fields the spec names (STATUS, CTRL, PMSTAT) are records of those fields; the words the
host reads are computed from them (Machine/Flags.lean), reserved bits reading as 0. -/

namespace Sys2Proof.Machine

/-- The reasons a step can fault: none. SMCE has no traps (R236): every error of the spec is a next state in which
`STATUS` records it (R232), every image address exists (R60, R71), and arithmetic raises nothing (R234). Having no
constructor is safe: no step of the model stops where the block goes on (notes/assumptions/14.md). -/
inductive Fault
  deriving DecidableEq, Repr

/-- The reasons a step can be refused. -/
inductive Refusal
  /-- Raised by an arm of `exec` whose instruction has no meaning in the model. No arm raises it: every row of the
  opcode table has its meaning. It would be safe: the model stops where the block goes on. -/
  | notModelled (mnemonic : String)
  deriving DecidableEq, Repr

/-- The error codes that `STATUS.ERR` can hold (R230); 14 and 15 are never produced (I26). -/
inductive ErrCode
  | ok
  | illegal
  | invalidState
  | unwritten
  | nocal
  | noraw
  | noft
  | calLocked
  | staleTiming
  | badTiming
  | pmSel
  | pmState
  | pmStrat
  | addr
  deriving DecidableEq, Repr

/-- `STATUS` (R22): the error code, the sentinel flag, the valid flags of R29, `TIMF` (R30) and the sticky `FAULT`. -/
structure Status where
  err : ErrCode
  sent : Bool
  tv : Bool
  pv : Bool
  hv : Bool
  rtv : Bool
  rpv : Bool
  rhv : Bool
  ftv : Bool
  timf : Bool
  fault : Bool
  deriving DecidableEq, Repr

/-- `CTRL` (R23): the oversampling-enable bits. -/
structure Ctrl where
  ten : Bool
  pen : Bool
  hen : Bool
  deriving DecidableEq, Repr

/-- The temperature calibration registers (R26): `T1` unsigned, `T2` and `T3` signed. -/
structure CalT where
  t1 : BitVec 16
  t2 : BitVec 16
  t3 : BitVec 16
  deriving DecidableEq, Repr

/-- The pressure calibration registers (R27): `P1` unsigned, the others signed. -/
structure CalP where
  p1 : BitVec 16
  p2 : BitVec 16
  p3 : BitVec 16
  p4 : BitVec 16
  p5 : BitVec 16
  p6 : BitVec 16
  p7 : BitVec 16
  p8 : BitVec 16
  p9 : BitVec 16
  deriving DecidableEq, Repr

/-- The humidity calibration registers (R28): `H1`, `H3` unsigned bytes, `H2` and `H6` signed, `H4` and `H5` 12 bits
read as unsigned or signed as `bench.h45Signed` says. -/
structure CalH where
  h1 : BitVec 8
  h2 : BitVec 16
  h3 : BitVec 8
  h4 : BitVec 12
  h5 : BitVec 12
  h6 : BitVec 8
  deriving DecidableEq, Repr

/-- `STRAT` of `PMSTAT` (R35, R181). Code 3 is reserved and no state holds it (R183). -/
inductive Strategy
  /-- 0, the cycle-integrator -/
  | cycle
  /-- 1, edge-timestamp by busy-polling -/
  | epoll
  /-- 2, edge-timestamp by interrupt, with the FIFO -/
  | eirq
  deriving DecidableEq, Repr

/-- `ST` of `PMSTAT` (R35). -/
inductive PulseState
  | waitingForRise
  | waitingForFall
  deriving DecidableEq, Repr

/-- The registers of one pulse measurer (R34, R35, R36). `CNT` is the length of `fifo` (oldest first). -/
structure Measurer where
  /-- `OPEN` -/
  opened : Bool
  run : Bool
  stopReq : Bool
  pinErr : Bool
  strat : Strategy
  st : PulseState
  pubV : Bool
  pwV : Bool
  /-- `START` -/
  startTime : Word
  /-- `END` -/
  endTime : Word
  winStart : Word
  acc : Word
  pubLen : Word
  pubOn : Word
  pw : Word
  snapLen : Word
  snapOn : Word
  meanR : F32
  ppmR : F32
  densR : F32
  fifo : List Word
  deriving DecidableEq, Repr

/-- An image (R32, R33): the written cells, addresses strictly rising. An address that is not listed is `unwritten`;
it has no value (R65). -/
abbrev Memory := List Host.Cell

/-- Which agent acts at a turn, and with what (R7, R80, R89). -/
inductive AgentStep
  /-- no agent acts; only the input lines have the values of the turn -/
  | idle
  /-- the host's `Issue(cmd)` (R81) -/
  | issue (cmd : Word)
  /-- the host's `RegRead(n)` (R38) -/
  | regRead (n : BitVec 12)
  /-- a step of the poll task of measurer `m` (R200) -/
  | poll (m : BitVec 4)
  /-- a delivery of the platform's notification `EDGE[m]` (R204, R206) -/
  | edge (m : BitVec 4)
  deriving DecidableEq, Repr

/-- One step of the total order of R72: the agent's step, and the input lines at its instant (R50, R51, R260).
Bit `m` of `pins` is `PIN[m]`. -/
structure Turn where
  agent : AgentStep
  time : Word
  pins : BitVec 16
  resetLine : Bool
  deriving DecidableEq, Repr

/-- What is not state of SMCE but an argument of its steps (R53), as plain data: the parameter `H45_SIGNED`, the
inputs `TIME` and `PIN[m]` at the present step, the order in which agents will step (R8), and the value the read port
last returned (R38). DESIGN CHOICE (notes/assumptions/1.md, 5.md, 7.md, 9.md). -/
structure Bench where
  h45Signed : Bool
  time : Word
  pins : BitVec 16
  schedule : List Turn
  readData : Word
  deriving DecidableEq, Repr

/-- The state of SMCE (R20 to R36), and beside it the bench. `NPM` is the length of `pms` (R6, R34). -/
structure State where
  status : Status
  ctrl : Ctrl
  temp : F32
  ft : F32
  press : F32
  hum : F32
  luxR : F32
  rawT : BitVec 20
  rawP : BitVec 20
  rawH : BitVec 16
  calT : CalT
  calP : CalP
  calH : CalH
  env : Memory
  luxi : Memory
  pms : List Measurer
  bench : Bench
  deriving DecidableEq, Repr

/-- `STATUS` after reset: 0x00000000 (R54). -/
def Status.reset : Status :=
  { err := .ok, sent := false, tv := false, pv := false, hv := false, rtv := false, rpv := false, rhv := false,
    ftv := false, timf := false, fault := false }

/-- `CTRL` after reset: 0x00000000 (R54). -/
def Ctrl.reset : Ctrl := { ten := false, pen := false, hen := false }

/-- `T1..T3` after reset (R54). -/
def CalT.reset : CalT := { t1 := 0, t2 := 0, t3 := 0 }

/-- `P1..P9` after reset (R54). -/
def CalP.reset : CalP :=
  { p1 := 0, p2 := 0, p3 := 0, p4 := 0, p5 := 0, p6 := 0, p7 := 0, p8 := 0, p9 := 0 }

/-- `H1..H6` after reset (R54). -/
def CalH.reset : CalH := { h1 := 0, h2 := 0, h3 := 0, h4 := 0, h5 := 0, h6 := 0 }

/-- A measurer after reset: `PMSTAT` 0, every register 0, the FIFO empty (R54). -/
def Measurer.reset : Measurer :=
  { opened := false, run := false, stopReq := false, pinErr := false, strat := .cycle, st := .waitingForRise,
    pubV := false, pwV := false, startTime := 0, endTime := 0, winStart := 0, acc := 0, pubLen := 0, pubOn := 0,
    pw := 0, snapLen := 0, snapOn := 0, meanR := 0, ppmR := 0, densR := 0, fifo := [] }

/-- The bench at the start: the spec's default parameter, and the model's own choice for what the spec gives no reset
value (inputs, R54): nothing scheduled, input lines 0, nothing read. -/
def Bench.reset : Bench :=
  { h45Signed := Config.h45Signed, time := 0, pins := 0, schedule := [], readData := 0 }

/-- The machine right after reset (R54, R260), with the default number of measurers (R6). -/
def State.reset : State :=
  { status := Status.reset, ctrl := Ctrl.reset, temp := 0, ft := 0, press := 0, hum := 0, luxR := 0,
    rawT := 0, rawP := 0, rawH := 0, calT := CalT.reset, calP := CalP.reset, calH := CalH.reset,
    env := [], luxi := [], pms := List.replicate Config.npm Measurer.reset, bench := Bench.reset }

end Sys2Proof.Machine
end

