-- ==== Sys2Proof/Machine/Ops.lean ====
section
/-! DEFINITION. The named operations that commands and events share: reading and writing an image cell, reaching a
measurer, completing a command, and `raise Err(code)`, which is all that SMCE has for taking an exception (R232, R236;
there is no return from one, R237). -/

namespace Sys2Proof.Machine

/-- `MemRead(IMG, a, 1)` (R12, R65): the byte of a written cell, nothing for an unwritten one. -/
def Memory.read : Memory → Nat → Option Byte
  | [], _ => none
  | (k, v) :: m, a => if a = k then some v else Memory.read m a

/-- `MemWrite(IMG, a, 1, d)` (R12, R65): the cell holds `d` and is written; the canonical form is kept. -/
def Memory.write : Memory → Nat → Byte → Memory
  | [], a, d => [(a, d)]
  | (k, v) :: m, a, d =>
    if a < k then (a, d) :: (k, v) :: m
    else if a = k then (a, d) :: m
    else (k, v) :: Memory.write m a d

/-- The canonical form of an image of `size` cells (R32, R33): addresses strictly rising and below `size`. No listed
cell equals an unlisted one, since a listed cell is written and an unlisted one is not. -/
abbrev Memory.wf (size : Nat) (m : Memory) : Prop :=
  (m.map Prod.fst).Pairwise (· < ·) ∧ ∀ c ∈ m, c.1 < size

/-- The number of cells of `ENV` (R6, R32). -/
def envSize : Nat := 256

/-- The number of cells of `LUXI` (R6, R33). -/
def luxiSize : Nat := 16

/-- Measurer `m`, if `m < NPM` (R34). -/
def State.pm? (s : State) (m : BitVec 4) : Option Measurer := s.pms[m.toNat]?

/-- The state with measurer `m` replaced. -/
def State.setPm (s : State) (m : BitVec 4) (p : Measurer) : State :=
  { s with pms := s.pms.set m.toNat p }

/-- `raise Err(code)`: the whole of what an error changes (R232). -/
def raiseErr (code : ErrCode) (s : State) : State :=
  { s with status := { s.status with err := code, sent := false, fault := true } }

/-- What a command that completes writes beside its own effect: `ERR <- 0`, and `SENT` as its rule says (R13, R100). -/
def complete (sent : Bool) (s : State) : State :=
  { s with status := { s.status with err := .ok, sent := sent } }

/-- What a command that passed all its checks leaves: the state with its effect applied, and whether the result is a
sentinel (R13, R151). -/
structure Effect where
  state : State
  sent : Bool
  deriving DecidableEq, Repr

/-- A command's rule (R13): the error of the first check that fails, or its whole effect. -/
abbrev Command := State → Except ErrCode Effect

/-- Executing a command's rule as one atomic step (R81): its whole effect and `ERR <- 0`, or an error and nothing
else. -/
def retire (c : Command) (s : State) : Host.Outcome State Fault Refusal :=
  match c s with
  | .ok e => .next (complete e.sent e.state)
  | .error code => .next (raiseErr code s)

/-- The selector check of the measurer commands, the first of their checks (R235): `Err(PM_SEL)` if `m >= NPM`. -/
def onMeasurer (m : BitVec 4) (f : Measurer → Command) : Command := fun s =>
  match s.pm? m with
  | none => .error .pmSel
  | some p => f p s

/-- Every piece of state at its reset value (R54), the parameters and the bench kept: what `SRST` does (R105) and what
the `RESET` input leaves (R260). -/
def resetAll (s : State) : State :=
  { State.reset with pms := List.replicate s.pms.length Measurer.reset, bench := s.bench }

/-- The state in which the host's next action is to issue `w`, with the input lines as they stand. -/
def scheduleIssue (w : Word) (s : State) : State :=
  { s with bench :=
    { s.bench with schedule :=
      { agent := .issue w, time := s.bench.time, pins := s.bench.pins, resetLine := false } :: s.bench.schedule } }

end Sys2Proof.Machine
end

