-- ==== Sys2Proof/Machine/Operands.lean ====
section
/-! DEFINITION. The operand forms: how an image address names a cell (R77), how bytes of an image make the words and
samples of spec/41_calibration_decode.md R110, and how a register's bits stand for a number (R10). -/

namespace Sys2Proof.Machine

/-- The `LUXI` cell that an address field names: bit 7 is ignored, bits 6:4 must be 0, the cell is bits 3:0 (R77). -/
def luxiCell (a : Byte) : Option Nat :=
  if a.extractLsb' 4 3 = 0#3 then some (a.extractLsb' 0 4).toNat else none

/-- `word_le(a)`: 16 bits, low byte at the lower address; nothing if a cell is unwritten (R110, R67). -/
def wordLE (m : Memory) (a : Nat) : Option (BitVec 16) :=
  match m.read a, m.read (a + 1) with
  | some lo, some hi => some (lo.setWidth 16 ||| (hi.setWidth 16 <<< 8))
  | _, _ => none

/-- `raw20(a)`: 20 bits, msb first, the low nibble of the third byte discarded (R110, R67). -/
def raw20 (m : Memory) (a : Nat) : Option (BitVec 20) :=
  match m.read a, m.read (a + 1), m.read (a + 2) with
  | some msb, some lsb, some xlsb =>
    some ((msb.setWidth 20 <<< 12) ||| (lsb.setWidth 20 <<< 4) ||| (xlsb >>> 4).setWidth 20)
  | _, _, _ => none

/-- `raw16(a)`: 16 bits, msb first (R110, R67). -/
def raw16 (m : Memory) (a : Nat) : Option (BitVec 16) :=
  match m.read a, m.read (a + 1) with
  | some msb, some lsb => some ((msb.setWidth 16 <<< 8) ||| lsb.setWidth 16)
  | _, _ => none

/-- The number that `H4` or `H5` stands for: 12 bits unsigned, or, with `H45_SIGNED`, two's complement (R28, R116). -/
def h45Value (isSigned : Bool) (h : BitVec 12) : Int :=
  if isSigned then h.toInt else (h.toNat : Int)

/-- The strategy a code selects; code 3 is reserved (R181). -/
def strategyOf (s : BitVec 2) : Option Strategy :=
  if s = 0#2 then some .cycle else if s = 1#2 then some .epoll else if s = 2#2 then some .eirq else none

/-- `PIN[m]` at the present step (R50). -/
def pinLevel (m : BitVec 4) (s : State) : Bool := s.bench.pins.getLsbD m.toNat

end Sys2Proof.Machine
end

