-- ==== Sys2Proof/Machine/Background.lean ====
section
/-! DEFINITION. The background events `Poll(m)` and `Edge(m)` (spec/44_pulse_measurer.md R200 to R206). They write
only the registers of their own measurer, never `STATUS` (R205, R208). -/

namespace Sys2Proof.Machine

/-- `Push(m, w)` (R203): the oldest entry leaves a full FIFO. -/
def pushWidth (q : List Word) (w : Word) : List Word :=
  if q.length = Config.fifoCap then q.drop 1 ++ [w] else q ++ [w]

/-- The falling observation of `Observe` (R201): the width, and what each strategy does with it. -/
def recordFall (now : Word) (p : Measurer) : Measurer :=
  let w := now - p.startTime
  let p := { p with endTime := now, st := .waitingForRise }
  match p.strat with
  | .cycle => { p with acc := p.acc + w }
  | .epoll => { p with pw := w, pwV := true }
  | .eirq => { p with pw := w, pwV := true, fifo := pushWidth p.fifo w }

/-- `Observe(m, level, now)` (R201): the two-state machine. -/
def observe (level : Bool) (now : Word) (p : Measurer) : Measurer :=
  match p.st with
  | .waitingForRise => if level then { p with startTime := now, st := .waitingForFall } else p
  | .waitingForFall => if level then p else recordFall now p

/-- `WindowCheck(m, now)` (R202): at 30000 ms or more, publish and begin the next window. -/
def windowCheck (now : Word) (p : Measurer) : Measurer :=
  let e := now - p.winStart
  if Config.windowMs ≤ e.toNat then
    { p with pubLen := e, pubOn := p.acc, pubV := true, winStart := now, acc := 0 }
  else p

/-- `Prologue(m)` (R205): the state in which the step ends, or nothing if it continues. -/
def backgroundPrologue (p : Measurer) : Option Measurer :=
  if p.stopReq then some { p with run := false, stopReq := false }
  else if !p.opened then some { p with pinErr := true, run := false }
  else none

/-- One iteration of the poll task (R200). -/
def pollOnce (level : Bool) (now : Word) (p : Measurer) : Measurer :=
  match backgroundPrologue p with
  | some q => q
  | none =>
    match p.strat with
    | .cycle => windowCheck now (observe level now p)
    | .epoll => observe level now p
    | .eirq => observe level now p

/-- One invocation of the edge callback (R204). -/
def edgeOnce (level : Bool) (now : Word) (p : Measurer) : Measurer :=
  match backgroundPrologue p with
  | some q => q
  | none => observe level now p

/-- `Poll` is enabled (R206). -/
def pollEnabled (p : Measurer) : Bool := p.run && p.strat != .eirq

/-- `Edge` is enabled (R206, R239). -/
def edgeEnabled (p : Measurer) : Bool := p.run && p.strat == .eirq

/-- `Poll(m)` at the present inputs (R200). Where it is not enabled there is no such step (R206): nothing changes. -/
def pollStep (m : BitVec 4) (s : State) : State :=
  match s.pm? m with
  | none => s
  | some p => if pollEnabled p then s.setPm m (pollOnce (pinLevel m s) s.bench.time p) else s

/-- A delivery of `EDGE[m]` at the present inputs (R204): where `Edge(m)` is not enabled the notification is discarded
(R206). -/
def edgeStep (m : BitVec 4) (s : State) : State :=
  match s.pm? m with
  | none => s
  | some p => if edgeEnabled p then s.setPm m (edgeOnce (pinLevel m s) s.bench.time p) else s

end Sys2Proof.Machine
end

