-- ==== Sys2Proof/Machine/Calib.lean ====
section
/-! DEFINITION. Calibration and raw-sample decode: `CALT`, `CALP`, `CALH`, `DECT`, `DECP`, `DECH`
(spec/41_calibration_decode.md). Each decodes all its cells before it writes anything, so all of a table or sample is
updated or none of it (R65, R110). -/

namespace Sys2Proof.Machine

/-- The temperature table in `ENV[0x88..0x8D]`, nothing if a cell is unwritten (R112). -/
def decodeCalT (m : Memory) : Option CalT := do
  let t1 ← wordLE m 0x88
  let t2 ← wordLE m 0x8A
  let t3 ← wordLE m 0x8C
  return { t1, t2, t3 }

/-- The pressure table in `ENV[0x8E..0x9F]` (R114). -/
def decodeCalP (m : Memory) : Option CalP := do
  let p1 ← wordLE m 0x8E
  let p2 ← wordLE m 0x90
  let p3 ← wordLE m 0x92
  let p4 ← wordLE m 0x94
  let p5 ← wordLE m 0x96
  let p6 ← wordLE m 0x98
  let p7 ← wordLE m 0x9A
  let p8 ← wordLE m 0x9C
  let p9 ← wordLE m 0x9E
  return { p1, p2, p3, p4, p5, p6, p7, p8, p9 }

/-- The humidity table in `ENV[0xA1]` and `ENV[0xE1..0xE7]` (R116). With `H45_SIGNED` the 12 bits of `H4` and `H5` are
the same; they are read as signed (`h45Value`). -/
def decodeCalH (m : Memory) : Option CalH := do
  let h1 ← m.read 0xA1
  let h2 ← wordLE m 0xE1
  let h3 ← m.read 0xE3
  let e4 ← m.read 0xE4
  let e5 ← m.read 0xE5
  let w ← wordLE m 0xE5
  let h6 ← m.read 0xE7
  return { h1, h2, h3
           h4 := (e4.setWidth 12 <<< 4) ||| (e5 &&& 0x0F#8).setWidth 12
           h5 := (w >>> 4).setWidth 12
           h6 }

/-- The rule of `CALT` (R112): `CAL_LOCKED` while `TV = 1` (R31), then `UNWRITTEN`. -/
def loadCalT : Command := fun s =>
  if s.status.tv then .error .calLocked
  else match decodeCalT s.env with
    | none => .error .unwritten
    | some c => .ok { state := { s with calT := c, status := { s.status with tv := true } }, sent := false }

/-- `CALT` (R112). -/
def execCalt (s : State) : Host.Outcome State Fault Refusal := retire loadCalT s

/-- The rule of `CALP` (R114). -/
def loadCalP : Command := fun s =>
  if s.status.pv then .error .calLocked
  else match decodeCalP s.env with
    | none => .error .unwritten
    | some c => .ok { state := { s with calP := c, status := { s.status with pv := true } }, sent := false }

/-- `CALP` (R114). -/
def execCalp (s : State) : Host.Outcome State Fault Refusal := retire loadCalP s

/-- The rule of `CALH` (R116). -/
def loadCalH : Command := fun s =>
  if s.status.hv then .error .calLocked
  else match decodeCalH s.env with
    | none => .error .unwritten
    | some c => .ok { state := { s with calH := c, status := { s.status with hv := true } }, sent := false }

/-- `CALH` (R116). -/
def execCalh (s : State) : Host.Outcome State Fault Refusal := retire loadCalH s

/-- The rule of `DECT` (R118): the sample is taken as a new one, so `FTV` is cleared. -/
def loadRawT : Command := fun s =>
  match raw20 s.env 0xFA with
  | none => .error .unwritten
  | some r =>
    .ok { state := { s with rawT := r, status := { s.status with rtv := true, ftv := false } }, sent := false }

/-- `DECT` (R118). -/
def execDect (s : State) : Host.Outcome State Fault Refusal := retire loadRawT s

/-- The rule of `DECP` (R119). -/
def loadRawP : Command := fun s =>
  match raw20 s.env 0xF7 with
  | none => .error .unwritten
  | some r => .ok { state := { s with rawP := r, status := { s.status with rpv := true } }, sent := false }

/-- `DECP` (R119). -/
def execDecp (s : State) : Host.Outcome State Fault Refusal := retire loadRawP s

/-- The rule of `DECH` (R120). -/
def loadRawH : Command := fun s =>
  match raw16 s.env 0xFD with
  | none => .error .unwritten
  | some r => .ok { state := { s with rawH := r, status := { s.status with rhv := true } }, sent := false }

/-- `DECH` (R120). -/
def execDech (s : State) : Host.Outcome State Fault Refusal := retire loadRawH s

end Sys2Proof.Machine
end

