-- ==== Sys2Proof/Machine/Float.lean ====
section
/-! DEFINITION. The floating-point laws of spec/42_compensation.md R130 to R135 and spec/00_scope.md R11: IEEE 754
binary32 and binary64 with round to nearest, ties to even, one rounding per operation, subnormals kept, no flags, no
traps. An operation unpacks its operands to exact numbers, computes the exact real result, and rounds once. `PowRatio`
of spec/43_lux.md R166 is the same rounding applied to the exact fifth root of `r^7`. -/

namespace Sys2Proof.Machine

/-- A binary interchange format: the widths of the fraction and exponent fields (R11). -/
structure FloatFormat where
  fracBits : Nat
  expBits : Nat
  deriving DecidableEq, Repr

/-- binary32: sign bit 31, exponent bits 30:23, fraction bits 22:0 (R11). -/
def binary32 : FloatFormat := { fracBits := 23, expBits := 8 }

/-- binary64 (R11). -/
def binary64 : FloatFormat := { fracBits := 52, expBits := 11 }

/-- An exact value: not a number, an infinity, or `± (n / d) * 2 ^ e` with `d` not 0; zeros keep their sign. -/
inductive Exact
  | nan
  | inf (neg : Bool)
  | num (neg : Bool) (n d : Nat) (e : Int)
  deriving DecidableEq, Repr

/-- The weight (a power of two) of the last fraction bit of a subnormal: -149 for binary32, -1074 for binary64. -/
def minExp (f : FloatFormat) : Int :=
  2 - (2 ^ (f.expBits - 1) : Nat) - (f.fracBits : Int)

/-- The magnitude bits of an infinity. -/
def infBits (f : FloatFormat) : Nat :=
  (2 ^ f.expBits - 1) * 2 ^ f.fracBits

/-- The canonical quiet NaN (R134): 0x7FC00000 in binary32. -/
def nanBits (f : FloatFormat) : Nat :=
  infBits f + 2 ^ (f.fracBits - 1)

/-- The weight of the sign bit. -/
def signWeight (f : FloatFormat) : Nat :=
  2 ^ (f.fracBits + f.expBits)

/-- The exact value that an encoding stands for. -/
def unpack (f : FloatFormat) (bits : Nat) : Exact :=
  let neg := bits / signWeight f % 2 == 1
  let ex := bits / 2 ^ f.fracBits % 2 ^ f.expBits
  let fr := bits % 2 ^ f.fracBits
  if ex = 2 ^ f.expBits - 1 then (if fr = 0 then .inf neg else .nan)
  else if ex = 0 then .num neg fr 1 (minExp f)
  else .num neg (fr + 2 ^ f.fracBits) 1 (minExp f + ((ex - 1 : Nat) : Int))

/-- `n / d * 2 ^ k` as a fraction of natural numbers. -/
def scaleBy (n d : Nat) (k : Int) : Nat × Nat :=
  if 0 ≤ k then (n * 2 ^ k.toNat, d) else (n, d * 2 ^ (-k).toNat)

/-- The integer part of `log2 (n / d)`, for `n` and `d` not 0. -/
def floorLog2 (n d : Nat) : Int :=
  let l : Int := (Nat.log2 n : Int) - (Nat.log2 d : Int)
  let s := scaleBy n d (-l)
  if s.2 ≤ s.1 then l else l - 1

/-- Round to nearest, ties to even (R131): `t` is a count of half units in the last place, `inexact` says that the
value lies strictly between `t` and `t + 1` of them. -/
def roundHalfEven (t : Nat) (inexact : Bool) : Nat :=
  if t % 2 = 1 ∧ (inexact = true ∨ t / 2 % 2 = 1) then t / 2 + 1 else t / 2

/-- The exponent of the last place of a value whose integer logarithm is `l`: gradual underflow stops at `minExp`. -/
def lastPlace (f : FloatFormat) (l : Int) : Int :=
  max (l - (f.fracBits : Int)) (minExp f)

/-- The magnitude bits of the value that has `t` half units (and a rest, if `inexact`) in a last place of weight
`2 ^ u`. A carry out of the fraction moves into the exponent field; a result too large for the format is an infinity
(R131). -/
def packMagnitude (f : FloatFormat) (u : Int) (t : Nat) (inexact : Bool) : Nat :=
  min ((u - minExp f).toNat * 2 ^ f.fracBits + roundHalfEven t inexact) (infBits f)

/-- The magnitude bits of `n / d * 2 ^ e`, rounded once. -/
def roundMagnitude (f : FloatFormat) (n d : Nat) (e : Int) : Nat :=
  if n = 0 then 0
  else
    let u := lastPlace f (floorLog2 n d + e)
    let s := scaleBy n d (e - (u - 1))
    packMagnitude f u (s.1 / s.2) (s.1 % s.2 != 0)

/-- The encoding of an exact value, rounded once (R131, R134). -/
def roundTo (f : FloatFormat) : Exact → Nat
  | .nan => nanBits f
  | .inf neg => (if neg then signWeight f else 0) + infBits f
  | .num neg n d e => (if neg then signWeight f else 0) + roundMagnitude f n d e

/-- A natural number with a sign. -/
def signed (neg : Bool) (n : Nat) : Int :=
  if neg then -(n : Int) else (n : Int)

/-- The exact number with the other sign. -/
def exactNeg : Exact → Exact
  | .nan => .nan
  | .inf neg => .inf (!neg)
  | .num neg n d e => .num (!neg) n d e

/-- The exact sum. Infinity minus infinity is NaN; a sum that is 0 is -0 only when both operands are negative zeros,
as IEEE 754 has it for round to nearest. -/
def exactAdd : Exact → Exact → Exact
  | .nan, _ => .nan
  | _, .nan => .nan
  | .inf a, .inf b => if a = b then .inf a else .nan
  | .inf a, .num _ _ _ _ => .inf a
  | .num _ _ _ _, .inf b => .inf b
  | .num s₁ n₁ d₁ e₁, .num s₂ n₂ d₂ e₂ =>
    let e := min e₁ e₂
    let x : Int := signed s₁ (n₁ * d₂ * 2 ^ (e₁ - e).toNat) + signed s₂ (n₂ * d₁ * 2 ^ (e₂ - e).toNat)
    .num (if x = 0 then s₁ && s₂ else decide (x < 0)) x.natAbs (d₁ * d₂) e

/-- The exact product. Zero times infinity is NaN. -/
def exactMul : Exact → Exact → Exact
  | .nan, _ => .nan
  | _, .nan => .nan
  | .inf a, .inf b => .inf (a != b)
  | .inf a, .num s n _ _ => if n = 0 then .nan else .inf (a != s)
  | .num s n _ _, .inf b => if n = 0 then .nan else .inf (s != b)
  | .num s₁ n₁ d₁ e₁, .num s₂ n₂ d₂ e₂ => .num (s₁ != s₂) (n₁ * n₂) (d₁ * d₂) (e₁ + e₂)

/-- The exact quotient. Infinity over infinity and zero over zero are NaN; another number over zero is an infinity. -/
def exactDiv : Exact → Exact → Exact
  | .nan, _ => .nan
  | _, .nan => .nan
  | .inf _, .inf _ => .nan
  | .inf a, .num s _ _ _ => .inf (a != s)
  | .num s _ _ _, .inf b => .num (s != b) 0 1 0
  | .num s₁ n₁ d₁ e₁, .num s₂ n₂ d₂ e₂ =>
    if n₂ = 0 then (if n₁ = 0 then .nan else .inf (s₁ != s₂))
    else .num (s₁ != s₂) (n₁ * d₂) (d₁ * n₂) (e₁ - e₂)

/-- `x < y`, false if either is NaN (R134). -/
def exactLt : Exact → Exact → Bool
  | .nan, _ => false
  | _, .nan => false
  | .inf a, .inf b => a && !b
  | .inf a, .num _ _ _ _ => a
  | .num _ _ _ _, .inf b => !b
  | .num s₁ n₁ d₁ e₁, .num s₂ n₂ d₂ e₂ =>
    let e := min e₁ e₂
    decide (signed s₁ (n₁ * d₂ * 2 ^ (e₁ - e).toNat) < signed s₂ (n₂ * d₁ * 2 ^ (e₂ - e).toNat))

/-- `x = y` as values, false if either is NaN; +0 equals -0 (R134). -/
def exactEq : Exact → Exact → Bool
  | .nan, _ => false
  | _, .nan => false
  | .inf a, .inf b => a == b
  | .inf _, .num _ _ _ _ => false
  | .num _ _ _ _, .inf _ => false
  | .num s₁ n₁ d₁ e₁, .num s₂ n₂ d₂ e₂ =>
    let e := min e₁ e₂
    decide (signed s₁ (n₁ * d₂ * 2 ^ (e₁ - e).toNat) = signed s₂ (n₂ * d₁ * 2 ^ (e₂ - e).toNat))

/-- The exact value of an integer. -/
def exactInt (n : Int) : Exact :=
  .num (decide (n < 0)) n.natAbs 1 0

/-- The value of a binary32 encoding. -/
def unpack32 (x : F32) : Exact := unpack binary32 x.toNat

/-- The value of a binary64 encoding. -/
def unpack64 (x : F64) : Exact := unpack binary64 x.toNat

/-- An exact value rounded once to binary32 (R131). -/
def round32 (x : Exact) : F32 := BitVec.ofNat 32 (roundTo binary32 x)

/-- An exact value rounded once to binary64 (R131). -/
def round64 (x : Exact) : F64 := BitVec.ofNat 64 (roundTo binary64 x)

/-- `fadd32` (R11, R131). -/
def fadd32 (a b : F32) : F32 := round32 (exactAdd (unpack32 a) (unpack32 b))

/-- `fsub32` (R11, R131). -/
def fsub32 (a b : F32) : F32 := round32 (exactAdd (unpack32 a) (exactNeg (unpack32 b)))

/-- `fmul32` (R11, R131). -/
def fmul32 (a b : F32) : F32 := round32 (exactMul (unpack32 a) (unpack32 b))

/-- `fdiv32` (R11, R131). -/
def fdiv32 (a b : F32) : F32 := round32 (exactDiv (unpack32 a) (unpack32 b))

/-- `fadd64` (R11, R131). -/
def fadd64 (a b : F64) : F64 := round64 (exactAdd (unpack64 a) (unpack64 b))

/-- `fsub64` (R11, R131). -/
def fsub64 (a b : F64) : F64 := round64 (exactAdd (unpack64 a) (exactNeg (unpack64 b)))

/-- `fmul64` (R11, R131). -/
def fmul64 (a b : F64) : F64 := round64 (exactMul (unpack64 a) (unpack64 b))

/-- `fdiv64` (R11, R131). -/
def fdiv64 (a b : F64) : F64 := round64 (exactDiv (unpack64 a) (unpack64 b))

/-- `i2f32(n)`: one rounding (R11, R133). -/
def i2f32 (n : Int) : F32 := round32 (exactInt n)

/-- `i2f64(n)`: one rounding (R11, R133). -/
def i2f64 (n : Int) : F64 := round64 (exactInt n)

/-- `f32to64(x)`: exact widening (R11). -/
def f32to64 (x : F32) : F64 := round64 (unpack32 x)

/-- `f64to32(x)`: narrowing with one rounding (R11, R135). -/
def f64to32 (x : F64) : F32 := round32 (unpack64 x)

/-- The `f32` nearest to the decimal fraction `n / d` (R11: a decimal literal followed by `f`). -/
def dec32 (n d : Nat) : F32 := round32 (.num false n d 0)

/-- `x == 0`: true for +0 and -0, false for NaN (R134). -/
def isZero32 (x : F32) : Bool := exactEq (unpack32 x) (exactInt 0)

/-- `x == 0` in binary64 (R134). -/
def isZero64 (x : F64) : Bool := exactEq (unpack64 x) (exactInt 0)

/-- `x <= y` in binary32, false if either is NaN (R134). -/
def fle32 (x y : F32) : Bool :=
  exactLt (unpack32 x) (unpack32 y) || exactEq (unpack32 x) (unpack32 y)

/-- `x < y` in binary64, false if either is NaN (R134). -/
def flt64 (x y : F64) : Bool := exactLt (unpack64 x) (unpack64 y)

/-- The greatest `r` with `r ^ 5 ≤ x` among those that agree with `acc` above the `bits` low bits. -/
def fifthRootBits (x : Nat) : Nat → Nat → Nat
  | 0, acc => acc
  | bits + 1, acc =>
    if (acc + 2 ^ bits) ^ 5 ≤ x then fifthRootBits x bits (acc + 2 ^ bits) else fifthRootBits x bits acc

/-- The magnitude bits of `(n * 2 ^ e) ^ (7/5)`, rounded once: the half units in the last place are the integer fifth
root of `(n * 2 ^ e) ^ 7` scaled by the fifth power of their weight. -/
def powMagnitude (f : FloatFormat) (n : Nat) (e : Int) : Nat :=
  if n = 0 then 0
  else
    let u := lastPlace f ((floorLog2 (n ^ 7) 1 + 7 * e) / 5)
    let s := scaleBy (n ^ 7) 1 (7 * e - 5 * (u - 1))
    let t := fifthRootBits (s.1 / s.2) (f.fracBits + 3) 0
    packMagnitude f u t (t ^ 5 * s.2 != s.1)

/-- `PowRatio(r)`: the `f32` nearest (ties to even) to the real number `r ^ 1.4` (R166). Its argument in `LUX` is a
ratio of channel counts, at least 0 and at most 0.5; R166 defines it on `0 <= r <= 0.5` only, and what it answers for
a negative number, an infinity or a NaN is never used. -/
def powRatio (r : F32) : F32 :=
  match unpack32 r with
  | .num _ n _ e => BitVec.ofNat 32 (powMagnitude binary32 n e)
  | .inf _ => BitVec.ofNat 32 (nanBits binary32)
  | .nan => BitVec.ofNat 32 (nanBits binary32)

end Sys2Proof.Machine
end

