-- ==== Sys2Proof/Machine/Comp.lean ====
section
/-! DEFINITION. Compensation: `COMPT`, `COMPP`, `COMPH` (spec/42_compensation.md). Each formula is the sequence of
single floating-point operations that its rule writes, in that nesting (R132). Constants are integers that both formats
hold exactly. -/

namespace Sys2Proof.Machine

/-- The fine temperature `fine` (R140). -/
def fineTemperature (raw : BitVec 20) (c : CalT) : F32 :=
  let r := i2f32 raw.toNat
  let t1 := i2f32 c.t1.toNat
  let t2 := i2f32 c.t2.toInt
  let t3 := i2f32 c.t3.toInt
  let a := fsub32 (fdiv32 r (i2f32 16384)) (fdiv32 t1 (i2f32 1024))
  let var1 := fmul32 a t2
  let b := fsub32 (fdiv32 r (i2f32 131072)) (fdiv32 t1 (i2f32 8192))
  let var2 := fmul32 (fmul32 b b) t3
  fadd32 var1 var2

/-- `TEMP` from the fine temperature (R140). -/
def temperatureOf (fine : F32) : F32 := fdiv32 fine (i2f32 5120)

/-- The first `v1` of R143. -/
def pressFirst (ft : F32) : F32 := fsub32 (fdiv32 ft (i2f32 2)) (i2f32 64000)

/-- `v2` of R143 after its third line. -/
def pressV2 (ft : F32) (c : CalP) : F32 :=
  let v1 := pressFirst ft
  let v2 := fdiv32 (fmul32 (fmul32 v1 v1) (i2f32 c.p6.toInt)) (i2f32 32768)
  let v2 := fadd32 v2 (fmul32 (fmul32 v1 (i2f32 c.p5.toInt)) (i2f32 2))
  fadd32 (fdiv32 v2 (i2f32 4)) (fmul32 (i2f32 c.p4.toInt) (i2f32 65536))

/-- `v1` of R143 after its third line: the normalized term that the guard tests. -/
def pressV1 (ft : F32) (c : CalP) : F32 :=
  let v1 := pressFirst ft
  let v1 := fdiv32 (fadd32 (fdiv32 (fmul32 (fmul32 (i2f32 c.p3.toInt) v1) v1) (i2f32 524288))
    (fmul32 (i2f32 c.p2.toInt) v1)) (i2f32 524288)
  fmul32 (fadd32 (i2f32 1) (fdiv32 v1 (i2f32 32768))) (i2f32 c.p1.toNat)

/-- The pressure in hectopascals from a nonzero `v1` (R143). -/
def pressBody (raw : BitVec 20) (v1 v2 : F32) (c : CalP) : F32 :=
  let p := fsub32 (i2f32 1048576) (i2f32 raw.toNat)
  let p := fdiv32 (fmul32 (fsub32 p (fdiv32 v2 (i2f32 4096))) (i2f32 6250)) v1
  let w1 := fdiv32 (fmul32 (fmul32 (i2f32 c.p9.toInt) p) p) (i2f32 2147483648)
  let w2 := fdiv32 (fmul32 p (i2f32 c.p8.toInt)) (i2f32 32768)
  let p := fadd32 p (fdiv32 (fadd32 (fadd32 w1 w2) (i2f32 c.p7.toInt)) (i2f32 16))
  fdiv32 p (i2f32 100)

/-- `compensatePressure` (R143): nothing on the guard path. -/
def compensatePressure (raw : BitVec 20) (ft : F32) (c : CalP) : Option F32 :=
  let v1 := pressV1 ft c
  if isZero32 v1 then none else some (pressBody raw v1 (pressV2 ft c) c)

/-- `v` of R147, ATD's `var_h`. -/
def humShift (ft : F32) : F64 := fsub64 (f32to64 ft) (i2f64 76800)

/-- `z` of R147 before the clamp. -/
def humPolynomial (isSigned : Bool) (rawH : BitVec 16) (v : F64) (c : CalH) : F64 :=
  let raw := i2f64 rawH.toNat
  let h1 := i2f64 c.h1.toNat
  let h2 := i2f64 c.h2.toInt
  let h3 := i2f64 c.h3.toNat
  let h4 := i2f64 (h45Value isSigned c.h4)
  let h5 := i2f64 (h45Value isSigned c.h5)
  let h6 := i2f64 c.h6.toInt
  let x := fsub64 raw (fadd64 (fmul64 h4 (i2f64 64)) (fmul64 (fdiv64 h5 (i2f64 16384)) v))
  let y := fmul64 (fdiv64 h2 (i2f64 65536))
    (fadd64 (i2f64 1) (fmul64 (fmul64 (fdiv64 h6 (i2f64 67108864)) v)
      (fadd64 (i2f64 1) (fmul64 (fdiv64 h3 (i2f64 67108864)) v))))
  let w := fmul64 x y
  fmul64 w (fsub64 (i2f64 1) (fdiv64 (fmul64 h1 w) (i2f64 524288)))

/-- The clamp to [0, 100] and the one narrowing (R135, R147). -/
def humClamp (z : F64) : F32 :=
  if flt64 (i2f64 100) z then f64to32 (i2f64 100)
  else if flt64 z (i2f64 0) then f64to32 (i2f64 0)
  else f64to32 z

/-- `compensateHumidity` (R147): nothing on the guard path, which is kept (R148). -/
def compensateHumidity (isSigned : Bool) (raw : BitVec 16) (ft : F32) (c : CalH) : Option F32 :=
  let v := humShift ft
  if isZero64 v then none else some (humClamp (humPolynomial isSigned raw v c))

/-- The rule of `COMPT` (R140). -/
def compT : Command := fun s =>
  if !s.ctrl.ten then .error .invalidState
  else if !s.status.tv then .error .nocal
  else if !s.status.rtv then .error .noraw
  else
    let fine := fineTemperature s.rawT s.calT
    .ok { state := { s with ft := fine, temp := temperatureOf fine, status := { s.status with ftv := true } }
          sent := false }

/-- `COMPT` (R140). -/
def execCompt (s : State) : Host.Outcome State Fault Refusal := retire compT s

/-- The rule of `COMPP` (R143): the guard writes +0.0 and is a sentinel (R151). -/
def compP : Command := fun s =>
  if !s.ctrl.pen then .error .invalidState
  else if !s.status.pv then .error .nocal
  else if !s.status.rpv then .error .noraw
  else if !s.status.ftv then .error .noft
  else match compensatePressure s.rawP s.ft s.calP with
    | none => .ok { state := { s with press := 0 }, sent := true }
    | some p => .ok { state := { s with press := p }, sent := false }

/-- `COMPP` (R143). -/
def execCompp (s : State) : Host.Outcome State Fault Refusal := retire compP s

/-- The rule of `COMPH` (R147). -/
def compH : Command := fun s =>
  if !s.ctrl.hen then .error .invalidState
  else if !s.status.hv then .error .nocal
  else if !s.status.rhv then .error .noraw
  else if !s.status.ftv then .error .noft
  else match compensateHumidity s.bench.h45Signed s.rawH s.ft s.calH with
    | none => .ok { state := { s with hum := 0 }, sent := true }
    | some h => .ok { state := { s with hum := h }, sent := false }

/-- `COMPH` (R147). -/
def execComph (s : State) : Host.Outcome State Fault Refusal := retire compH s

end Sys2Proof.Machine
end

