-- ==== Sys2Proof/Machine/Control.lean ====
section
/-! DEFINITION. The control commands `NOP`, `WRB`, `WRC`, `ENVCLOSE`, `SRST` (spec/40_control.md R100 to R105). -/

namespace Sys2Proof.Machine

/-- `NOP` (R101): no effect but `ERR <- 0`, `SENT <- 0`. -/
def execNop (s : State) : Host.Outcome State Fault Refusal :=
  retire (fun s => .ok { state := s, sent := false }) s

/-- The rule of `WRB sp, a, d` (R102): the byte goes into the cell; `LUXI` cell 1 sets `TIMF` (R30). -/
def writeImage (sp : Space) (a d : Byte) : Command := fun s =>
  match sp with
  | .env => .ok { state := { s with env := s.env.write a.toNat d }, sent := false }
  | .luxi =>
    match luxiCell a with
    | none => .error .addr
    | some c =>
      .ok { state := { s with
              luxi := s.luxi.write c d
              status := { s.status with timf := s.status.timf || c == 1 } }
            sent := false }

/-- `WRB sp, a, d` (R102). -/
def execWrb (sp : Space) (a d : Byte) (s : State) : Host.Outcome State Fault Refusal :=
  retire (writeImage sp a d) s

/-- `WRC imm3` (R103): `TEN`, `PEN`, `HEN` are bits 0, 1, 2 of the immediate. -/
def execWrc (imm3 : BitVec 3) (s : State) : Host.Outcome State Fault Refusal :=
  retire (fun s => .ok
    { state := { s with ctrl := { ten := imm3.getLsbD 0, pen := imm3.getLsbD 1, hen := imm3.getLsbD 2 } }
      sent := false }) s

/-- The environmental unit torn down (R104); `LUXI`, `TIMF`, `LUX`, `FAULT` and the measurers stay (R261). -/
def closeEnvironment (s : State) : State :=
  { s with
    status := { s.status with tv := false, pv := false, hv := false, rtv := false, rpv := false, rhv := false,
                              ftv := false }
    ctrl := Ctrl.reset
    temp := 0
    ft := 0
    press := 0
    hum := 0
    rawT := 0
    rawP := 0
    rawH := 0
    calT := CalT.reset
    calP := CalP.reset
    calH := CalH.reset
    env := [] }

/-- `ENVCLOSE` (R104). -/
def execEnvclose (s : State) : Host.Outcome State Fault Refusal :=
  retire (fun s => .ok { state := closeEnvironment s, sent := false }) s

/-- `SRST` (R105): every piece of state takes its reset value, `FAULT` too. -/
def execSrst (s : State) : Host.Outcome State Fault Refusal :=
  retire (fun s => .ok { state := resetAll s, sent := false }) s

end Sys2Proof.Machine
end

