-- ==== Sys2Proof/Machine/Lux.lean ====
section
/-! DEFINITION. The lux calculator: `LUX` (spec/43_lux.md). The constants are R167's encodings. -/

namespace Sys2Proof.Machine

/-- `REF_MS`, 402.0 (R167). -/
def refMs : F32 := 0x43C90000#32
/-- `TH1`, 0.5 (R167). -/
def th1 : F32 := 0x3F000000#32
/-- `TH2`, 0.61 (R167). -/
def th2 : F32 := 0x3F1C28F6#32
/-- `TH3`, 0.80 (R167). -/
def th3 : F32 := 0x3F4CCCCD#32
/-- `TH4`, 1.30 (R167). -/
def th4 : F32 := 0x3FA66666#32
/-- `K1A`, 0.0304 (R167). -/
def k1a : F32 := 0x3CF9096C#32
/-- `K1B`, 0.062 (R167). -/
def k1b : F32 := 0x3D7DF3B6#32
/-- `K2A`, 0.0224 (R167). -/
def k2a : F32 := 0x3CB78034#32
/-- `K2B`, 0.031 (R167). -/
def k2b : F32 := 0x3CFDF3B6#32
/-- `K3A`, 0.0128 (R167). -/
def k3a : F32 := 0x3C51B717#32
/-- `K3B`, 0.0153 (R167). -/
def k3b : F32 := 0x3C7AACDA#32
/-- `K4A`, 0.00146 (R167). -/
def k4a : F32 := 0x3ABF5D79#32
/-- `K4B`, 0.00112 (R167). -/
def k4b : F32 := 0x3A92CCF7#32

/-- What the timing byte says (R163): gain and integration time. -/
structure Timing where
  gain : F32
  integTime : F32
  deriving DecidableEq, Repr

/-- `TimingDecode` with the table of R163: `INTEG` is bits 1:0 (13.7, 101, 402 ms; 3 is manual and has no time), `GAIN`
is bit 4 (1 or 16); the other bits are ignored. -/
def timingDecode (tb : Byte) : Option Timing :=
  let gain : F32 := if tb.getLsbD 4 then 0x41800000#32 else 0x3F800000#32
  if tb.extractLsb' 0 2 = 0#2 then some { gain, integTime := 0x415B3333#32 }
  else if tb.extractLsb' 0 2 = 1#2 then some { gain, integTime := 0x42CA0000#32 }
  else if tb.extractLsb' 0 2 = 2#2 then some { gain, integTime := 0x43C90000#32 }
  else none

/-- The five cells that `LUX` reads (R69): the timing byte, `ch0` and `ch1` (R162). -/
def luxInputs (m : Memory) : Option (Byte × BitVec 16 × BitVec 16) := do
  let tb ← m.read 0x1
  let ch0 ← wordLE m 0xC
  let ch1 ← wordLE m 0xE
  return (tb, ch0, ch1)

/-- Step 6 of R161: the illuminance from counts that are neither saturated nor dark. -/
def illuminance (ch0 ch1 : BitVec 16) (t : Timing) : F32 :=
  let c0 := i2f32 ch0.toNat
  let c1 := i2f32 ch1.toNat
  let ratio := fdiv32 c1 c0
  let scale := fdiv32 (fdiv32 refMs t.integTime) t.gain
  let d0 := fmul32 c0 scale
  let d1 := fmul32 c1 scale
  if fle32 ratio th1 then fsub32 (fmul32 k1a d0) (fmul32 (fmul32 k1b d0) (powRatio ratio))
  else if fle32 ratio th2 then fsub32 (fmul32 k2a d0) (fmul32 k2b d1)
  else if fle32 ratio th3 then fsub32 (fmul32 k3a d0) (fmul32 k3b d1)
  else if fle32 ratio th4 then fsub32 (fmul32 k4a d0) (fmul32 k4b d1)
  else 0

/-- What a `LUX` that completes writes: the result, `TIMF <- 0`, and `SENT` (R161). -/
def luxDone (result : F32) (sent : Bool) (s : State) : Effect :=
  { state := { s with luxR := result, status := { s.status with timf := false } }, sent := sent }

/-- The rule of `LUX` (R161): presence, freshness, saturation sentinel, timing, dark sentinel, formula. -/
def computeLux : Command := fun s =>
  match luxInputs s.luxi with
  | none => .error .unwritten
  | some (tb, ch0, ch1) =>
    if !s.status.timf then .error .staleTiming
    else if ch0 = Config.ch0Sat then .ok (luxDone Config.satLux true s)
    else match timingDecode tb with
      | none => .error .badTiming
      | some t =>
        if ch0 = 0 then .ok (luxDone 0 true s)
        else .ok (luxDone (illuminance ch0 ch1 t) false s)

/-- `LUX` (R161). -/
def execLux (s : State) : Host.Outcome State Fault Refusal := retire computeLux s

end Sys2Proof.Machine
end

