-- ==== Sys2Proof/Machine/Pulse.lean ====
section
/-! DEFINITION. The host's commands on the pulse measurers: `PMOPEN`, `PMSTART`, `PMSTOP`, `PMCLOSE`, `PMRD`, `PMAVG`,
`PPM`, `DENS` (spec/44_pulse_measurer.md R183 to R190). -/

namespace Sys2Proof.Machine

/-- The effect of a command that only replaces measurer `m`. -/
def measurerDone (m : BitVec 4) (p : Measurer) (sent : Bool) (s : State) : Effect :=
  { state := s.setPm m p, sent := sent }

/-- The rule of `PMOPEN m, s` (R183): every register at its reset value, then open with the strategy. -/
def openMeasurer (m : BitVec 4) (code : BitVec 2) : Command :=
  onMeasurer m fun p s =>
    match strategyOf code with
    | none => .error .pmStrat
    | some strat =>
      if p.opened || p.run then .error .pmState
      else .ok (measurerDone m { Measurer.reset with opened := true, strat := strat } false s)

/-- `PMOPEN m, s` (R183). -/
def execPmopen (m : BitVec 4) (code : BitVec 2) (s : State) : Host.Outcome State Fault Refusal :=
  retire (openMeasurer m code) s

/-- The rule of `PMSTART m` (R184); it reads `TIME`. Published values are kept. -/
def startMeasurer (m : BitVec 4) : Command :=
  onMeasurer m fun p s =>
    if !p.opened || p.run then .error .pmState
    else .ok (measurerDone m { p with run := true, stopReq := false, st := .waitingForRise,
                                      winStart := s.bench.time, acc := 0 } false s)

/-- `PMSTART m` (R184). -/
def execPmstart (m : BitVec 4) (s : State) : Host.Outcome State Fault Refusal := retire (startMeasurer m) s

/-- What `PMSTOP` does to a measurer (R185): a request for strategies 0 and 1, at once for strategy 2. -/
def requestStop (p : Measurer) : Measurer :=
  if p.run then
    match p.strat with
    | .cycle => { p with stopReq := true }
    | .epoll => { p with stopReq := true }
    | .eirq => { p with run := false }
  else p

/-- The rule of `PMSTOP m` (R185): accepted in every lifecycle state. -/
def stopMeasurer (m : BitVec 4) : Command :=
  onMeasurer m fun p s => .ok (measurerDone m (requestStop p) false s)

/-- `PMSTOP m` (R185). -/
def execPmstop (m : BitVec 4) (s : State) : Host.Outcome State Fault Refusal := retire (stopMeasurer m) s

/-- A measurer after `PMCLOSE` (R186): `RUN`, `STOPREQ`, `PINERR` and `STRAT` stay, everything else is torn down. -/
def closedMeasurer (p : Measurer) : Measurer :=
  { Measurer.reset with run := p.run, stopReq := p.stopReq, pinErr := p.pinErr, strat := p.strat }

/-- The rule of `PMCLOSE m` (R186); it does not check `RUN`. -/
def closeMeasurer (m : BitVec 4) : Command :=
  onMeasurer m fun p s =>
    if !p.opened then .error .pmState
    else .ok (measurerDone m (closedMeasurer p) false s)

/-- `PMCLOSE m` (R186). -/
def execPmclose (m : BitVec 4) (s : State) : Host.Outcome State Fault Refusal := retire (closeMeasurer m) s

/-- The checks that the reader commands share after `PM_SEL` (R235): `PM_STATE`, then `PM_STRAT`. -/
def onReader (m : BitVec 4) (strategyOk : Strategy → Bool) (f : Measurer → Measurer × Bool) : Command :=
  onMeasurer m fun p s =>
    if !p.opened then .error .pmState
    else if !strategyOk p.strat then .error .pmStrat
    else .ok (measurerDone m (f p).1 (f p).2 s)

/-- What `PMRD` writes (R187): both halves of the published pair; a sentinel if nothing is published. -/
def takeSnapshot (p : Measurer) : Measurer × Bool :=
  ({ p with snapLen := p.pubLen, snapOn := p.pubOn }, !p.pubV)

/-- `PMRD m` (R187): the snapshot, in one step. -/
def execPmrd (m : BitVec 4) (s : State) : Host.Outcome State Fault Refusal :=
  retire (onReader m (fun k => k == .cycle) takeSnapshot) s

/-- The sum of the FIFO's entries as an exact integer (R188, R207). -/
def fifoSum (q : List Word) : Nat := (q.map BitVec.toNat).sum

/-- `Mean(P)` (R188). -/
def fifoMean (q : List Word) : F32 := fdiv32 (i2f32 (fifoSum q)) (i2f32 q.length)

/-- What `PMAVG` writes (R188): the mean of the entries present; +0.0 and a sentinel if there is none. -/
def averageFifo (p : Measurer) : Measurer × Bool :=
  ({ p with meanR := if p.fifo.isEmpty then 0 else fifoMean p.fifo }, p.fifo.isEmpty)

/-- `PMAVG m` (R188). -/
def execPmavg (m : BitVec 4) (s : State) : Host.Outcome State Fault Refusal :=
  retire (onReader m (fun k => k == .eirq) averageFifo) s

/-- The pulse width or average that `PPM` converts (R189). -/
def ppmInput (p : Measurer) : F32 :=
  if p.strat = .eirq then (if p.fifo.isEmpty then 0 else fifoMean p.fifo) else i2f32 p.pw.toNat

/-- Whether `PPM` has no data (R189). -/
def ppmNoData (p : Measurer) : Bool :=
  if p.strat = .eirq then p.fifo.isEmpty else !p.pwV

/-- The ppm formula (R189): negative results are returned unmodified. -/
def ppmOf (x : F32) : F32 := fdiv32 (fmul32 (i2f32 5000) (fsub32 x (i2f32 2))) (i2f32 1000)

/-- What `PPM` writes (R189). -/
def convertPpm (p : Measurer) : Measurer × Bool :=
  ({ p with ppmR := ppmOf (ppmInput p) }, ppmNoData p)

/-- `PPM m` (R189), for strategies 1 and 2. -/
def execPpm (m : BitVec 4) (s : State) : Host.Outcome State Fault Refusal :=
  retire (onReader m (fun k => k != .cycle) convertPpm) s

/-- `C2`, 0.001915 (R190). -/
def densC2 : F32 := 0x3AFB00BD#32
/-- `C1`, 0.09522 (R190). -/
def densC1 : F32 := 0x3DC302B4#32
/-- `C0`, 0.04884 (R190). -/
def densC0 : F32 := 0x3D480C74#32

/-- `r` of R190: the percent duty of the published pair. -/
def dutyPercent (on len : Word) : F32 := fdiv32 (fmul32 (i2f32 on.toNat) (i2f32 100)) (i2f32 len.toNat)

/-- The density formula (R190), returned as it is when negative. -/
def densityOf (r : F32) : F32 := fsub32 (fadd32 (fmul32 densC2 (fmul32 r r)) (fmul32 densC1 r)) densC0

/-- What `DENS` writes (R190): the density of the live published pair; +0.0 and a sentinel while its length is 0. -/
def convertDensity (p : Measurer) : Measurer × Bool :=
  ({ p with densR := if p.pubLen = 0 then 0 else densityOf (dutyPercent p.pubOn p.pubLen) }, p.pubLen == 0)

/-- `DENS m` (R190). -/
def execDens (m : BitVec 4) (s : State) : Host.Outcome State Fault Refusal :=
  retire (onReader m (fun k => k == .cycle) convertDensity) s

end Sys2Proof.Machine
end

