-- ==== Sys2Proof/Machine/Dispatch.lean ====
section
/-! DEFINITION. What each command does: one arm per row of the opcode table (spec/30_encoding.md R84). -/

namespace Sys2Proof.Machine

def exec (i : Instr) (s : State) : Host.Outcome State Fault Refusal :=
  match i with
  | .nop => Sys2Proof.Machine.execNop s
  | .wrb sp a d => Sys2Proof.Machine.execWrb sp a d s
  | .wrc imm3 => Sys2Proof.Machine.execWrc imm3 s
  | .envclose => Sys2Proof.Machine.execEnvclose s
  | .srst => Sys2Proof.Machine.execSrst s
  | .calt => Sys2Proof.Machine.execCalt s
  | .calp => Sys2Proof.Machine.execCalp s
  | .calh => Sys2Proof.Machine.execCalh s
  | .dect => Sys2Proof.Machine.execDect s
  | .decp => Sys2Proof.Machine.execDecp s
  | .dech => Sys2Proof.Machine.execDech s
  | .compt => Sys2Proof.Machine.execCompt s
  | .compp => Sys2Proof.Machine.execCompp s
  | .comph => Sys2Proof.Machine.execComph s
  | .lux => Sys2Proof.Machine.execLux s
  | .pmopen m code => Sys2Proof.Machine.execPmopen m code s
  | .pmstart m => Sys2Proof.Machine.execPmstart m s
  | .pmstop m => Sys2Proof.Machine.execPmstop m s
  | .pmclose m => Sys2Proof.Machine.execPmclose m s
  | .pmrd m => Sys2Proof.Machine.execPmrd m s
  | .pmavg m => Sys2Proof.Machine.execPmavg m s
  | .ppm m => Sys2Proof.Machine.execPpm m s
  | .dens m => Sys2Proof.Machine.execDens m s

end Sys2Proof.Machine
end

