-- ==== Sys2Proof/Machine/Flags.lean ====
section
/-! DEFINITION. The words of the flag registers: where each field of `STATUS` (R22), `CTRL` (R23) and `PMSTAT` (R35)
stands. Reserved bits read as 0 (I25). -/

namespace Sys2Proof.Machine

/-- The number of an error code (R230). -/
def ErrCode.code : ErrCode → BitVec 4
  | .ok => 0#4
  | .illegal => 1#4
  | .invalidState => 2#4
  | .unwritten => 3#4
  | .nocal => 4#4
  | .noraw => 5#4
  | .noft => 6#4
  | .calLocked => 7#4
  | .staleTiming => 8#4
  | .badTiming => 9#4
  | .pmSel => 10#4
  | .pmState => 11#4
  | .pmStrat => 12#4
  | .addr => 13#4

/-- The word of `STATUS` (R22), from bit 31 down to bit 0. -/
def statusWord (f : Status) : Word :=
  BitVec.ofBool f.fault ++ 0#15 ++ BitVec.ofBool f.timf ++ BitVec.ofBool f.ftv ++ BitVec.ofBool f.rhv ++
    BitVec.ofBool f.rpv ++ BitVec.ofBool f.rtv ++ BitVec.ofBool f.hv ++ BitVec.ofBool f.pv ++ BitVec.ofBool f.tv ++
    0#3 ++ BitVec.ofBool f.sent ++ f.err.code

/-- The word of `CTRL` (R23). -/
def ctrlWord (c : Ctrl) : Word :=
  0#29 ++ BitVec.ofBool c.hen ++ BitVec.ofBool c.pen ++ BitVec.ofBool c.ten

/-- The code of a strategy (R35, R181). -/
def Strategy.code : Strategy → BitVec 2
  | .cycle => 0#2
  | .epoll => 1#2
  | .eirq => 2#2

/-- The code of `ST` (R35). -/
def PulseState.code : PulseState → BitVec 1
  | .waitingForRise => 0#1
  | .waitingForFall => 1#1

/-- The word of `PMSTAT` (R35), from bit 31 down to bit 0; `CNT` is the length of the FIFO (R36). -/
def pmstatWord (p : Measurer) : Word :=
  0#19 ++ BitVec.ofNat 4 p.fifo.length ++ BitVec.ofBool p.pwV ++ BitVec.ofBool p.pubV ++ p.st.code ++ p.strat.code ++
    BitVec.ofBool p.pinErr ++ BitVec.ofBool p.stopReq ++ BitVec.ofBool p.run ++ BitVec.ofBool p.opened

end Sys2Proof.Machine
end

