-- ==== Sys2Proof/Machine/RegRead.lean ====
section
/-! DEFINITION. The register read port (spec/10_state.md R34, R36 to R40): a pure function of the state. -/

namespace Sys2Proof.Machine

/-- `H4` or `H5` as the port returns it: zero-extended, or sign-extended with `H45_SIGNED` (R28, R40). -/
def readH45 (isSigned : Bool) (h : BitVec 12) : Word :=
  if isSigned then h.signExtend 32 else h.setWidth 32

/-- Image readback (R39): `0x100 | v` for a written cell, 0 for an unwritten one. -/
def readback (m : Memory) (a : Nat) : Word :=
  match m.read a with
  | some v => 0x100#32 ||| v.setWidth 32
  | none => 0

/-- Register `offset` of a measurer (R34); `FIFO[i]` reads 0 beyond `CNT` (R36). -/
def readMeasurer (p : Measurer) (offset : Nat) : Word :=
  match offset with
  | 0x00 => pmstatWord p
  | 0x01 => p.startTime
  | 0x02 => p.endTime
  | 0x03 => p.winStart
  | 0x04 => p.acc
  | 0x05 => p.pubLen
  | 0x06 => p.pubOn
  | 0x07 => p.pw
  | 0x08 => p.snapLen
  | 0x09 => p.snapOn
  | 0x0A => p.meanR
  | 0x0B => p.ppmR
  | 0x0C => p.densR
  | n => if 0x10 ≤ n ∧ n < 0x1A then p.fifo.getD (n - 0x10) 0 else 0

/-- The registers numbered 0x000 to 0x0FF (R37, R40). -/
def readCommon (s : State) (n : Nat) : Word :=
  match n with
  | 0x000 => statusWord s.status
  | 0x001 => ctrlWord s.ctrl
  | 0x002 => s.temp
  | 0x003 => s.ft
  | 0x004 => s.press
  | 0x005 => s.hum
  | 0x006 => s.luxR
  | 0x007 => s.rawT.setWidth 32
  | 0x008 => s.rawP.setWidth 32
  | 0x009 => s.rawH.setWidth 32
  | 0x010 => s.calT.t1.setWidth 32
  | 0x011 => s.calT.t2.signExtend 32
  | 0x012 => s.calT.t3.signExtend 32
  | 0x013 => s.calP.p1.setWidth 32
  | 0x014 => s.calP.p2.signExtend 32
  | 0x015 => s.calP.p3.signExtend 32
  | 0x016 => s.calP.p4.signExtend 32
  | 0x017 => s.calP.p5.signExtend 32
  | 0x018 => s.calP.p6.signExtend 32
  | 0x019 => s.calP.p7.signExtend 32
  | 0x01A => s.calP.p8.signExtend 32
  | 0x01B => s.calP.p9.signExtend 32
  | 0x01C => s.calH.h1.setWidth 32
  | 0x01D => s.calH.h2.signExtend 32
  | 0x01E => s.calH.h3.setWidth 32
  | 0x01F => readH45 s.bench.h45Signed s.calH.h4
  | 0x020 => readH45 s.bench.h45Signed s.calH.h5
  | 0x021 => s.calH.h6.signExtend 32
  | _ => 0

/-- `RegRead(n)` (R37, R38): the value of register `n`, 0 for an unmapped number. -/
def regRead (s : State) (n : BitVec 12) : Word :=
  let k := n.toNat
  if k < 0x100 then readCommon s k
  else if k < 0x300 then
    match s.pms[(k - 0x100) / 0x20]? with
    | some p => readMeasurer p ((k - 0x100) % 0x20)
    | none => 0
  else if k < 0x400 then 0
  else if k < 0x500 then readback s.env (k - 0x400)
  else if k < 0x510 then readback s.luxi (k - 0x500)
  else 0

end Sys2Proof.Machine
end

