-- ==== Sys2Proof/Machine/Agents.lean ====
section
/-! DEFINITION. One step of one agent (spec/00_scope.md R7, spec/30_encoding.md R80, R81): what a turn of the schedule
does. Each turn is atomic, and the behaviour of SMCE is a total order of turns (spec/20_memory.md R72). -/

namespace Sys2Proof.Machine

/-- `Issue(cmd)` (R81): decode, then execute; a word that no row matches raises `Err(ILLEGAL)` and has no other effect
(R86, R100). -/
def issueWord (w : Word) (s : State) : Host.Outcome State Fault Refusal :=
  match decode w with
  | .ok i => exec i s
  | .error _ => .next (raiseErr .illegal s)

/-- The read port returns a value. -/
def returnRead (v : Word) (s : State) : State :=
  { s with bench := { s.bench with readData := v } }

/-- A turn while `RESET` is asserted (R260, I40): no agent's step is taken, every piece of state has its reset value,
and a `RegRead` returns 0. -/
def resetTurn (a : AgentStep) (s : State) : State :=
  match a with
  | .idle => resetAll s
  | .issue _ => resetAll s
  | .regRead _ => returnRead 0 (resetAll s)
  | .poll _ => resetAll s
  | .edge _ => resetAll s

/-- The step of an agent at the present inputs (R7): `RegRead` changes no state of SMCE (R38). -/
def agentStep (a : AgentStep) (s : State) : Host.Outcome State Fault Refusal :=
  match a with
  | .idle => .next s
  | .issue w => issueWord w s
  | .regRead n => .next (returnRead (regRead s n) s)
  | .poll m => .next (pollStep m s)
  | .edge m => .next (edgeStep m s)

/-- The input lines as a turn has them (R50, R51). -/
def latchInputs (t : Turn) (s : State) : State :=
  { s with bench := { s.bench with time := t.time, pins := t.pins } }

/-- One turn: the inputs take the turn's values, then the agent steps, unless `RESET` is asserted. -/
def takeTurn (t : Turn) (s : State) : Host.Outcome State Fault Refusal :=
  if t.resetLine then .next (resetTurn t.agent (latchInputs t s)) else agentStep t.agent (latchInputs t s)

/-- The rest of the schedule, after its first turn was taken from it. -/
def dropTurn (s : State) : State :=
  { s with bench := { s.bench with schedule := s.bench.schedule.tail } }

/-- The next turn of the schedule is taken; when no agent is scheduled to step, nothing happens. -/
def nextTurn (s : State) : Host.Outcome State Fault Refusal :=
  match s.bench.schedule with
  | [] => .next s
  | t :: _ => takeTurn t (dropTurn s)

end Sys2Proof.Machine
end

