-- ==== Sys2Proof/Machine/Step.lean ====
section
/-! DEFINITION. One step of the machine. SMCE fetches nothing (R3, R21): its next step is the next turn of the schedule
that the state holds as plain data, and an instruction is a command word that the host issues in a turn of its own. -/

namespace Sys2Proof.Machine

/-- The machine's step: the next turn of its schedule (notes/assumptions/1.md). -/
def step (s : State) : Host.Outcome State Fault Refusal := nextTurn s

/-- The state in which the very next step is the host's `Issue` of the word `w` (of which `nbits` bits are given). -/
def State.withFetchWord (s : State) (nbits w : Nat) : State := scheduleIssue (BitVec.ofNat 32 (w % 2 ^ nbits)) s

end Sys2Proof.Machine
end

