-- ==== Sys2Proof/WellFormed.lean ====
section
/-! DEFINITION. The static checks on a command's operands. Every operand has exactly the width of its field, so a term
that no word encodes cannot be built. What is left to check are the three operand values that R86 (spec/30_encoding.md)
lists as legal encodings with an error of their own: `m >= NPM` (`PM_SEL`), `s = 3` (`PM_STRAT`) and a `WRB LUXI` address
with bits 6:4 not 0 (`ADDR`). An ill-formed command decodes and executes; it raises that error. -/

namespace Sys2Proof

/-- R77: bits 6:4 of the address of a `WRB LUXI` must be 0; every `ENV` address is accepted (R102). -/
def wrbAddressOk (sp : Space) (a : Byte) : Bool :=
  match sp with
  | .env => true
  | .luxi => a.extractLsb' 4 3 == 0#3

/-- R181: strategy code 3 is reserved. -/
def strategyCodeOk (s : BitVec 2) : Bool :=
  s != 3#2

/-- R85: the measurer number names one of the `npm` measurers. -/
def measurerNumberOk (npm : Nat) (m : BitVec 4) : Bool :=
  decide (m.toNat < npm)

/-- A command whose operands raise none of `ADDR`, `PM_SEL` and (at `PMOPEN`) `PM_STRAT` on a block with `npm`
measurers. -/
def Instr.wellFormed (npm : Nat) : Instr → Bool
  | .nop => true
  | .wrb sp a _ => wrbAddressOk sp a
  | .wrc _ => true
  | .envclose => true
  | .srst => true
  | .calt => true
  | .calp => true
  | .calh => true
  | .dect => true
  | .decp => true
  | .dech => true
  | .compt => true
  | .compp => true
  | .comph => true
  | .lux => true
  | .pmopen m s => measurerNumberOk npm m && strategyCodeOk s
  | .pmstart m => measurerNumberOk npm m
  | .pmstop m => measurerNumberOk npm m
  | .pmclose m => measurerNumberOk npm m
  | .pmrd m => measurerNumberOk npm m
  | .pmavg m => measurerNumberOk npm m
  | .ppm m => measurerNumberOk npm m
  | .dens m => measurerNumberOk npm m

end Sys2Proof
end

