-- ==== Sys2Proof/Safety.lean ====
section
/-! DEFINITION. The terms in which claims about SMCE are made: the numbers that encodings stand for, what a correctly
rounded result is, the invariants of the state, and runs under a stream of turns with the fairness of R206. -/

namespace Sys2Proof.Machine

/-- `s16(w)` of R10. -/
def s16 (n : Nat) : Int := if n < 32768 then (n : Int) else (n : Int) - 65536

/-- `s8(b)` of R10. -/
def s8 (n : Nat) : Int := if n < 128 then (n : Int) else (n : Int) - 256

/-- The 16-bit word whose low byte is `b k` and whose high byte is `b (k + 1)` (R67 (b)). -/
def leWord (b : Nat → Byte) (k : Nat) : Nat := (b k).toNat + 256 * (b (k + 1)).toNat

/-- The rational number that an exact value is; none for an infinity or a NaN. -/
def exactValue : Exact → Option ℚ
  | .nan => none
  | .inf _ => none
  | .num neg n d e => some ((if neg then -1 else 1) * ((n : ℚ) / (d : ℚ)) * (2 : ℚ) ^ e)

/-- The number that a binary32 encoding stands for (R11); none for an infinity or a NaN. -/
def value32 (x : F32) : Option ℚ := exactValue (unpack32 x)

/-- The number that a binary64 encoding stands for (R11); none for an infinity or a NaN. -/
def value64 (x : F64) : Option ℚ := exactValue (unpack64 x)

/-- `x` is the binary32 number nearest to `q`, and of two equally near ones the one whose last fraction bit is 0
(R131: round to nearest, ties to even). -/
def nearestEven32 (q : ℚ) (x : F32) : Prop :=
  ∃ v, value32 x = some v ∧
    ∀ y w, value32 y = some w → |v - q| ≤ |w - q| ∧ (|v - q| = |w - q| → w = v ∨ x.toNat % 2 = 0)

/-- `x` is the binary64 number nearest to `q`, ties to even (R131). -/
def nearestEven64 (q : ℚ) (x : F64) : Prop :=
  ∃ v, value64 x = some v ∧
    ∀ y w, value64 y = some w → |v - q| ≤ |w - q| ∧ (|v - q| = |w - q| → w = v ∨ x.toNat % 2 = 0)

/-- `x` is `q` rounded once to binary32 (R131): the nearest number, or an infinity of the right sign from the point on
where the nearest number of unbounded exponent range would be `2 ^ 128`. -/
def correctlyRounded32 (q : ℚ) (x : F32) : Prop :=
  (|q| < 2 ^ 128 - 2 ^ 103 → nearestEven32 q x) ∧
  (2 ^ 128 - 2 ^ 103 ≤ |q| → unpack32 x = .inf (decide (q < 0)))

/-- `x` is `q` rounded once to binary64 (R131). -/
def correctlyRounded64 (q : ℚ) (x : F64) : Prop :=
  (|q| < 2 ^ 1024 - 2 ^ 970 → nearestEven64 q x) ∧
  (2 ^ 1024 - 2 ^ 970 ≤ |q| → unpack64 x = .inf (decide (q < 0)))

/-- How a binary interchange format reads its encodings (R11): the sign bit on top, `ex` exponent bits, `frac` fraction
bits at the bottom. An exponent field of all ones is an infinity or a NaN, one of 0 a zero or a subnormal, any other
`±1.fraction * 2 ^ (field - bias)`. -/
def readsEncodings (frac ex : Nat) (bias : Int) {w : Nat} (unp : BitVec w → Exact) : Prop :=
  ∀ x : BitVec w,
    let e := (x.extractLsb' frac ex).toNat
    let f := (x.extractLsb' 0 frac).toNat
    let sign : ℚ := if x.msb = true then -1 else 1
    (e = 2 ^ ex - 1 → f = 0 → unp x = .inf x.msb) ∧
    (e = 2 ^ ex - 1 → f ≠ 0 → unp x = .nan) ∧
    (e = 0 → exactValue (unp x) = some (sign * ((f : ℚ) / 2 ^ frac) * (2 : ℚ) ^ (1 - bias))) ∧
    (0 < e → e < 2 ^ ex - 1 →
      exactValue (unp x) = some (sign * (1 + (f : ℚ) / 2 ^ frac) * (2 : ℚ) ^ ((e : Int) - bias)))

/-- What the four operations of a width answer where the exact result is no nonzero number (R131, R134: IEEE 754): NaN
for a NaN operand, for infinity minus infinity, zero times infinity, infinity over infinity and zero over zero; the
infinity of the right sign for other sums, products and quotients with an infinity and for a nonzero number over zero;
a zero for a number over an infinity. The sign of a product or quotient is the exclusive or of the operands' signs, of a
zero too; a sum that is exactly 0 is -0 only if both summands are negative zeros. -/
def specialResults {w : Nat} (unp : BitVec w → Exact) (add sub mul div : BitVec w → BitVec w → BitVec w) : Prop :=
  (∀ a b : BitVec w, unp a = .nan ∨ unp b = .nan →
    unp (add a b) = .nan ∧ unp (sub a b) = .nan ∧ unp (mul a b) = .nan ∧ unp (div a b) = .nan) ∧
  (∀ (a b : BitVec w) (s t : Bool), unp a = .inf s → unp b = .inf t →
    unp (add a b) = (if s = t then .inf s else .nan) ∧ unp (sub a b) = (if s = t then .nan else .inf s) ∧
    unp (mul a b) = .inf (s != t) ∧ unp (div a b) = .nan) ∧
  (∀ (a b : BitVec w) (s : Bool) (q : ℚ), unp a = .inf s → exactValue (unp b) = some q →
    unp (add a b) = .inf s ∧ unp (add b a) = .inf s ∧ unp (sub a b) = .inf s ∧ unp (sub b a) = .inf (!s) ∧
    (q = 0 → unp (mul a b) = .nan ∧ unp (mul b a) = .nan) ∧
    (q ≠ 0 → unp (mul a b) = .inf (s != b.msb) ∧ unp (mul b a) = .inf (s != b.msb)) ∧
    unp (div a b) = .inf (s != b.msb) ∧
    exactValue (unp (div b a)) = some 0 ∧ (div b a).msb = (s != b.msb)) ∧
  (∀ (a b : BitVec w) (p q : ℚ), exactValue (unp a) = some p → exactValue (unp b) = some q →
    (p = 0 → q = 0 → unp (div a b) = .nan) ∧
    (p ≠ 0 → q = 0 → unp (div a b) = .inf (a.msb != b.msb)) ∧
    (q ≠ 0 → (div a b).msb = (a.msb != b.msb)) ∧
    (mul a b).msb = (a.msb != b.msb) ∧
    (p + q = 0 → (add a b).msb = (a.msb && b.msb)) ∧
    (p - q = 0 → (sub a b).msb = (a.msb && !b.msb)))

/-- `le` is the order of the values, infinities at its ends, and false if either side is NaN (R134). -/
def comparesLe {w : Nat} (unp : BitVec w → Exact) (le : BitVec w → BitVec w → Bool) : Prop :=
  ∀ a b : BitVec w,
    (unp a = .nan ∨ unp b = .nan → le a b = false) ∧
    (∀ p q, exactValue (unp a) = some p → exactValue (unp b) = some q → (le a b = true ↔ p ≤ q)) ∧
    (∀ s, unp a = .inf s → unp b ≠ .nan → (le a b = true ↔ s = true ∨ unp b = .inf false)) ∧
    (∀ t, unp a ≠ .nan → unp b = .inf t → (le a b = true ↔ t = false ∨ unp a = .inf true))

/-- `lt` is the strict order of the values, infinities at its ends, and false if either side is NaN (R134). -/
def comparesLt {w : Nat} (unp : BitVec w → Exact) (lt : BitVec w → BitVec w → Bool) : Prop :=
  ∀ a b : BitVec w,
    (unp a = .nan ∨ unp b = .nan → lt a b = false) ∧
    (∀ p q, exactValue (unp a) = some p → exactValue (unp b) = some q → (lt a b = true ↔ p < q)) ∧
    (∀ s, unp a = .inf s → unp b ≠ .nan → (lt a b = true ↔ s = true ∧ unp b ≠ .inf true)) ∧
    (∀ t, unp a ≠ .nan → unp b = .inf t → (lt a b = true ↔ t = false ∧ unp a ≠ .inf false))

/-- The only NaN encoding an `f32` register ever holds is 0x7FC00000 (R134). -/
def nanCanonical (x : F32) : Prop := unpack32 x = .nan → x = 0x7FC00000#32

/-- Both images are in the canonical form that the model holds the cells of R32 and R33 in
(notes/assumptions/15.md). -/
def imagesOk (s : State) : Prop := s.env.wf envSize ∧ s.luxi.wf luxiSize

/-- What holds of a measurer in every run: the FIFO's capacity (R36), a stop request only while a poll task runs (R185),
a published length exactly while `PUBV` (R190), at least 30000 (R202), entries only in strategy 2 and exactly while
`PWV` there (R201), no pulse width in strategy 0 (R201), and a closed measurer torn down (R186). -/
def measurerOk (p : Measurer) : Prop :=
  p.fifo.length ≤ 10 ∧
  (p.stopReq = true → p.run = true ∧ p.strat ≠ .eirq) ∧
  (p.pubV = true → p.strat = .cycle ∧ 30000 ≤ p.pubLen.toNat) ∧
  (p.pubV = false → p.pubLen = 0 ∧ p.pubOn = 0) ∧
  (p.fifo ≠ [] → p.strat = .eirq) ∧
  (p.strat = .eirq → (p.pwV = true ↔ p.fifo ≠ [])) ∧
  (p.strat = .cycle → p.pwV = false ∧ p.pw = 0) ∧
  (p.opened = false → closedMeasurer p = p)

/-- Every measurer is in order, and there are 1 to 16 of them (R6). -/
def measurersOk (s : State) : Prop :=
  1 ≤ s.pms.length ∧ s.pms.length ≤ 16 ∧ ∀ p ∈ s.pms, measurerOk p

/-- The valid flags tell the truth (R29, and R104, R105, R112 to R120 and R140, from which it follows): the fine
temperature rests on a decoded table and sample, and a register whose flag is 0 holds its reset value. -/
def flagsOk (s : State) : Prop :=
  (s.status.ftv = true → s.status.tv = true ∧ s.status.rtv = true) ∧
  (s.status.tv = false → s.calT = CalT.reset) ∧
  (s.status.pv = false → s.calP = CalP.reset) ∧
  (s.status.hv = false → s.calH = CalH.reset) ∧
  (s.status.rtv = false → s.rawT = 0) ∧
  (s.status.rpv = false → s.rawP = 0) ∧
  (s.status.rhv = false → s.rawH = 0)

/-- No result register holds a NaN other than the canonical one (R134). -/
def nansOk (s : State) : Prop :=
  nanCanonical s.temp ∧ nanCanonical s.ft ∧ nanCanonical s.press ∧ nanCanonical s.hum ∧ nanCanonical s.luxR ∧
  ∀ p ∈ s.pms, nanCanonical p.meanR ∧ nanCanonical p.ppmR ∧ nanCanonical p.densR

/-- The state whose next turn is `t`. -/
def offerTurn (t : Turn) (s : State) : State := { s with bench := { s.bench with schedule := [t] } }

/-- The state after the machine's step at the turn `t`. -/
def afterTurn (t : Turn) (s : State) : State :=
  match step (offerTurn t s) with
  | .next s' => s'
  | .fault _ => s
  | .refused _ => s

/-- The state after `k` turns of an endless stream (R8, R72: any interleaving). -/
def trace (turns : Nat → Turn) (s : State) : Nat → State
  | 0 => s
  | k + 1 => afterTurn (turns k) (trace turns s k)

/-- A turn of the poll task of `m`, taken: `RESET` is not asserted. -/
def isPollTurn (m : BitVec 4) (t : Turn) : Prop := t.agent = .poll m ∧ t.resetLine = false

/-- `Poll(m)` is enabled (R206). -/
def pollEnabledIn (m : BitVec 4) (s : State) : Prop := ∃ p, s.pm? m = some p ∧ pollEnabled p = true

/-- Weak fairness of the poll task of `m` (R8, R206): while `Poll(m)` stays enabled it is eventually taken. -/
def weaklyFair (m : BitVec 4) (turns : Nat → Turn) (s : State) : Prop :=
  ∀ k, (∀ j, k ≤ j → pollEnabledIn m (trace turns s j)) → ∃ j, k ≤ j ∧ isPollTurn m (turns j)

/-- A turn in which no command is issued and `RESET` is not asserted: a read, a background step, or nothing. -/
def isQuietTurn (t : Turn) : Prop := t.resetLine = false ∧ ∀ w, t.agent ≠ .issue w

end Sys2Proof.Machine
end

