-- ==== Sys2Proof/Certificates/Slice0/Obligations.lean ====
section
/-! DEFINITION. What is claimed about SMCE, one statement a definition (OBLIGATIONS.json lists them). A state `s` is any
state: any parameters, any inputs, any schedule. `s.pms` has `NPM` entries, so `s.pms.length ≤ m.toNat` says `m >= NPM`.
A result is written as the whole next state, which is its frame: what is not named in it is unchanged. -/

open Sys2Proof Sys2Proof.Machine

/-! ### Encoding and the step -/

/-- Decoding the word of a command gives the command back, whatever its operands (R82 to R85, R90). -/
def Obligations.DecodeEncodeRoundTrip : Prop :=
  ∀ i : Instr, decode (encode i) = .ok i

/-- A word that decodes is the word of the command it decodes to: every bit of it is accounted for (R82, R83, R85). -/
def Obligations.EncodeOfDecodedWord : Prop :=
  ∀ (w : Word) (i : Instr), decode w = .ok i → encode i = w

/-- A word spells a command exactly when `(w & mask) = match` of its row (R84, R90). -/
def Obligations.DecodeMatchesMaskTable : Prop :=
  (∀ (w : Word) (i : Instr), decode w = .ok i → w &&& rowMask i = rowMatch i) ∧
  (∀ (w : Word) (j : Instr), w &&& rowMask j = rowMatch j → ∃ i, decode w = .ok i ∧ i.mnemonic = j.mnemonic)

/-- Words written out from the formats and opcodes of R83, R84 and the examples of R88 decode as they say; the last five
are illegal in the three ways of R86. -/
def Obligations.SampleWordsDecode : Prop :=
  decode 0x01008870#32 = .ok (.wrb .env 0x88#8 0x70#8) ∧
  decode 0x01100C34#32 = .ok (.wrb .luxi 0x0C#8 0x34#8) ∧
  decode 0x02000003#32 = .ok (.wrc 3#3) ∧
  decode 0x10000000#32 = .ok .calt ∧
  decode 0x1A000000#32 = .ok .comph ∧
  decode 0x20000000#32 = .ok .lux ∧
  decode 0x30100002#32 = .ok (.pmopen 1#4 2#2) ∧
  decode 0x37F00000#32 = .ok (.dens 15#4) ∧
  decode 0x04000000#32 = .error .unassignedOp ∧
  decode 0x00010000#32 = .error .zNotZero ∧
  decode 0x10000001#32 = .error .unusedBits ∧
  decode 0x01200000#32 = .error .unusedBits ∧
  decode 0x30000004#32 = .error .unusedBits

/-- A word that matches no row raises `Err(ILLEGAL)` and has no other effect (R86). -/
def Obligations.IllegalWordRaisesIllegal : Prop :=
  ∀ (s : State) (w : Word) (time : Word) (pins : BitVec 16) (rest : List Turn),
    (∀ j : Instr, w &&& rowMask j ≠ rowMatch j) →
    s.bench.schedule = { agent := .issue w, time := time, pins := pins, resetLine := false } :: rest →
    step s = .next
      { s with
        status := { s.status with err := .illegal, sent := false, fault := true }
        bench := { s.bench with schedule := rest, time := time, pins := pins } }

/-- A step runs the decoded command: when the next turn is the host's `Issue` of a word that decodes to `i`, the step is
`exec` of `i` at the state whose schedule has lost that turn and whose input lines are the turn's (R81, R90; that the
order of steps is a schedule in the state is the model's choice, notes/assumptions/1.md). The second clause is the model's
choice and no rule of the spec (notes/assumptions/3.md): the state that `withFetchWord` makes from a state, which stands
for the host issuing the word, runs the word's command at that very state. -/
def Obligations.StepRunsDecodedCommand : Prop :=
  (∀ (s : State) (w : Word) (i : Instr) (time : Word) (pins : BitVec 16) (rest : List Turn),
    s.bench.schedule = { agent := .issue w, time := time, pins := pins, resetLine := false } :: rest →
    decode w = .ok i →
    step s = exec i { s with bench := { s.bench with schedule := rest, time := time, pins := pins } }) ∧
  (∀ (s : State) (i : Instr), step (s.withFetchWord 32 (encode i).toNat) = exec i s)

/-- No step stops the block: every command remains available after any error (R237), no step waits (R74). -/
def Obligations.EveryStepAnswersNext : Prop :=
  ∀ s : State, ∃ t, step s = .next t

/-- While `RESET` is asserted no agent's step is taken and every piece of state has its reset value; a `RegRead` returns
0 (R260, I40). The parameters and the bench are the model's own (notes/assumptions/8.md). -/
def Obligations.ResetLineRestoresReset : Prop :=
  ∀ (s : State) (a : AgentStep) (time : Word) (pins : BitVec 16) (rest : List Turn),
    s.bench.schedule = { agent := a, time := time, pins := pins, resetLine := true } :: rest →
    ∃ v, step s = .next
        { State.reset with
          pms := List.replicate s.pms.length Measurer.reset
          bench := { s.bench with schedule := rest, time := time, pins := pins, readData := v } } ∧
      ((∃ n, a = .regRead n) → v = 0) ∧ ((∀ n, a ≠ .regRead n) → v = s.bench.readData)

/-! ### The read port -/

/-- `RegRead(n)` returns the register's value and changes no state (R38). -/
def Obligations.RegReadChangesNothing : Prop :=
  ∀ (s : State) (n : BitVec 12) (time : Word) (pins : BitVec 16) (rest : List Turn),
    s.bench.schedule = { agent := .regRead n, time := time, pins := pins, resetLine := false } :: rest →
    step s = .next
      { s with bench := { s.bench with schedule := rest, time := time, pins := pins, readData := regRead s n } }

/-- Where the fields of `STATUS`, `CTRL` and `PMSTAT` stand in the words the host reads; reserved bits read 0 (R22, R23,
R35). `ERR` reads as the number R230 gives the error, `STRAT` as the code of R181 and R35, `ST` as 0 for `WaitingForRise`
and 1 for `WaitingForFall` (R35). -/
def Obligations.FlagWordLayouts : Prop :=
  (∀ s : State,
    (regRead s 0x000#12).extractLsb' 0 4 =
      (match s.status.err with
        | .ok => 0#4
        | .illegal => 1#4
        | .invalidState => 2#4
        | .unwritten => 3#4
        | .nocal => 4#4
        | .noraw => 5#4
        | .noft => 6#4
        | .calLocked => 7#4
        | .staleTiming => 8#4
        | .badTiming => 9#4
        | .pmSel => 10#4
        | .pmState => 11#4
        | .pmStrat => 12#4
        | .addr => 13#4) ∧
    (regRead s 0x000#12).getLsbD 4 = s.status.sent ∧
    (∀ i, 5 ≤ i → i ≤ 7 → (regRead s 0x000#12).getLsbD i = false) ∧
    (regRead s 0x000#12).getLsbD 8 = s.status.tv ∧
    (regRead s 0x000#12).getLsbD 9 = s.status.pv ∧
    (regRead s 0x000#12).getLsbD 10 = s.status.hv ∧
    (regRead s 0x000#12).getLsbD 11 = s.status.rtv ∧
    (regRead s 0x000#12).getLsbD 12 = s.status.rpv ∧
    (regRead s 0x000#12).getLsbD 13 = s.status.rhv ∧
    (regRead s 0x000#12).getLsbD 14 = s.status.ftv ∧
    (regRead s 0x000#12).getLsbD 15 = s.status.timf ∧
    (∀ i, 16 ≤ i → i ≤ 30 → (regRead s 0x000#12).getLsbD i = false) ∧
    (regRead s 0x000#12).getLsbD 31 = s.status.fault ∧
    (regRead s 0x001#12).getLsbD 0 = s.ctrl.ten ∧
    (regRead s 0x001#12).getLsbD 1 = s.ctrl.pen ∧
    (regRead s 0x001#12).getLsbD 2 = s.ctrl.hen ∧
    (∀ i, 3 ≤ i → (regRead s 0x001#12).getLsbD i = false)) ∧
  (∀ (s : State) (m : BitVec 4) (p : Measurer), s.pms[m.toNat]? = some p → p.fifo.length ≤ 10 →
    (regRead s (0x100#12 + 0x20#12 * m.setWidth 12)).getLsbD 0 = p.opened ∧
    (regRead s (0x100#12 + 0x20#12 * m.setWidth 12)).getLsbD 1 = p.run ∧
    (regRead s (0x100#12 + 0x20#12 * m.setWidth 12)).getLsbD 2 = p.stopReq ∧
    (regRead s (0x100#12 + 0x20#12 * m.setWidth 12)).getLsbD 3 = p.pinErr ∧
    (regRead s (0x100#12 + 0x20#12 * m.setWidth 12)).extractLsb' 4 2 =
      (match p.strat with
        | .cycle => 0#2
        | .epoll => 1#2
        | .eirq => 2#2) ∧
    (regRead s (0x100#12 + 0x20#12 * m.setWidth 12)).extractLsb' 6 1 =
      (match p.st with
        | .waitingForRise => 0#1
        | .waitingForFall => 1#1) ∧
    (regRead s (0x100#12 + 0x20#12 * m.setWidth 12)).getLsbD 7 = p.pubV ∧
    (regRead s (0x100#12 + 0x20#12 * m.setWidth 12)).getLsbD 8 = p.pwV ∧
    ((regRead s (0x100#12 + 0x20#12 * m.setWidth 12)).extractLsb' 9 4).toNat = p.fifo.length ∧
    (∀ i, 13 ≤ i → (regRead s (0x100#12 + 0x20#12 * m.setWidth 12)).getLsbD i = false))

/-- Signed registers read sign-extended, the other integer registers zero-extended, `f32` registers as their encodings
(R40); `H4` and `H5` by the parameter `H45_SIGNED`. -/
def Obligations.ReadSignConvention : Prop :=
  ∀ s : State,
    (regRead s 0x010#12).toNat = s.calT.t1.toNat ∧
    (regRead s 0x011#12).toInt = s.calT.t2.toInt ∧
    (regRead s 0x012#12).toInt = s.calT.t3.toInt ∧
    (regRead s 0x013#12).toNat = s.calP.p1.toNat ∧
    (regRead s 0x014#12).toInt = s.calP.p2.toInt ∧
    (regRead s 0x015#12).toInt = s.calP.p3.toInt ∧
    (regRead s 0x016#12).toInt = s.calP.p4.toInt ∧
    (regRead s 0x017#12).toInt = s.calP.p5.toInt ∧
    (regRead s 0x018#12).toInt = s.calP.p6.toInt ∧
    (regRead s 0x019#12).toInt = s.calP.p7.toInt ∧
    (regRead s 0x01A#12).toInt = s.calP.p8.toInt ∧
    (regRead s 0x01B#12).toInt = s.calP.p9.toInt ∧
    (regRead s 0x01C#12).toNat = s.calH.h1.toNat ∧
    (regRead s 0x01D#12).toInt = s.calH.h2.toInt ∧
    (regRead s 0x01E#12).toNat = s.calH.h3.toNat ∧
    (s.bench.h45Signed = false → (regRead s 0x01F#12).toNat = s.calH.h4.toNat ∧
      (regRead s 0x020#12).toNat = s.calH.h5.toNat) ∧
    (s.bench.h45Signed = true → (regRead s 0x01F#12).toInt = s.calH.h4.toInt ∧
      (regRead s 0x020#12).toInt = s.calH.h5.toInt) ∧
    (regRead s 0x021#12).toInt = s.calH.h6.toInt ∧
    (regRead s 0x007#12).toNat = s.rawT.toNat ∧
    (regRead s 0x008#12).toNat = s.rawP.toNat ∧
    (regRead s 0x009#12).toNat = s.rawH.toNat ∧
    regRead s 0x002#12 = s.temp ∧
    regRead s 0x003#12 = s.ft ∧
    regRead s 0x004#12 = s.press ∧
    regRead s 0x005#12 = s.hum ∧
    regRead s 0x006#12 = s.luxR

/-- Image readback: `0x100 | v` for a written cell, 0 for an unwritten one (R39). -/
def Obligations.ImageReadback : Prop :=
  (∀ (s : State) (a v : Byte), s.env.read a.toNat = some v →
    (regRead s (0x400#12 + a.setWidth 12)).toNat = 0x100 + v.toNat) ∧
  (∀ (s : State) (a : Byte), s.env.read a.toNat = none → regRead s (0x400#12 + a.setWidth 12) = 0) ∧
  (∀ (s : State) (a : BitVec 4) (v : Byte), s.luxi.read a.toNat = some v →
    (regRead s (0x500#12 + a.setWidth 12)).toNat = 0x100 + v.toNat) ∧
  (∀ (s : State) (a : BitVec 4), s.luxi.read a.toNat = none → regRead s (0x500#12 + a.setWidth 12) = 0)

/-- The registers of a measurer stand at their offsets, `FIFO[i]` reads 0 beyond `CNT`, and every unmapped number reads
0 (R34, R36, R37, R38). -/
def Obligations.MeasurerAndUnmappedReads : Prop :=
  (∀ (s : State) (m : BitVec 4) (p : Measurer), s.pms[m.toNat]? = some p →
    regRead s (0x101#12 + 0x20#12 * m.setWidth 12) = p.startTime ∧
    regRead s (0x102#12 + 0x20#12 * m.setWidth 12) = p.endTime ∧
    regRead s (0x103#12 + 0x20#12 * m.setWidth 12) = p.winStart ∧
    regRead s (0x104#12 + 0x20#12 * m.setWidth 12) = p.acc ∧
    regRead s (0x105#12 + 0x20#12 * m.setWidth 12) = p.pubLen ∧
    regRead s (0x106#12 + 0x20#12 * m.setWidth 12) = p.pubOn ∧
    regRead s (0x107#12 + 0x20#12 * m.setWidth 12) = p.pw ∧
    regRead s (0x108#12 + 0x20#12 * m.setWidth 12) = p.snapLen ∧
    regRead s (0x109#12 + 0x20#12 * m.setWidth 12) = p.snapOn ∧
    regRead s (0x10A#12 + 0x20#12 * m.setWidth 12) = p.meanR ∧
    regRead s (0x10B#12 + 0x20#12 * m.setWidth 12) = p.ppmR ∧
    regRead s (0x10C#12 + 0x20#12 * m.setWidth 12) = p.densR ∧
    (∀ i, i < 10 → regRead s (0x110#12 + BitVec.ofNat 12 i + 0x20#12 * m.setWidth 12) = p.fifo.getD i 0) ∧
    (∀ i, 0x0D ≤ i → i ≤ 0x0F → regRead s (0x100#12 + BitVec.ofNat 12 i + 0x20#12 * m.setWidth 12) = 0) ∧
    (∀ i, 0x1A ≤ i → i ≤ 0x1F → regRead s (0x100#12 + BitVec.ofNat 12 i + 0x20#12 * m.setWidth 12) = 0)) ∧
  (∀ (s : State) (n : BitVec 12),
    ((0x00A ≤ n.toNat ∧ n.toNat ≤ 0x00F) ∨ (0x022 ≤ n.toNat ∧ n.toNat ≤ 0x0FF) ∨
      (0x100 + 0x20 * s.pms.length ≤ n.toNat ∧ n.toNat ≤ 0x2FF) ∨ (0x300 ≤ n.toNat ∧ n.toNat ≤ 0x3FF) ∨
      0x510 ≤ n.toNat) →
    regRead s n = 0)

/-- After reset every register number reads 0: no state is left unspecified (R54). -/
def Obligations.ResetReadsZero : Prop :=
  ∀ n : BitVec 12, regRead State.reset n = 0

/-! ### Errors -/

/-- A command either fails, and changes `ERR`, `SENT` and `FAULT` alone, or completes with `ERR = 0` and `FAULT` as it
was (`SRST` clears it) (R81, R232). -/
def Obligations.FailedCommandChangesOnlyStatus : Prop :=
  ∀ (i : Instr) (s t : State), exec i s = .next t →
    (t.status.err ≠ .ok ∧
      t = { s with status := { s.status with err := t.status.err, sent := false, fault := true } }) ∨
    (t.status.err = .ok ∧ (i ≠ .srst → t.status.fault = s.status.fault))

/-- Only `SRST` or reset clears `FAULT` (R22, R105, R237). -/
def Obligations.FaultIsSticky : Prop :=
  ∀ s t : State, s.status.fault = true → step s = .next t →
    t.status.fault = true ∨
    ∃ turn rest, s.bench.schedule = turn :: rest ∧ (turn.resetLine = true ∨ turn.agent = .issue 0x0F000000#32)

/-! ### Control commands -/

/-- `NOP` (R101). -/
def Obligations.NopResult : Prop :=
  encode .nop = 0x00000000#32 ∧
  ∀ s : State, exec .nop s = .next { s with status := { s.status with err := .ok, sent := false } }

/-- `WRB` (R102, R77): the cell addressed holds the byte and no other cell changes; `LUXI` cell 1 sets `TIMF`; a `LUXI`
address with bits 6:4 not 0 raises `Err(ADDR)`. -/
def Obligations.WrbResult : Prop :=
  (∀ (s : State) (a d : Byte), ∃ image : Memory,
    exec (.wrb .env a d) s =
      .next { s with env := image, status := { s.status with err := .ok, sent := false } } ∧
    image.read a.toNat = some d ∧ ∀ b, b ≠ a.toNat → image.read b = s.env.read b) ∧
  (∀ (s : State) (a d : Byte), a.toNat / 16 % 8 = 0 → ∃ image : Memory,
    exec (.wrb .luxi a d) s =
      .next
        { s with
          luxi := image
          status := { s.status with
            err := .ok, sent := false, timf := if a.toNat % 16 = 1 then true else s.status.timf } } ∧
    image.read (a.toNat % 16) = some d ∧ ∀ b, b ≠ a.toNat % 16 → image.read b = s.luxi.read b) ∧
  (∀ (s : State) (a d : Byte), a.toNat / 16 % 8 ≠ 0 →
    exec (.wrb .luxi a d) s = .next (raiseErr .addr s))

/-- `WRC` (R103). -/
def Obligations.WrcResult : Prop :=
  ∀ (s : State) (imm3 : BitVec 3),
    encode (.wrc imm3) = 0x02000000#32 ||| imm3.setWidth 32 ∧
    exec (.wrc imm3) s =
      .next
        { s with
          ctrl := { ten := imm3.getLsbD 0, pen := imm3.getLsbD 1, hen := imm3.getLsbD 2 }
          status := { s.status with err := .ok, sent := false } }

/-- `ENVCLOSE` (R104): the environmental unit is torn down; `LUXI`, `TIMF`, `LUX`, the measurers and `FAULT` stay. -/
def Obligations.EnvcloseResult : Prop :=
  encode .envclose = 0x03000000#32 ∧
  ∀ s : State, ∃ t, exec .envclose s = .next t ∧
    t.status = { Status.reset with timf := s.status.timf, fault := s.status.fault } ∧
    t.ctrl = { ten := false, pen := false, hen := false } ∧
    t.temp = 0 ∧ t.ft = 0 ∧ t.press = 0 ∧ t.hum = 0 ∧ t.rawT = 0 ∧ t.rawP = 0 ∧ t.rawH = 0 ∧
    t.calT = CalT.reset ∧ t.calP = CalP.reset ∧ t.calH = CalH.reset ∧
    (∀ a, t.env.read a = none) ∧
    t.luxi = s.luxi ∧ t.luxR = s.luxR ∧ t.pms = s.pms ∧ t.bench = s.bench

/-- `SRST` (R105): every piece of state takes its reset value, `FAULT` too, and no measurer runs. The parameters and the
bench are the model's own. -/
def Obligations.SrstResult : Prop :=
  encode .srst = 0x0F000000#32 ∧
  ∀ s : State, exec .srst s =
    .next { State.reset with pms := List.replicate s.pms.length Measurer.reset, bench := s.bench }

/-! ### Calibration and raw decode -/

/-- `CALT` (R112): `CAL_LOCKED`, then `UNWRITTEN`, then the three words of `ENV[0x88..0x8D]`. -/
def Obligations.CaltResult : Prop :=
  encode .calt = 0x10000000#32 ∧
  (∀ s : State, s.status.tv = true → exec .calt s = .next (raiseErr .calLocked s)) ∧
  (∀ s : State, s.status.tv = false → (∃ k, k < 6 ∧ s.env.read (0x88 + k) = none) →
    exec .calt s = .next (raiseErr .unwritten s)) ∧
  (∀ (s : State) (b : Nat → Byte), s.status.tv = false → (∀ k, k < 6 → s.env.read (0x88 + k) = some (b k)) →
    ∃ c : CalT,
      exec .calt s =
        .next { s with calT := c, status := { s.status with err := .ok, sent := false, tv := true } } ∧
      c.t1.toNat = leWord b 0 ∧ c.t2.toInt = s16 (leWord b 2) ∧ c.t3.toInt = s16 (leWord b 4))

/-- `CALP` (R114): `CAL_LOCKED`, then `UNWRITTEN`, then the nine words of `ENV[0x8E..0x9F]`. -/
def Obligations.CalpResult : Prop :=
  encode .calp = 0x11000000#32 ∧
  (∀ s : State, s.status.pv = true → exec .calp s = .next (raiseErr .calLocked s)) ∧
  (∀ s : State, s.status.pv = false → (∃ k, k < 18 ∧ s.env.read (0x8E + k) = none) →
    exec .calp s = .next (raiseErr .unwritten s)) ∧
  (∀ (s : State) (b : Nat → Byte), s.status.pv = false → (∀ k, k < 18 → s.env.read (0x8E + k) = some (b k)) →
    ∃ c : CalP,
      exec .calp s =
        .next { s with calP := c, status := { s.status with err := .ok, sent := false, pv := true } } ∧
      c.p1.toNat = leWord b 0 ∧ c.p2.toInt = s16 (leWord b 2) ∧ c.p3.toInt = s16 (leWord b 4) ∧
      c.p4.toInt = s16 (leWord b 6) ∧ c.p5.toInt = s16 (leWord b 8) ∧ c.p6.toInt = s16 (leWord b 10) ∧
      c.p7.toInt = s16 (leWord b 12) ∧ c.p8.toInt = s16 (leWord b 14) ∧ c.p9.toInt = s16 (leWord b 16))

/-- `CALH` (R116): `CAL_LOCKED`, then `UNWRITTEN`, then `ENV[0xA1]` and `ENV[0xE1..0xE7]` with the packed `H4` and `H5`,
which stand for unsigned numbers, or with `H45_SIGNED` for signed ones. -/
def Obligations.CalhResult : Prop :=
  encode .calh = 0x12000000#32 ∧
  (∀ s : State, s.status.hv = true → exec .calh s = .next (raiseErr .calLocked s)) ∧
  (∀ s : State, s.status.hv = false →
    (s.env.read 0xA1 = none ∨ ∃ k, k < 7 ∧ s.env.read (0xE1 + k) = none) →
    exec .calh s = .next (raiseErr .unwritten s)) ∧
  (∀ (s : State) (a : Byte) (b : Nat → Byte), s.status.hv = false → s.env.read 0xA1 = some a →
    (∀ k, k < 7 → s.env.read (0xE1 + k) = some (b k)) →
    ∃ c : CalH,
      exec .calh s =
        .next { s with calH := c, status := { s.status with err := .ok, sent := false, hv := true } } ∧
      c.h1 = a ∧ c.h2.toInt = s16 (leWord b 0) ∧ c.h3 = b 2 ∧
      c.h4.toNat = 16 * (b 3).toNat + (b 4).toNat % 16 ∧
      c.h5.toNat = 16 * (b 5).toNat + (b 4).toNat / 16 ∧
      c.h6.toInt = s8 (b 6).toNat) ∧
  (∀ h : BitVec 12, h45Value false h = h.toNat ∧
    h45Value true h = if h.toNat < 2048 then (h.toNat : Int) else (h.toNat : Int) - 4096)

/-- `DECT` (R118): the 20-bit temperature sample, msb first; `FTV` is cleared. -/
def Obligations.DectResult : Prop :=
  encode .dect = 0x14000000#32 ∧
  (∀ s : State, (∃ k, k < 3 ∧ s.env.read (0xFA + k) = none) → exec .dect s = .next (raiseErr .unwritten s)) ∧
  (∀ (s : State) (msb lsb xlsb : Byte), s.env.read 0xFA = some msb → s.env.read 0xFB = some lsb →
    s.env.read 0xFC = some xlsb →
    ∃ r : BitVec 20,
      exec .dect s =
        .next { s with rawT := r, status := { s.status with err := .ok, sent := false, rtv := true, ftv := false } } ∧
      r.toNat = msb.toNat * 4096 + lsb.toNat * 16 + xlsb.toNat / 16)

/-- `DECP` (R119): the 20-bit pressure sample; `FTV` is not changed. -/
def Obligations.DecpResult : Prop :=
  encode .decp = 0x15000000#32 ∧
  (∀ s : State, (∃ k, k < 3 ∧ s.env.read (0xF7 + k) = none) → exec .decp s = .next (raiseErr .unwritten s)) ∧
  (∀ (s : State) (msb lsb xlsb : Byte), s.env.read 0xF7 = some msb → s.env.read 0xF8 = some lsb →
    s.env.read 0xF9 = some xlsb →
    ∃ r : BitVec 20,
      exec .decp s = .next { s with rawP := r, status := { s.status with err := .ok, sent := false, rpv := true } } ∧
      r.toNat = msb.toNat * 4096 + lsb.toNat * 16 + xlsb.toNat / 16)

/-- `DECH` (R120): the 16-bit humidity sample, msb first; `FTV` is not changed. -/
def Obligations.DechResult : Prop :=
  encode .dech = 0x16000000#32 ∧
  (∀ s : State, (∃ k, k < 2 ∧ s.env.read (0xFD + k) = none) → exec .dech s = .next (raiseErr .unwritten s)) ∧
  (∀ (s : State) (msb lsb : Byte), s.env.read 0xFD = some msb → s.env.read 0xFE = some lsb →
    ∃ r : BitVec 16,
      exec .dech s = .next { s with rawH := r, status := { s.status with err := .ok, sent := false, rhv := true } } ∧
      r.toNat = msb.toNat * 256 + lsb.toNat)

/-! ### Compensation -/

/-- `COMPT` (R140): the checks in order, and the temperature formula operation by operation. -/
def Obligations.ComptResult : Prop :=
  encode .compt = 0x18000000#32 ∧
  (∀ s : State, s.ctrl.ten = false → exec .compt s = .next (raiseErr .invalidState s)) ∧
  (∀ s : State, s.ctrl.ten = true → s.status.tv = false → exec .compt s = .next (raiseErr .nocal s)) ∧
  (∀ s : State, s.ctrl.ten = true → s.status.tv = true → s.status.rtv = false →
    exec .compt s = .next (raiseErr .noraw s)) ∧
  (∀ s : State, s.ctrl.ten = true → s.status.tv = true → s.status.rtv = true →
    let r := i2f32 s.rawT.toNat
    let t1 := i2f32 s.calT.t1.toNat
    let t2 := i2f32 s.calT.t2.toInt
    let t3 := i2f32 s.calT.t3.toInt
    let a := fsub32 (fdiv32 r (i2f32 16384)) (fdiv32 t1 (i2f32 1024))
    let var1 := fmul32 a t2
    let b := fsub32 (fdiv32 r (i2f32 131072)) (fdiv32 t1 (i2f32 8192))
    let var2 := fmul32 (fmul32 b b) t3
    let fine := fadd32 var1 var2
    exec .compt s =
      .next
        { s with
          ft := fine
          temp := fdiv32 fine (i2f32 5120)
          status := { s.status with err := .ok, sent := false, ftv := true } })

/-- The two differences of the temperature formula are exact (R140, corner cases). -/
def Obligations.ComptDifferencesExact : Prop :=
  ∀ (raw : BitVec 20) (t1 : BitVec 16),
    value32 (fsub32 (fdiv32 (i2f32 raw.toNat) (i2f32 16384)) (fdiv32 (i2f32 t1.toNat) (i2f32 1024))) =
      some ((raw.toNat : ℚ) / 16384 - (t1.toNat : ℚ) / 1024) ∧
    value32 (fsub32 (fdiv32 (i2f32 raw.toNat) (i2f32 131072)) (fdiv32 (i2f32 t1.toNat) (i2f32 8192))) =
      some ((raw.toNat : ℚ) / 131072 - (t1.toNat : ℚ) / 8192)

/-- `COMPP` (R143): the checks in order, the guard on the normalized term, and the pressure formula operation by
operation. -/
def Obligations.ComppResult : Prop :=
  encode .compp = 0x19000000#32 ∧
  (∀ s : State, s.ctrl.pen = false → exec .compp s = .next (raiseErr .invalidState s)) ∧
  (∀ s : State, s.ctrl.pen = true → s.status.pv = false → exec .compp s = .next (raiseErr .nocal s)) ∧
  (∀ s : State, s.ctrl.pen = true → s.status.pv = true → s.status.rpv = false →
    exec .compp s = .next (raiseErr .noraw s)) ∧
  (∀ s : State, s.ctrl.pen = true → s.status.pv = true → s.status.rpv = true → s.status.ftv = false →
    exec .compp s = .next (raiseErr .noft s)) ∧
  (∀ s : State, s.ctrl.pen = true → s.status.pv = true → s.status.rpv = true → s.status.ftv = true →
    let c := s.calP
    let v1 := fsub32 (fdiv32 s.ft (i2f32 2)) (i2f32 64000)
    let v2 := fdiv32 (fmul32 (fmul32 v1 v1) (i2f32 c.p6.toInt)) (i2f32 32768)
    let v2 := fadd32 v2 (fmul32 (fmul32 v1 (i2f32 c.p5.toInt)) (i2f32 2))
    let v2 := fadd32 (fdiv32 v2 (i2f32 4)) (fmul32 (i2f32 c.p4.toInt) (i2f32 65536))
    let v1 := fdiv32 (fadd32 (fdiv32 (fmul32 (fmul32 (i2f32 c.p3.toInt) v1) v1) (i2f32 524288))
      (fmul32 (i2f32 c.p2.toInt) v1)) (i2f32 524288)
    let v1 := fmul32 (fadd32 (i2f32 1) (fdiv32 v1 (i2f32 32768))) (i2f32 c.p1.toNat)
    let p := fsub32 (i2f32 1048576) (i2f32 s.rawP.toNat)
    let p := fdiv32 (fmul32 (fsub32 p (fdiv32 v2 (i2f32 4096))) (i2f32 6250)) v1
    let w1 := fdiv32 (fmul32 (fmul32 (i2f32 c.p9.toInt) p) p) (i2f32 2147483648)
    let w2 := fdiv32 (fmul32 p (i2f32 c.p8.toInt)) (i2f32 32768)
    let p := fadd32 p (fdiv32 (fadd32 (fadd32 w1 w2) (i2f32 c.p7.toInt)) (i2f32 16))
    (value32 v1 = some 0 →
      exec .compp s =
        .next { s with press := 0x00000000#32, status := { s.status with err := .ok, sent := true } }) ∧
    (value32 v1 ≠ some 0 →
      exec .compp s =
        .next { s with press := fdiv32 p (i2f32 100), status := { s.status with err := .ok, sent := false } }))

/-- `COMPH` (R147): the checks in order, the guard on the shifted input, and the humidity formula operation by operation
in binary64, the clamp, and the one narrowing. -/
def Obligations.ComphResult : Prop :=
  encode .comph = 0x1A000000#32 ∧
  (∀ s : State, s.ctrl.hen = false → exec .comph s = .next (raiseErr .invalidState s)) ∧
  (∀ s : State, s.ctrl.hen = true → s.status.hv = false → exec .comph s = .next (raiseErr .nocal s)) ∧
  (∀ s : State, s.ctrl.hen = true → s.status.hv = true → s.status.rhv = false →
    exec .comph s = .next (raiseErr .noraw s)) ∧
  (∀ s : State, s.ctrl.hen = true → s.status.hv = true → s.status.rhv = true → s.status.ftv = false →
    exec .comph s = .next (raiseErr .noft s)) ∧
  (∀ s : State, s.ctrl.hen = true → s.status.hv = true → s.status.rhv = true → s.status.ftv = true →
    let c := s.calH
    let h4 := i2f64 (h45Value s.bench.h45Signed c.h4)
    let h5 := i2f64 (h45Value s.bench.h45Signed c.h5)
    let v := fsub64 (f32to64 s.ft) (i2f64 76800)
    let x := fsub64 (i2f64 s.rawH.toNat) (fadd64 (fmul64 h4 (i2f64 64)) (fmul64 (fdiv64 h5 (i2f64 16384)) v))
    let y := fmul64 (fdiv64 (i2f64 c.h2.toInt) (i2f64 65536))
      (fadd64 (i2f64 1) (fmul64 (fmul64 (fdiv64 (i2f64 c.h6.toInt) (i2f64 67108864)) v)
        (fadd64 (i2f64 1) (fmul64 (fdiv64 (i2f64 c.h3.toNat) (i2f64 67108864)) v))))
    let w := fmul64 x y
    let z := fmul64 w (fsub64 (i2f64 1) (fdiv64 (fmul64 (i2f64 c.h1.toNat) w) (i2f64 524288)))
    let clamped := if flt64 (i2f64 100) z then i2f64 100 else if flt64 z (i2f64 0) then i2f64 0 else z
    (value64 v = some 0 →
      exec .comph s =
        .next { s with hum := 0x00000000#32, status := { s.status with err := .ok, sent := true } }) ∧
    (value64 v ≠ some 0 →
      exec .comph s =
        .next { s with hum := f64to32 clamped, status := { s.status with err := .ok, sent := false } }))

/-- The humidity guard fires exactly when `FT = 76800.0` (0x47960000), for every encoding `FT` can hold (R147). -/
def Obligations.HumidityGuardExactly : Prop :=
  ∀ s : State, s.ctrl.hen = true → s.status.hv = true → s.status.rhv = true → s.status.ftv = true →
    ∃ t, exec .comph s = .next t ∧ (t.status.sent = true ↔ s.ft = 0x47960000#32)

/-- `HUM` is within [0, 100] for every raw humidity, every fine temperature that `COMPT` can produce and every
calibration (R149). -/
def Obligations.HumidityWithinRange : Prop :=
  ∀ (s : State) (raw : BitVec 20) (c : CalT),
    s.ctrl.hen = true → s.status.hv = true → s.status.rhv = true → s.status.ftv = true →
    s.ft = fineTemperature raw c →
    ∃ t q, exec .comph s = .next t ∧ value32 t.hum = some q ∧ 0 ≤ q ∧ q ≤ 100

/-- The arithmetic in both widths (R11, R131, R133, R134, R135). What an encoding stands for; every operation on numbers
is the exact result rounded once to nearest, ties to even; its answers for NaNs, infinities, division by zero and the
sign of zero; the conversions; an `f32` operation that yields NaN answers 0x7FC00000; `x == 0`, `x <= y` and `x < y`
compare the values and are false on NaN. (That an operation's NaN is canonical before a register receives it is the
model's choice for `f64`, notes/assumptions/12.md, so the statement fixes no `f64` NaN encoding.) -/
def Obligations.ArithmeticCorrectlyRounded : Prop :=
  readsEncodings 23 8 127 unpack32 ∧ readsEncodings 52 11 1023 unpack64 ∧
  (∀ (a b : F32) (p q : ℚ), value32 a = some p → value32 b = some q →
    correctlyRounded32 (p + q) (fadd32 a b) ∧ correctlyRounded32 (p - q) (fsub32 a b) ∧
    correctlyRounded32 (p * q) (fmul32 a b) ∧ (q ≠ 0 → correctlyRounded32 (p / q) (fdiv32 a b))) ∧
  (∀ (a b : F64) (p q : ℚ), value64 a = some p → value64 b = some q →
    correctlyRounded64 (p + q) (fadd64 a b) ∧ correctlyRounded64 (p - q) (fsub64 a b) ∧
    correctlyRounded64 (p * q) (fmul64 a b) ∧ (q ≠ 0 → correctlyRounded64 (p / q) (fdiv64 a b)) ∧
    correctlyRounded32 p (f64to32 a)) ∧
  (∀ n : Int, correctlyRounded32 n (i2f32 n) ∧ correctlyRounded64 n (i2f64 n)) ∧
  (∀ (a : F32) (p : ℚ), value32 a = some p → value64 (f32to64 a) = some p) ∧
  specialResults unpack32 fadd32 fsub32 fmul32 fdiv32 ∧
  specialResults unpack64 fadd64 fsub64 fmul64 fdiv64 ∧
  (∀ a : F32, (unpack32 a = .nan → unpack64 (f32to64 a) = .nan) ∧
    (∀ s, unpack32 a = .inf s → unpack64 (f32to64 a) = .inf s) ∧
    (unpack32 a ≠ .nan → (f32to64 a).msb = a.msb)) ∧
  (∀ a : F64, (unpack64 a = .nan → f64to32 a = 0x7FC00000#32) ∧
    (∀ s, unpack64 a = .inf s → unpack32 (f64to32 a) = .inf s) ∧
    (unpack64 a ≠ .nan → (f64to32 a).msb = a.msb)) ∧
  (∀ n : Int, (i2f32 n).msb = decide (n < 0) ∧ (i2f64 n).msb = decide (n < 0)) ∧
  (∀ a b : F32, nanCanonical (fadd32 a b) ∧ nanCanonical (fsub32 a b) ∧ nanCanonical (fmul32 a b) ∧
    nanCanonical (fdiv32 a b)) ∧
  (∀ a : F32, isZero32 a = true ↔ a = 0x00000000#32 ∨ a = 0x80000000#32) ∧
  (∀ a : F64, isZero64 a = true ↔ a = 0x0000000000000000#64 ∨ a = 0x8000000000000000#64) ∧
  comparesLe unpack32 fle32 ∧
  comparesLt unpack64 flt64

/-! ### Lux -/

/-- `LUX` (R161): presence, freshness, the saturation sentinel, the timing byte, the dark sentinel, and the formula
operation by operation. -/
def Obligations.LuxResult : Prop :=
  encode .lux = 0x20000000#32 ∧
  (∀ s : State, (s.luxi.read 0x1 = none ∨ s.luxi.read 0xC = none ∨ s.luxi.read 0xD = none ∨ s.luxi.read 0xE = none ∨
      s.luxi.read 0xF = none) →
    exec .lux s = .next (raiseErr .unwritten s)) ∧
  (∀ (s : State) (tb l0 m0 l1 m1 : Byte), s.luxi.read 0x1 = some tb → s.luxi.read 0xC = some l0 →
    s.luxi.read 0xD = some m0 → s.luxi.read 0xE = some l1 → s.luxi.read 0xF = some m1 →
    let ch0 := l0.toNat + 256 * m0.toNat
    let ch1 := l1.toNat + 256 * m1.toNat
    let integ := tb.toNat % 4
    let gain := if tb.toNat / 16 % 2 = 1 then i2f32 16 else i2f32 1
    let integTime := if integ = 0 then 0x415B3333#32 else if integ = 1 then i2f32 101 else i2f32 402
    let c0 := i2f32 ch0
    let c1 := i2f32 ch1
    let ratio := fdiv32 c1 c0
    let scale := fdiv32 (fdiv32 (i2f32 402) integTime) gain
    let d0 := fmul32 c0 scale
    let d1 := fmul32 c1 scale
    let result :=
      if fle32 ratio 0x3F000000#32 then
        fsub32 (fmul32 0x3CF9096C#32 d0) (fmul32 (fmul32 0x3D7DF3B6#32 d0) (powRatio ratio))
      else if fle32 ratio 0x3F1C28F6#32 then fsub32 (fmul32 0x3CB78034#32 d0) (fmul32 0x3CFDF3B6#32 d1)
      else if fle32 ratio 0x3F4CCCCD#32 then fsub32 (fmul32 0x3C51B717#32 d0) (fmul32 0x3C7AACDA#32 d1)
      else if fle32 ratio 0x3FA66666#32 then fsub32 (fmul32 0x3ABF5D79#32 d0) (fmul32 0x3A92CCF7#32 d1)
      else 0x00000000#32
    (s.status.timf = false → exec .lux s = .next (raiseErr .staleTiming s)) ∧
    (s.status.timf = true → ch0 = 0xFFFF →
      exec .lux s =
        .next { s with
          luxR := 0x451C4000#32, status := { s.status with err := .ok, sent := true, timf := false } }) ∧
    (s.status.timf = true → ch0 ≠ 0xFFFF → integ = 3 → exec .lux s = .next (raiseErr .badTiming s)) ∧
    (s.status.timf = true → ch0 = 0 → integ ≠ 3 →
      exec .lux s =
        .next { s with
          luxR := 0x00000000#32, status := { s.status with err := .ok, sent := true, timf := false } }) ∧
    (s.status.timf = true → ch0 ≠ 0xFFFF → ch0 ≠ 0 → integ ≠ 3 →
      exec .lux s =
        .next { s with luxR := result, status := { s.status with err := .ok, sent := false, timf := false } }))

/-- `PowRatio(r)` is the `f32` nearest to the real number `r ^ 1.4`, ties to even; it is 0 at 0, within [0, 1], and
monotone (R166). That `PowRatio` is this default of R166, and not another function with the properties R166 asks for, is
the model's choice (notes/assumptions/10.md). -/
def Obligations.PowRatioNearest : Prop :=
  (∀ (r : F32) (q : ℚ), value32 r = some q → 0 ≤ q → q ≤ 1 / 2 →
    ∃ v, value32 (powRatio r) = some v ∧ 0 ≤ v ∧ v ≤ 1 ∧
      ∀ y w, value32 y = some w →
        |(v : ℝ) - (q : ℝ) ^ (1.4 : ℝ)| ≤ |(w : ℝ) - (q : ℝ) ^ (1.4 : ℝ)| ∧
        (|(v : ℝ) - (q : ℝ) ^ (1.4 : ℝ)| = |(w : ℝ) - (q : ℝ) ^ (1.4 : ℝ)| →
          w = v ∨ (powRatio r).toNat % 2 = 0)) ∧
  powRatio 0x00000000#32 = 0x00000000#32 ∧
  (∀ (r r' : F32) (q q' v v' : ℚ), value32 r = some q → value32 r' = some q' → 0 ≤ q → q ≤ q' → q' ≤ 1 / 2 →
    value32 (powRatio r) = some v → value32 (powRatio r') = some v' → v ≤ v')

/-! ### The pulse measurers' commands -/

/-- `PMOPEN m, s` (R183): `PM_SEL`, `PM_STRAT`, `PM_STATE` in that order; then every register of the measurer at its
reset value, open, with the strategy of the code: 0 cycle-integrator, 1 edge-timestamp by busy-polling, 2 by interrupt,
3 reserved (R181). -/
def Obligations.PmopenResult : Prop :=
  (∀ (m : BitVec 4) (code : BitVec 2),
    encode (.pmopen m code) = 0x30000000#32 ||| m.setWidth 32 <<< 20 ||| code.setWidth 32) ∧
  (∀ (s : State) (m : BitVec 4) (code : BitVec 2), s.pms.length ≤ m.toNat →
    exec (.pmopen m code) s = .next (raiseErr .pmSel s)) ∧
  (∀ (s : State) (m : BitVec 4), m.toNat < s.pms.length →
    exec (.pmopen m 3#2) s = .next (raiseErr .pmStrat s)) ∧
  (∀ (s : State) (m : BitVec 4) (code : BitVec 2) (p : Measurer), s.pms[m.toNat]? = some p → code ≠ 3#2 →
    (p.opened = true ∨ p.run = true) → exec (.pmopen m code) s = .next (raiseErr .pmState s)) ∧
  (∀ (s : State) (m : BitVec 4) (p : Measurer), s.pms[m.toNat]? = some p → p.opened = false → p.run = false →
    let openedWith (k : Strategy) : State :=
      { s with
        pms := s.pms.set m.toNat { Measurer.reset with opened := true, strat := k }
        status := { s.status with err := .ok, sent := false } }
    exec (.pmopen m 0#2) s = .next (openedWith .cycle) ∧
    exec (.pmopen m 1#2) s = .next (openedWith .epoll) ∧
    exec (.pmopen m 2#2) s = .next (openedWith .eirq))

/-- `PMSTART m` (R184): `PM_SEL`, `PM_STATE`; then the background unit exists, and the window begins at `TIME`. -/
def Obligations.PmstartResult : Prop :=
  (∀ m : BitVec 4, encode (.pmstart m) = 0x31000000#32 ||| m.setWidth 32 <<< 20) ∧
  (∀ (s : State) (m : BitVec 4), s.pms.length ≤ m.toNat →
    exec (.pmstart m) s = .next (raiseErr .pmSel s)) ∧
  (∀ (s : State) (m : BitVec 4) (p : Measurer), s.pms[m.toNat]? = some p →
    (p.opened = false ∨ p.run = true) → exec (.pmstart m) s = .next (raiseErr .pmState s)) ∧
  (∀ (s : State) (m : BitVec 4) (p : Measurer), s.pms[m.toNat]? = some p → p.opened = true → p.run = false →
    exec (.pmstart m) s =
      .next
        { s with
          pms := s.pms.set m.toNat
            { p with run := true, stopReq := false, st := .waitingForRise, winStart := s.bench.time, acc := 0 }
          status := { s.status with err := .ok, sent := false } })

/-- `PMSTOP m` (R185): `PM_SEL`; then a stop request for strategies 0 and 1, an immediate stop for strategy 2, and
nothing for a measurer that does not run. -/
def Obligations.PmstopResult : Prop :=
  (∀ m : BitVec 4, encode (.pmstop m) = 0x32000000#32 ||| m.setWidth 32 <<< 20) ∧
  (∀ (s : State) (m : BitVec 4), s.pms.length ≤ m.toNat → exec (.pmstop m) s = .next (raiseErr .pmSel s)) ∧
  (∀ (s : State) (m : BitVec 4) (p : Measurer), s.pms[m.toNat]? = some p → p.run = true → p.strat ≠ .eirq →
    exec (.pmstop m) s =
      .next
        { s with
          pms := s.pms.set m.toNat { p with stopReq := true }
          status := { s.status with err := .ok, sent := false } }) ∧
  (∀ (s : State) (m : BitVec 4) (p : Measurer), s.pms[m.toNat]? = some p → p.run = true → p.strat = .eirq →
    exec (.pmstop m) s =
      .next
        { s with
          pms := s.pms.set m.toNat { p with run := false }
          status := { s.status with err := .ok, sent := false } }) ∧
  (∀ (s : State) (m : BitVec 4) (p : Measurer), s.pms[m.toNat]? = some p → p.run = false →
    exec (.pmstop m) s = .next { s with status := { s.status with err := .ok, sent := false } })

/-- `PMCLOSE m` (R186): `PM_SEL`, `PM_STATE`; then everything of the measurer is at its reset value but `RUN`, `STOPREQ`,
`PINERR` and `STRAT`. -/
def Obligations.PmcloseResult : Prop :=
  (∀ m : BitVec 4, encode (.pmclose m) = 0x33000000#32 ||| m.setWidth 32 <<< 20) ∧
  (∀ (s : State) (m : BitVec 4), s.pms.length ≤ m.toNat → exec (.pmclose m) s = .next (raiseErr .pmSel s)) ∧
  (∀ (s : State) (m : BitVec 4) (p : Measurer), s.pms[m.toNat]? = some p → p.opened = false →
    exec (.pmclose m) s = .next (raiseErr .pmState s)) ∧
  (∀ (s : State) (m : BitVec 4) (p : Measurer), s.pms[m.toNat]? = some p → p.opened = true →
    exec (.pmclose m) s =
      .next
        { s with
          pms := s.pms.set m.toNat
            { Measurer.reset with run := p.run, stopReq := p.stopReq, pinErr := p.pinErr, strat := p.strat }
          status := { s.status with err := .ok, sent := false } })

/-- `PMRD m` (R187): `PM_SEL`, `PM_STATE`, `PM_STRAT`; then both halves of the published pair in one step. -/
def Obligations.PmrdResult : Prop :=
  (∀ m : BitVec 4, encode (.pmrd m) = 0x34000000#32 ||| m.setWidth 32 <<< 20) ∧
  (∀ (s : State) (m : BitVec 4), s.pms.length ≤ m.toNat → exec (.pmrd m) s = .next (raiseErr .pmSel s)) ∧
  (∀ (s : State) (m : BitVec 4) (p : Measurer), s.pms[m.toNat]? = some p → p.opened = false →
    exec (.pmrd m) s = .next (raiseErr .pmState s)) ∧
  (∀ (s : State) (m : BitVec 4) (p : Measurer), s.pms[m.toNat]? = some p → p.opened = true → p.strat ≠ .cycle →
    exec (.pmrd m) s = .next (raiseErr .pmStrat s)) ∧
  (∀ (s : State) (m : BitVec 4) (p : Measurer), s.pms[m.toNat]? = some p → p.opened = true → p.strat = .cycle →
    exec (.pmrd m) s =
      .next
        { s with
          pms := s.pms.set m.toNat { p with snapLen := p.pubLen, snapOn := p.pubOn }
          status := { s.status with err := .ok, sent := if p.pubV = true then false else true } })

/-- `PMAVG m` (R188): `PM_SEL`, `PM_STATE`, `PM_STRAT`; then the mean of the entries present: the exact sum rounded once,
divided by the rounded count; +0.0 and a sentinel for an empty FIFO. -/
def Obligations.PmavgResult : Prop :=
  (∀ m : BitVec 4, encode (.pmavg m) = 0x35000000#32 ||| m.setWidth 32 <<< 20) ∧
  (∀ (s : State) (m : BitVec 4), s.pms.length ≤ m.toNat → exec (.pmavg m) s = .next (raiseErr .pmSel s)) ∧
  (∀ (s : State) (m : BitVec 4) (p : Measurer), s.pms[m.toNat]? = some p → p.opened = false →
    exec (.pmavg m) s = .next (raiseErr .pmState s)) ∧
  (∀ (s : State) (m : BitVec 4) (p : Measurer), s.pms[m.toNat]? = some p → p.opened = true → p.strat ≠ .eirq →
    exec (.pmavg m) s = .next (raiseErr .pmStrat s)) ∧
  (∀ (s : State) (m : BitVec 4) (p : Measurer), s.pms[m.toNat]? = some p → p.opened = true → p.strat = .eirq →
    (p.fifo = [] →
      exec (.pmavg m) s =
        .next
          { s with
            pms := s.pms.set m.toNat { p with meanR := 0x00000000#32 }
            status := { s.status with err := .ok, sent := true } }) ∧
    (p.fifo ≠ [] →
      exec (.pmavg m) s =
        .next
          { s with
            pms := s.pms.set m.toNat
              { p with meanR := fdiv32 (i2f32 ((p.fifo.map BitVec.toNat).sum : Nat)) (i2f32 p.fifo.length) }
            status := { s.status with err := .ok, sent := false } }))

/-- `PPM m` (R189): `PM_SEL`, `PM_STATE`, `PM_STRAT`; then the formula on the pulse width (strategy 1) or the mean
(strategy 2, +0.0 if the FIFO is empty), flagged when there is no data. -/
def Obligations.PpmResult : Prop :=
  (∀ m : BitVec 4, encode (.ppm m) = 0x36000000#32 ||| m.setWidth 32 <<< 20) ∧
  (∀ (s : State) (m : BitVec 4), s.pms.length ≤ m.toNat → exec (.ppm m) s = .next (raiseErr .pmSel s)) ∧
  (∀ (s : State) (m : BitVec 4) (p : Measurer), s.pms[m.toNat]? = some p → p.opened = false →
    exec (.ppm m) s = .next (raiseErr .pmState s)) ∧
  (∀ (s : State) (m : BitVec 4) (p : Measurer), s.pms[m.toNat]? = some p → p.opened = true → p.strat = .cycle →
    exec (.ppm m) s = .next (raiseErr .pmStrat s)) ∧
  (∀ (s : State) (m : BitVec 4) (p : Measurer), s.pms[m.toNat]? = some p → p.opened = true → p.strat = .epoll →
    exec (.ppm m) s =
      .next
        { s with
          pms := s.pms.set m.toNat
            { p with ppmR := fdiv32 (fmul32 (i2f32 5000) (fsub32 (i2f32 p.pw.toNat) (i2f32 2))) (i2f32 1000) }
          status := { s.status with err := .ok, sent := if p.pwV = true then false else true } }) ∧
  (∀ (s : State) (m : BitVec 4) (p : Measurer), s.pms[m.toNat]? = some p → p.opened = true → p.strat = .eirq →
    let mean := fdiv32 (i2f32 ((p.fifo.map BitVec.toNat).sum : Nat)) (i2f32 p.fifo.length)
    let x := if p.fifo = [] then 0x00000000#32 else mean
    exec (.ppm m) s =
      .next
        { s with
          pms := s.pms.set m.toNat
            { p with ppmR := fdiv32 (fmul32 (i2f32 5000) (fsub32 x (i2f32 2))) (i2f32 1000) }
          status := { s.status with err := .ok, sent := if p.fifo = [] then true else false } })

/-- `DENS m` (R190): `PM_SEL`, `PM_STATE`, `PM_STRAT`; then the density of the live published pair, or +0.0 and a sentinel
while its length is 0. -/
def Obligations.DensResult : Prop :=
  (∀ m : BitVec 4, encode (.dens m) = 0x37000000#32 ||| m.setWidth 32 <<< 20) ∧
  (∀ (s : State) (m : BitVec 4), s.pms.length ≤ m.toNat → exec (.dens m) s = .next (raiseErr .pmSel s)) ∧
  (∀ (s : State) (m : BitVec 4) (p : Measurer), s.pms[m.toNat]? = some p → p.opened = false →
    exec (.dens m) s = .next (raiseErr .pmState s)) ∧
  (∀ (s : State) (m : BitVec 4) (p : Measurer), s.pms[m.toNat]? = some p → p.opened = true → p.strat ≠ .cycle →
    exec (.dens m) s = .next (raiseErr .pmStrat s)) ∧
  (∀ (s : State) (m : BitVec 4) (p : Measurer), s.pms[m.toNat]? = some p → p.opened = true → p.strat = .cycle →
    (p.pubLen = 0 →
      exec (.dens m) s =
        .next
          { s with
            pms := s.pms.set m.toNat { p with densR := 0x00000000#32 }
            status := { s.status with err := .ok, sent := true } }) ∧
    (p.pubLen ≠ 0 →
      let r := fdiv32 (fmul32 (i2f32 p.pubOn.toNat) (i2f32 100)) (i2f32 p.pubLen.toNat)
      exec (.dens m) s =
        .next
          { s with
            pms := s.pms.set m.toNat
              { p with densR :=
                  fsub32 (fadd32 (fmul32 0x3AFB00BD#32 (fmul32 r r)) (fmul32 0x3DC302B4#32 r)) 0x3D480C74#32 }
            status := { s.status with err := .ok, sent := false } }))

/-! ### The background events -/

/-- The prologue of every background step (R205): a requested stop ends the unit, and else a closed handle is reported
and ends it; nothing else of the machine changes, whatever the pin and the time. -/
def Obligations.PrologueEndsBackgroundStep : Prop :=
  ∀ (s : State) (m : BitVec 4) (p : Measurer) (now : Word) (pins : BitVec 16) (a : AgentStep),
    s.pms[m.toNat]? = some p → p.run = true →
    (a = .poll m ∧ p.strat ≠ .eirq ∨ a = .edge m ∧ p.strat = .eirq) →
    (p.stopReq = true →
      afterTurn { agent := a, time := now, pins := pins, resetLine := false } s =
        { s with
          pms := s.pms.set m.toNat { p with run := false, stopReq := false }
          bench := { s.bench with schedule := [], time := now, pins := pins } }) ∧
    (p.stopReq = false → p.opened = false →
      afterTurn { agent := a, time := now, pins := pins, resetLine := false } s =
        { s with
          pms := s.pms.set m.toNat { p with run := false, pinErr := true }
          bench := { s.bench with schedule := [], time := now, pins := pins } })

/-- `Poll(m)` of a cycle-integrator (R200, R201, R202): a rise is timed, a fall adds its width to the window in which it
is seen, and at 30000 ms or more the pair (elapsed, on-time) is published and the window restarts, all in the one step. -/
def Obligations.PollIntegratesAndPublishes : Prop :=
  ∀ (s : State) (m : BitVec 4) (p : Measurer) (now : Word) (pins : BitVec 16),
    s.pms[m.toNat]? = some p → p.run = true → p.strat = .cycle → p.stopReq = false → p.opened = true →
    let level := pins.getLsbD m.toNat
    let rise := p.st = .waitingForRise ∧ level = true
    let fall := p.st = .waitingForFall ∧ level = false
    let acc := if fall then p.acc + (now - p.startTime) else p.acc
    let observed : Measurer :=
      { p with
        startTime := if rise then now else p.startTime
        endTime := if fall then now else p.endTime
        st := if level = true then .waitingForFall else .waitingForRise }
    (30000 ≤ (now - p.winStart).toNat →
      afterTurn { agent := .poll m, time := now, pins := pins, resetLine := false } s =
        { s with
          pms := s.pms.set m.toNat
            { observed with
              pubLen := now - p.winStart, pubOn := acc, pubV := true, winStart := now, acc := 0 }
          bench := { s.bench with schedule := [], time := now, pins := pins } }) ∧
    ((now - p.winStart).toNat < 30000 →
      afterTurn { agent := .poll m, time := now, pins := pins, resetLine := false } s =
        { s with
          pms := s.pms.set m.toNat { observed with acc := acc }
          bench := { s.bench with schedule := [], time := now, pins := pins } })

/-- `Poll(m)` of strategy 1 and `Edge(m)` of strategy 2 (R200, R201, R203, R204): a rise is timed; a fall records the
pulse width, and in strategy 2 pushes it into the FIFO, whose oldest entry leaves when it holds 10. -/
def Obligations.EdgeTimestampsPulses : Prop :=
  ∀ (s : State) (m : BitVec 4) (p : Measurer) (now : Word) (pins : BitVec 16) (a : AgentStep),
    s.pms[m.toNat]? = some p → p.run = true → p.stopReq = false → p.opened = true →
    (a = .poll m ∧ p.strat = .epoll ∨ a = .edge m ∧ p.strat = .eirq) →
    let level := pins.getLsbD m.toNat
    let w := now - p.startTime
    let pushed := (if p.fifo.length = 10 then p.fifo.tail else p.fifo) ++ [w]
    let after (q : Measurer) : State :=
      { s with
        pms := s.pms.set m.toNat q
        bench := { s.bench with schedule := [], time := now, pins := pins } }
    (p.st = .waitingForRise → level = true →
      afterTurn { agent := a, time := now, pins := pins, resetLine := false } s =
        after { p with startTime := now, st := .waitingForFall }) ∧
    (p.st = .waitingForFall → level = false →
      afterTurn { agent := a, time := now, pins := pins, resetLine := false } s =
        after { p with
          endTime := now, st := .waitingForRise, pw := w, pwV := true
          fifo := if p.strat = .eirq then pushed else p.fifo }) ∧
    ((p.st = .waitingForRise ∧ level = false ∨ p.st = .waitingForFall ∧ level = true) →
      afterTurn { agent := a, time := now, pins := pins, resetLine := false } s = after p)

/-- A notification that arrives while `Edge(m)` is not enabled is discarded with no effect, and where `Poll(m)` is not
enabled there is no step (R206; the second is the model's reading of a schedule, notes/assumptions/4.md). -/
def Obligations.DisabledBackgroundStepsDoNothing : Prop :=
  ∀ (s : State) (m : BitVec 4) (now : Word) (pins : BitVec 16) (a : AgentStep),
    (a = .poll m ∧ (∀ p, s.pms[m.toNat]? = some p → p.run = false ∨ p.strat = .eirq) ∨
      a = .edge m ∧ (∀ p, s.pms[m.toNat]? = some p → p.run = false ∨ p.strat ≠ .eirq)) →
    afterTurn { agent := a, time := now, pins := pins, resetLine := false } s =
      { s with bench := { s.bench with schedule := [], time := now, pins := pins } }

/-- The FIFO holds the last 10 widths pushed, oldest first, and never more (R36, R203). -/
def Obligations.FifoKeepsLastTen : Prop :=
  ∀ ws : List Word, ws.foldl pushWidth [] = ws.drop (ws.length - 10)

/-! ### Frames over all commands and steps -/

/-- Which commands write image cells, and which cells (R69): `WRB` its one cell, `ENVCLOSE` all of `ENV`, `SRST` all of
both; every other cell of both images reads as before. -/
def Obligations.OnlyWritesTouchImages : Prop :=
  ∀ (i : Instr) (s t : State), exec i s = .next t → i ≠ .srst →
    (∀ a, t.env.read a = s.env.read a ∨ i = .envclose ∨ ∃ d b, i = .wrb .env b d ∧ b.toNat = a) ∧
    (∀ a, t.luxi.read a = s.luxi.read a ∨ ∃ d b, i = .wrb .luxi b d ∧ b.toNat % 16 = a ∧ b.toNat / 16 % 8 = 0)

/-- A background step touches the registers of its own measurer only: no register, flag or image of the rest of the
machine, and no other measurer (R205, R208, R239, R245). -/
def Obligations.BackgroundTouchesOnlyItsMeasurer : Prop :=
  ∀ (s t : State) (m : BitVec 4) (now : Word) (pins : BitVec 16) (rest : List Turn) (a : AgentStep),
    (a = .poll m ∨ a = .edge m) →
    s.bench.schedule = { agent := a, time := now, pins := pins, resetLine := false } :: rest →
    step s = .next t →
    (∀ k : Nat, k ≠ m.toNat → t.pms[k]? = s.pms[k]?) ∧ t.pms.length = s.pms.length ∧
    t = { s with pms := t.pms, bench := { s.bench with schedule := rest, time := now, pins := pins } }

/-- The host's commands leave the measurement registers of a measurer alone, but for `PMOPEN`, `PMSTART` and `PMCLOSE` of
that measurer and `SRST` (R208); a reader command writes only `SNAPLEN`, `SNAPON`, `MEANR`, `PPMR`, `DENSR`. -/
def Obligations.HostReadersKeepMeasurement : Prop :=
  ∀ (i : Instr) (s t : State) (k : Nat) (p q : Measurer), exec i s = .next t →
    s.pms[k]? = some p → t.pms[k]? = some q → i ≠ .srst →
    (∀ m c, i = .pmopen m c → m.toNat ≠ k) → (∀ m, i = .pmstart m → m.toNat ≠ k) →
    (∀ m, i = .pmclose m → m.toNat ≠ k) →
    q.st = p.st ∧ q.startTime = p.startTime ∧ q.endTime = p.endTime ∧ q.winStart = p.winStart ∧ q.acc = p.acc ∧
    q.pubLen = p.pubLen ∧ q.pubOn = p.pubOn ∧ q.pubV = p.pubV ∧ q.pw = p.pw ∧ q.pwV = p.pwV ∧ q.fifo = p.fifo ∧
    q.opened = p.opened ∧ q.strat = p.strat ∧ q.pinErr = p.pinErr ∧
    ((∀ m, i ≠ .pmstop m) → q.run = p.run ∧ q.stopReq = p.stopReq)

/-- While a calibration table is valid no step changes it, but for `ENVCLOSE`, `SRST` and reset (R31). -/
def Obligations.CalibrationImmutableWhileValid : Prop :=
  ∀ s t : State, step s = .next t →
    (∀ turn rest, s.bench.schedule = turn :: rest →
      turn.resetLine = false ∧ turn.agent ≠ .issue 0x03000000#32 ∧ turn.agent ≠ .issue 0x0F000000#32) →
    (s.status.tv = true → t.status.tv = true ∧ t.calT = s.calT) ∧
    (s.status.pv = true → t.status.pv = true ∧ t.calP = s.calP) ∧
    (s.status.hv = true → t.status.hv = true ∧ t.calH = s.calH)

/-! ### Invariants -/

/-- Every step keeps both images in the model's canonical form, and keeps the parameters `NPM` and `H45_SIGNED`. The form,
a list of written cells at strictly rising addresses, is the model's own way to hold the cells of R32 and R33, whose
addresses it stays inside (notes/assumptions/15.md); that the parameters of R6 are fields of the state at all, which no
step may then change, is the model's too (notes/assumptions/6.md and 7.md). -/
def Obligations.ImagesStayCanonical : Prop :=
  ∀ s t : State, step s = .next t →
    (imagesOk s → imagesOk t) ∧ t.pms.length = s.pms.length ∧ t.bench.h45Signed = s.bench.h45Signed

/-- Every step keeps the invariant of the measurers: the FIFO never holds more than 10 entries (R36), a stop request
stands only while a poll task runs (R185), a length is published exactly while `PUBV` and is at least 30000 (R190, R202),
and a closed measurer is torn down (R186). -/
def Obligations.MeasurersStayInOrder : Prop :=
  ∀ s t : State, measurersOk s → step s = .next t → measurersOk t

/-- Every step keeps the valid flags truthful: `FTV` only with `TV` and `RTV`, and a register whose flag is 0 at its reset
value. R29 alone would let such a register hold a value from before the last teardown; that it is the reset value follows
from R104 and R105, where a teardown clears flags and registers together, and from R112, R114, R116, R118, R119 and R120,
where a register is written only as its flag is set. That `FTV` needs `TV` and `RTV` follows from R140, which checks them
before setting it, R118, which clears it, and R104 and R105, which clear all three. -/
def Obligations.ValidFlagsStayTruthful : Prop :=
  ∀ s t : State, flagsOk s → step s = .next t → flagsOk t

/-- No step writes a NaN other than 0x7FC00000 into a result register (R134). -/
def Obligations.ResultNansStayCanonical : Prop :=
  ∀ s t : State, nansOk s → step s = .next t → nansOk t

/-- The state after reset meets every invariant (R54). -/
def Obligations.ResetMeetsInvariants : Prop :=
  imagesOk State.reset ∧ measurersOk State.reset ∧ flagsOk State.reset ∧ nansOk State.reset

/-! ### Runs -/

/-- A snapshot is never torn (R38, R72, R187): after `PMRD m`, whatever background steps and reads come before and
between the two reads of the snapshot registers, they return the pair that was published at the `PMRD`. -/
def Obligations.SnapshotIsNeverTorn : Prop :=
  ∀ (s t : State) (m : BitVec 4) (p : Measurer) (before between : List Turn),
    s.pms[m.toNat]? = some p → p.opened = true → p.strat = .cycle → exec (.pmrd m) s = .next t →
    (∀ x ∈ before, isQuietTurn x) → (∀ x ∈ between, isQuietTurn x) →
    let u := before.foldl (fun v x => afterTurn x v) t
    let u' := between.foldl (fun v x => afterTurn x v) u
    regRead u (0x108#12 + 0x20#12 * m.setWidth 12) = p.pubLen ∧
    regRead u' (0x109#12 + 0x20#12 * m.setWidth 12) = p.pubOn

/-- A requested stop is obeyed (R206, R265): in every stream of turns that is weakly fair to the poll task of `m`,
whatever the host, the other agents and the inputs do, `RUN` is 0 at some point. -/
def Obligations.StopIsEventuallyObeyed : Prop :=
  ∀ (turns : Nat → Turn) (s : State) (m : BitVec 4) (p : Measurer),
    s.pms[m.toNat]? = some p → p.run = true → p.stopReq = true → p.strat ≠ .eirq → weaklyFair m turns s →
    ∃ k q, (trace turns s k).pms[m.toNat]? = some q ∧ q.run = false
end

