-- ==== Sys2Proof/Laws/Commands.lean ====
section
/-! SUPPORT. What the shared shape of a command can do, said once: complete with its effect, or raise an error and
change nothing else (R81, R232). -/

namespace Sys2Proof.Machine

theorem retire_ok {c : Command} {s : State} {e : Effect} (h : c s = .ok e) :
    retire c s = .next (complete e.sent e.state) := by simp [retire, h]

theorem retire_error {c : Command} {s : State} {code : ErrCode} (h : c s = .error code) :
    retire c s = .next (raiseErr code s) := by simp [retire, h]

/-- Everything that executing a command's rule can answer. -/
theorem retire_cases (c : Command) (s : State) :
    (∃ e, c s = .ok e ∧ retire c s = .next (complete e.sent e.state)) ∨
    (∃ code, c s = .error code ∧ retire c s = .next (raiseErr code s)) := by
  cases h : c s with
  | ok e => exact .inl ⟨e, rfl, retire_ok h⟩
  | error code => exact .inr ⟨code, rfl, retire_error h⟩

/-- A command always answers a next state. -/
theorem retire_next (c : Command) (s : State) : ∃ t, retire c s = .next t := by
  rcases retire_cases c s with ⟨e, -, h⟩ | ⟨code, -, h⟩ <;> exact ⟨_, h⟩

/-- The next state of a command that is executed: an error with its code, or the effect, completed. -/
theorem retire_inv {c : Command} {s t : State} (h : retire c s = .next t) :
    (∃ code, c s = .error code ∧ t = raiseErr code s) ∨ (∃ e, c s = .ok e ∧ t = complete e.sent e.state) := by
  rcases retire_cases c s with ⟨e, he, h'⟩ | ⟨code, he, h'⟩ <;> rw [h'] at h <;> cases h
  · exact .inr ⟨e, he, rfl⟩
  · exact .inl ⟨code, he, rfl⟩

theorem onMeasurer_none {m : BitVec 4} {f : Measurer → Command} {s : State} (h : s.pm? m = none) :
    onMeasurer m f s = .error .pmSel := by simp [onMeasurer, h]

theorem onMeasurer_some {m : BitVec 4} {f : Measurer → Command} {s : State} {p : Measurer} (h : s.pm? m = some p) :
    onMeasurer m f s = f p s := by simp [onMeasurer, h]

/-- Everything that a measurer command can do: the selector error, or its own rule on an existing measurer. -/
theorem onMeasurer_cases (m : BitVec 4) (f : Measurer → Command) (s : State) :
    (s.pm? m = none ∧ onMeasurer m f s = .error .pmSel) ∨ (∃ p, s.pm? m = some p ∧ onMeasurer m f s = f p s) := by
  cases h : s.pm? m with
  | none => exact .inl ⟨rfl, onMeasurer_none h⟩
  | some p => exact .inr ⟨p, rfl, onMeasurer_some h⟩

/-- A measurer command that completes found its measurer. -/
theorem onMeasurer_ok {m : BitVec 4} {f : Measurer → Command} {s : State} {e : Effect}
    (h : onMeasurer m f s = .ok e) : ∃ p, s.pm? m = some p ∧ f p s = .ok e := by
  rcases onMeasurer_cases m f s with ⟨_, h'⟩ | ⟨p, hp, h'⟩ <;> rw [h'] at h
  · cases h
  · exact ⟨p, hp, h⟩

/-- A measurer command that fails had no measurer, or failed a check of its own. -/
theorem onMeasurer_error {m : BitVec 4} {f : Measurer → Command} {s : State} {code : ErrCode}
    (h : onMeasurer m f s = .error code) :
    code = .pmSel ∨ ∃ p, s.pm? m = some p ∧ f p s = .error code := by
  rcases onMeasurer_cases m f s with ⟨_, h'⟩ | ⟨p, hp, h'⟩ <;> rw [h'] at h
  · cases h
    exact .inl rfl
  · exact .inr ⟨p, hp, h⟩

/-- Everything that a reader command can do (R235): `PM_SEL`, `PM_STATE`, `PM_STRAT`, or its own effect. -/
theorem onReader_cases (m : BitVec 4) (g : Strategy → Bool) (f : Measurer → Measurer × Bool) (s : State) :
    (s.pm? m = none ∧ onReader m g f s = .error .pmSel) ∨
    (∃ p, s.pm? m = some p ∧ p.opened = false ∧ onReader m g f s = .error .pmState) ∨
    (∃ p, s.pm? m = some p ∧ p.opened = true ∧ g p.strat = false ∧ onReader m g f s = .error .pmStrat) ∨
    (∃ p, s.pm? m = some p ∧ p.opened = true ∧ g p.strat = true ∧
      onReader m g f s = .ok (measurerDone m (f p).1 (f p).2 s)) := by
  unfold onReader
  rcases onMeasurer_cases m _ s with ⟨h, e⟩ | ⟨p, h, e⟩
  · exact .inl ⟨h, e⟩
  · cases ho : p.opened <;> cases hg : g p.strat <;> simp_all [onMeasurer]

@[simp] theorem setPm_pm?_other (s : State) (m k : BitVec 4) (p : Measurer) (h : k ≠ m) :
    (s.setPm m p).pm? k = s.pm? k := by
  have : m.toNat ≠ k.toNat := fun e => h (BitVec.eq_of_toNat_eq e.symm)
  simp [State.setPm, State.pm?, this]

theorem setPm_pm?_same (s : State) (m : BitVec 4) (p : Measurer) {q : Measurer} (h : s.pm? m = some q) :
    (s.setPm m p).pm? m = some p := by
  have : m.toNat < s.pms.length := (List.getElem?_eq_some_iff.mp h).1
  simp [State.setPm, State.pm?, this]

end Sys2Proof.Machine
end

