-- ==== Sys2Proof/Laws/Decode.lean ====
section
/-! SUPPORT. The four fields of an assembled command word (R82), and what each format's check answers (R83). -/

namespace Sys2Proof

@[simp] theorem opField_assemble (op : BitVec 8) (sel : BitVec 4) (imm : BitVec 16) :
    opField (assemble op sel imm) = op := by
  apply BitVec.eq_of_getLsbD_eq
  intro i hi
  simp only [opField, assemble, BitVec.getLsbD_extractLsb', BitVec.getLsbD_append, BitVec.getLsbD_zero]
  simp [hi, show ¬ 24 + i < 16 by omega, show ¬ 24 + i - 16 < 4 by omega, show ¬ 24 + i - 16 - 4 < 4 by omega,
    show 24 + i - 16 - 4 - 4 = i by omega]

@[simp] theorem selField_assemble (op : BitVec 8) (sel : BitVec 4) (imm : BitVec 16) :
    selField (assemble op sel imm) = sel := by
  apply BitVec.eq_of_getLsbD_eq
  intro i hi
  simp only [selField, assemble, BitVec.getLsbD_extractLsb', BitVec.getLsbD_append, BitVec.getLsbD_zero]
  simp [hi, show ¬ 20 + i < 16 by omega, show ¬ 20 + i - 16 < 4 by omega,
    show 20 + i - 16 - 4 = i by omega]

@[simp] theorem zField_assemble (op : BitVec 8) (sel : BitVec 4) (imm : BitVec 16) :
    zField (assemble op sel imm) = 0#4 := by
  apply BitVec.eq_of_getLsbD_eq
  intro i hi
  simp only [zField, assemble, BitVec.getLsbD_extractLsb', BitVec.getLsbD_append, BitVec.getLsbD_zero]
  simp [hi]

@[simp] theorem immField_assemble (op : BitVec 8) (sel : BitVec 4) (imm : BitVec 16) :
    immField (assemble op sel imm) = imm := by
  apply BitVec.eq_of_getLsbD_eq
  intro i hi
  simp only [immField, assemble, BitVec.getLsbD_extractLsb', BitVec.getLsbD_append, BitVec.getLsbD_zero]
  simp [hi]

/-- A word is the assembly of its fields exactly when `z` is 0. -/
theorem assemble_fields (w : Word) (hz : zField w = 0#4) : assemble (opField w) (selField w) (immField w) = w := by
  have h : ∀ i, 16 ≤ i → i < 20 → w.getLsbD i = false := by
    intro i h1 h2
    have := congrArg (fun v : BitVec 4 => v.getLsbD (i - 16)) hz
    simp [zField, BitVec.getLsbD_extractLsb'] at this
    have e : 16 + (i - 16) = i := by omega
    rw [e] at this
    exact this (by omega)
  apply BitVec.eq_of_getLsbD_eq
  intro i hi
  simp only [assemble, opField, selField, immField, BitVec.getLsbD_append, BitVec.getLsbD_extractLsb', BitVec.getLsbD_zero]
  by_cases h1 : i < 16
  · simp [h1]
  · by_cases h2 : i < 20
    · simp [h1, h i (by omega) h2, show i - 16 < 4 by omega]
    · by_cases h3 : i < 24
      · simp [h1, show ¬ i - 16 < 4 by omega, show i - 16 - 4 < 4 by omega, show 20 + (i - 16 - 4) = i by omega]
      · simp [h1, show ¬ i - 16 < 4 by omega, show ¬ i - 16 - 4 < 4 by omega, show i - 16 - 4 - 4 < 8 by omega,
          show 24 + (i - 16 - 4 - 4) = i by omega]

/-- Everything that a format's check can answer. -/
theorem checkedFormat_ok {w : Word} {b : Bool} {i j : Instr} (h : checkedFormat w b i = .ok j) :
    zField w = 0#4 ∧ b = true ∧ i = j := by
  unfold checkedFormat at h
  split at h
  · cases h
  · split at h
    · rename_i hz hb
      exact ⟨not_not.mp hz, hb, Except.ok.inj h⟩
    · cases h

end Sys2Proof
end

