-- ==== Sys2Proof/Laws/Exec.lean ====
section
/-! SUPPORT. What executing a command can do, said once for all 23 of them: an error, or the command's own effect. -/

namespace Sys2Proof.Machine

/-- What a measurer command that completes does to measurer `m`, which was `p`, at the time `now`: the command, the
measurer after it, and whether the result is a sentinel. -/
inductive MeasurerEffect (m : BitVec 4) (now : Word) (p : Measurer) : Instr → Measurer → Bool → Prop
  | pmopen (code : BitVec 2) (k : Strategy) (hk : strategyOf code = some k) (ho : p.opened = false)
      (hr : p.run = false) :
      MeasurerEffect m now p (.pmopen m code) { Measurer.reset with opened := true, strat := k } false
  | pmstart (ho : p.opened = true) (hr : p.run = false) :
      MeasurerEffect m now p (.pmstart m)
        { p with run := true, stopReq := false, st := .waitingForRise, winStart := now, acc := 0 } false
  | pmstop : MeasurerEffect m now p (.pmstop m) (requestStop p) false
  | pmclose (ho : p.opened = true) : MeasurerEffect m now p (.pmclose m) (closedMeasurer p) false
  | pmrd (ho : p.opened = true) (hk : p.strat = .cycle) :
      MeasurerEffect m now p (.pmrd m) (takeSnapshot p).1 (takeSnapshot p).2
  | pmavg (ho : p.opened = true) (hk : p.strat = .eirq) :
      MeasurerEffect m now p (.pmavg m) (averageFifo p).1 (averageFifo p).2
  | ppm (ho : p.opened = true) (hk : p.strat ≠ .cycle) :
      MeasurerEffect m now p (.ppm m) (convertPpm p).1 (convertPpm p).2
  | dens (ho : p.opened = true) (hk : p.strat = .cycle) :
      MeasurerEffect m now p (.dens m) (convertDensity p).1 (convertDensity p).2

/-- What executing a command at `s` can leave. -/
inductive ExecEffect (s : State) : Instr → State → Prop
  | error (i : Instr) (code : ErrCode) (h : code ≠ .ok) : ExecEffect s i (raiseErr code s)
  | nop : ExecEffect s .nop (complete false s)
  | wrbEnv (a d : Byte) : ExecEffect s (.wrb .env a d) (complete false { s with env := s.env.write a.toNat d })
  | wrbLuxi (a d : Byte) (c : Nat) (h : luxiCell a = some c) :
      ExecEffect s (.wrb .luxi a d)
        (complete false { s with
          luxi := s.luxi.write c d, status := { s.status with timf := s.status.timf || c == 1 } })
  | wrc (imm3 : BitVec 3) :
      ExecEffect s (.wrc imm3)
        (complete false { s with ctrl := { ten := imm3.getLsbD 0, pen := imm3.getLsbD 1, hen := imm3.getLsbD 2 } })
  | envclose : ExecEffect s .envclose (complete false (closeEnvironment s))
  | srst : ExecEffect s .srst (complete false (resetAll s))
  | calt (c : CalT) (hv : s.status.tv = false) (h : decodeCalT s.env = some c) :
      ExecEffect s .calt (complete false { s with calT := c, status := { s.status with tv := true } })
  | calp (c : CalP) (hv : s.status.pv = false) (h : decodeCalP s.env = some c) :
      ExecEffect s .calp (complete false { s with calP := c, status := { s.status with pv := true } })
  | calh (c : CalH) (hv : s.status.hv = false) (h : decodeCalH s.env = some c) :
      ExecEffect s .calh (complete false { s with calH := c, status := { s.status with hv := true } })
  | dect (r : BitVec 20) (h : raw20 s.env 0xFA = some r) :
      ExecEffect s .dect
        (complete false { s with rawT := r, status := { s.status with rtv := true, ftv := false } })
  | decp (r : BitVec 20) (h : raw20 s.env 0xF7 = some r) :
      ExecEffect s .decp (complete false { s with rawP := r, status := { s.status with rpv := true } })
  | dech (r : BitVec 16) (h : raw16 s.env 0xFD = some r) :
      ExecEffect s .dech (complete false { s with rawH := r, status := { s.status with rhv := true } })
  | compt (he : s.ctrl.ten = true) (hv : s.status.tv = true) (hr : s.status.rtv = true) :
      ExecEffect s .compt
        (complete false { s with
          ft := fineTemperature s.rawT s.calT, temp := temperatureOf (fineTemperature s.rawT s.calT)
          status := { s.status with ftv := true } })
  | compp (he : s.ctrl.pen = true) (hv : s.status.pv = true) (hr : s.status.rpv = true) (hf : s.status.ftv = true) :
      ExecEffect s .compp
        (complete (compensatePressure s.rawP s.ft s.calP).isNone
          { s with press := (compensatePressure s.rawP s.ft s.calP).getD 0 })
  | comph (he : s.ctrl.hen = true) (hv : s.status.hv = true) (hr : s.status.rhv = true) (hf : s.status.ftv = true) :
      ExecEffect s .comph
        (complete (compensateHumidity s.bench.h45Signed s.rawH s.ft s.calH).isNone
          { s with hum := (compensateHumidity s.bench.h45Signed s.rawH s.ft s.calH).getD 0 })
  | luxSaturated (tb : Byte) (ch1 : BitVec 16) (h : luxInputs s.luxi = some (tb, Config.ch0Sat, ch1))
      (hf : s.status.timf = true) :
      ExecEffect s .lux
        (complete true { s with luxR := Config.satLux, status := { s.status with timf := false } })
  | luxDark (tb : Byte) (ch1 : BitVec 16) (t : Timing) (h : luxInputs s.luxi = some (tb, 0, ch1))
      (hf : s.status.timf = true) (ht : timingDecode tb = some t) :
      ExecEffect s .lux (complete true { s with luxR := 0, status := { s.status with timf := false } })
  | lux (tb : Byte) (ch0 ch1 : BitVec 16) (t : Timing) (h : luxInputs s.luxi = some (tb, ch0, ch1))
      (hf : s.status.timf = true) (ht : timingDecode tb = some t) (hs : ch0 ≠ Config.ch0Sat) (hd : ch0 ≠ 0) :
      ExecEffect s .lux
        (complete false { s with luxR := illuminance ch0 ch1 t, status := { s.status with timf := false } })
  | measurer (m : BitVec 4) (p q : Measurer) (i : Instr) (sent : Bool) (hp : s.pm? m = some p)
      (h : MeasurerEffect m s.bench.time p i q sent) : ExecEffect s i (complete sent (s.setPm m q))

/-- A reader command that completes. -/
theorem onReader_ok {m : BitVec 4} {g : Strategy → Bool} {f : Measurer → Measurer × Bool} {s : State} {e : Effect}
    (h : onReader m g f s = .ok e) :
    ∃ p, s.pm? m = some p ∧ p.opened = true ∧ g p.strat = true ∧ e = measurerDone m (f p).1 (f p).2 s := by
  rcases onReader_cases m g f s with ⟨_, h'⟩ | ⟨p, _, _, h'⟩ | ⟨p, _, _, _, h'⟩ | ⟨p, hp, ho, hk, h'⟩ <;>
    rw [h'] at h <;> cases h
  exact ⟨p, hp, ho, hk, rfl⟩

/-- The error of a measurer command that fails is none of `OK`. -/
theorem onReader_error {m : BitVec 4} {g : Strategy → Bool} {f : Measurer → Measurer × Bool} {s : State}
    {code : ErrCode} (h : onReader m g f s = .error code) : code ≠ .ok := by
  rcases onReader_cases m g f s with ⟨_, h'⟩ | ⟨p, _, _, h'⟩ | ⟨p, _, _, _, h'⟩ | ⟨p, hp, ho, hk, h'⟩ <;>
    rw [h'] at h <;> cases h <;> decide

/-- Everything that executing a command can do. -/
theorem exec_inv {i : Instr} {s t : State} (h : exec i s = .next t) : ExecEffect s i t := by
  cases i with
  | nop => cases h; exact .nop
  | wrb sp a d =>
    cases sp with
    | env => cases h; exact .wrbEnv a d
    | luxi =>
      rcases retire_inv h with ⟨code, he, rfl⟩ | ⟨e, he, rfl⟩ <;> simp only [writeImage] at he <;> split at he <;>
        cases he
      · exact .error _ _ (by decide)
      · exact .wrbLuxi a d _ ‹_›
  | wrc imm3 => cases h; exact .wrc imm3
  | envclose => cases h; exact .envclose
  | srst => cases h; exact .srst
  | calt =>
    rcases retire_inv h with ⟨code, he, rfl⟩ | ⟨e, he, rfl⟩ <;> unfold loadCalT at he <;> repeat' split at he
    all_goals cases he
    any_goals exact .error _ _ (by decide)
    exact .calt _ (by simp_all) ‹_›
  | calp =>
    rcases retire_inv h with ⟨code, he, rfl⟩ | ⟨e, he, rfl⟩ <;> unfold loadCalP at he <;> repeat' split at he
    all_goals cases he
    any_goals exact .error _ _ (by decide)
    exact .calp _ (by simp_all) ‹_›
  | calh =>
    rcases retire_inv h with ⟨code, he, rfl⟩ | ⟨e, he, rfl⟩ <;> unfold loadCalH at he <;> repeat' split at he
    all_goals cases he
    any_goals exact .error _ _ (by decide)
    exact .calh _ (by simp_all) ‹_›
  | dect =>
    rcases retire_inv h with ⟨code, he, rfl⟩ | ⟨e, he, rfl⟩ <;> unfold loadRawT at he <;> split at he <;> cases he
    · exact .error _ _ (by decide)
    · exact .dect _ ‹_›
  | decp =>
    rcases retire_inv h with ⟨code, he, rfl⟩ | ⟨e, he, rfl⟩ <;> unfold loadRawP at he <;> split at he <;> cases he
    · exact .error _ _ (by decide)
    · exact .decp _ ‹_›
  | dech =>
    rcases retire_inv h with ⟨code, he, rfl⟩ | ⟨e, he, rfl⟩ <;> unfold loadRawH at he <;> split at he <;> cases he
    · exact .error _ _ (by decide)
    · exact .dech _ ‹_›
  | compt =>
    rcases retire_inv h with ⟨code, he, rfl⟩ | ⟨e, he, rfl⟩ <;> unfold compT at he <;> repeat' split at he
    all_goals cases he
    any_goals exact .error _ _ (by decide)
    exact .compt (by simp_all) (by simp_all) (by simp_all)
  | compp =>
    rcases retire_inv h with ⟨code, he, rfl⟩ | ⟨e, he, rfl⟩ <;> unfold compP at he <;> repeat' split at he
    all_goals cases he
    any_goals exact .error _ _ (by decide)
    all_goals
      have hx := ExecEffect.compp (s := s) (by simp_all) (by simp_all) (by simp_all) (by simp_all)
      rename_i hc
      rw [hc] at hx
      exact hx
  | comph =>
    rcases retire_inv h with ⟨code, he, rfl⟩ | ⟨e, he, rfl⟩ <;> unfold compH at he <;> repeat' split at he
    all_goals cases he
    any_goals exact .error _ _ (by decide)
    all_goals
      have hx := ExecEffect.comph (s := s) (by simp_all) (by simp_all) (by simp_all) (by simp_all)
      rename_i hc
      rw [hc] at hx
      exact hx
  | lux =>
    rcases retire_inv h with ⟨code, he, rfl⟩ | ⟨e, he, rfl⟩ <;> unfold computeLux at he <;> repeat' split at he
    all_goals cases he
    any_goals exact .error _ _ (by decide)
    · rename_i tb ch0 ch1 hi ht hs
      exact .luxSaturated tb ch1 (hs ▸ hi) (by simpa using ht)
    · rename_i tb ch0 ch1 hi ht hs _ t hd h0
      exact .luxDark tb ch1 t (h0 ▸ hi) (by simpa using ht) hd
    · rename_i tb ch0 ch1 hi ht hs _ t hd h0
      exact .lux tb ch0 ch1 t hi (by simpa using ht) hd hs h0
  | pmopen m code =>
    rcases retire_inv h with ⟨c, he, rfl⟩ | ⟨e, he, rfl⟩
    · rcases onMeasurer_error he with rfl | ⟨p, hp, hf⟩
      · exact .error _ _ (by decide)
      · repeat' split at hf
        all_goals cases hf
        all_goals exact .error _ _ (by decide)
    · obtain ⟨p, hp, hf⟩ := onMeasurer_ok he
      repeat' split at hf
      all_goals cases hf
      rename_i k hk hn
      simp only [Bool.or_eq_true, not_or, Bool.not_eq_true] at hn
      exact .measurer m p _ _ _ hp (.pmopen code k hk hn.1 hn.2)
  | pmstart m =>
    rcases retire_inv h with ⟨c, he, rfl⟩ | ⟨e, he, rfl⟩
    · rcases onMeasurer_error he with rfl | ⟨p, hp, hf⟩
      · exact .error _ _ (by decide)
      · repeat' split at hf
        all_goals cases hf
        all_goals exact .error _ _ (by decide)
    · obtain ⟨p, hp, hf⟩ := onMeasurer_ok he
      split at hf <;> cases hf
      rename_i hn
      simp only [Bool.or_eq_true, Bool.not_eq_true', not_or, Bool.not_eq_false, Bool.not_eq_true] at hn
      exact .measurer m p _ _ _ hp (.pmstart hn.1 hn.2)
  | pmstop m =>
    rcases retire_inv h with ⟨c, he, rfl⟩ | ⟨e, he, rfl⟩
    · rcases onMeasurer_error he with rfl | ⟨p, hp, hf⟩
      · exact .error _ _ (by decide)
      · cases hf
    · obtain ⟨p, hp, hf⟩ := onMeasurer_ok he
      cases hf
      exact .measurer m p _ _ _ hp .pmstop
  | pmclose m =>
    rcases retire_inv h with ⟨c, he, rfl⟩ | ⟨e, he, rfl⟩
    · rcases onMeasurer_error he with rfl | ⟨p, hp, hf⟩
      · exact .error _ _ (by decide)
      · repeat' split at hf
        all_goals cases hf
        all_goals exact .error _ _ (by decide)
    · obtain ⟨p, hp, hf⟩ := onMeasurer_ok he
      split at hf <;> cases hf
      rename_i hn
      exact .measurer m p _ _ _ hp (.pmclose (by simpa using hn))
  | pmrd m =>
    rcases retire_inv h with ⟨c, he, rfl⟩ | ⟨e, he, rfl⟩
    · exact .error _ _ (onReader_error he)
    · obtain ⟨p, hp, ho, hk, rfl⟩ := onReader_ok he
      exact .measurer m p _ _ _ hp (.pmrd ho (by simpa using hk))
  | pmavg m =>
    rcases retire_inv h with ⟨c, he, rfl⟩ | ⟨e, he, rfl⟩
    · exact .error _ _ (onReader_error he)
    · obtain ⟨p, hp, ho, hk, rfl⟩ := onReader_ok he
      exact .measurer m p _ _ _ hp (.pmavg ho (by simpa using hk))
  | ppm m =>
    rcases retire_inv h with ⟨c, he, rfl⟩ | ⟨e, he, rfl⟩
    · exact .error _ _ (onReader_error he)
    · obtain ⟨p, hp, ho, hk, rfl⟩ := onReader_ok he
      exact .measurer m p _ _ _ hp (.ppm ho (by simpa using hk))
  | dens m =>
    rcases retire_inv h with ⟨c, he, rfl⟩ | ⟨e, he, rfl⟩
    · exact .error _ _ (onReader_error he)
    · obtain ⟨p, hp, ho, hk, rfl⟩ := onReader_ok he
      exact .measurer m p _ _ _ hp (.dens ho (by simpa using hk))

/-- Executing a command always answers a next state. -/
theorem exec_next (i : Instr) (s : State) : ∃ t, exec i s = .next t := by
  cases i <;> first | exact ⟨_, rfl⟩ | exact retire_next _ s

end Sys2Proof.Machine
end

