-- ==== Sys2Proof/Laws/Float.lean ====
section
/-! SUPPORT. The floating-point operations: what unpacking and rounding can answer, signs, and what the exact
operations and comparisons do to values (R131, R134). -/

namespace Sys2Proof.Machine

/-- Everything that an encoding can stand for: a NaN, an infinity, or a number whose denominator is 1. -/
theorem unpack_cases (f : FloatFormat) (bits : Nat) :
    unpack f bits = .nan ∨ (∃ neg, unpack f bits = .inf neg) ∨ (∃ neg n e, unpack f bits = .num neg n 1 e) := by
  unfold unpack
  dsimp only
  split
  · split
    · exact .inr (.inl ⟨_, rfl⟩)
    · exact .inl rfl
  · split
    · exact .inr (.inr ⟨_, _, _, rfl⟩)
    · exact .inr (.inr ⟨_, _, _, rfl⟩)

theorem packMagnitude_le (f : FloatFormat) (u : Int) (t : Nat) (inexact : Bool) :
    packMagnitude f u t inexact ≤ infBits f := Nat.min_le_right _ _

/-- Rounding gives a number or an infinity, never bits above an infinity's. -/
theorem roundMagnitude_le (f : FloatFormat) (n d : Nat) (e : Int) : roundMagnitude f n d e ≤ infBits f := by
  unfold roundMagnitude
  split
  · exact Nat.zero_le _
  · exact packMagnitude_le _ _ _ _

/-- The encodings of a NaN: the exponent field is all ones and the fraction is not 0 (R11). -/
theorem unpack_nan {f : FloatFormat} {bits : Nat} (h : unpack f bits = .nan) :
    bits / 2 ^ f.fracBits % 2 ^ f.expBits = 2 ^ f.expBits - 1 ∧ bits % 2 ^ f.fracBits ≠ 0 := by
  unfold unpack at h
  dsimp only at h
  split at h
  · rename_i he
    split at h
    · cases h
    · exact ⟨he, ‹_›⟩
  · split at h <;> cases h

/-- Rounding makes no NaN but the canonical one (R134). -/
theorem nanCanonical_round32 (x : Exact) : nanCanonical (round32 x) := by
  unfold nanCanonical round32 unpack32
  cases x with
  | nan => intro; decide
  | inf n => cases n <;> decide
  | num neg n d e =>
    intro h; exfalso
    have hb := roundMagnitude_le binary32 n d e
    have hi : infBits binary32 = 2139095040 := by decide
    have hs : signWeight binary32 = 2147483648 := by decide
    have h2 := unpack_nan h
    simp only [roundTo, hs, BitVec.toNat_ofNat] at h2
    simp only [binary32] at h2
    rw [hi] at hb
    change roundMagnitude { fracBits := 23, expBits := 8 } n d e ≤ _ at hb
    revert h2 hb
    generalize roundMagnitude { fracBits := 23, expBits := 8 } n d e = k
    cases neg <;> norm_num <;> omega

theorem nanCanonical_zero : nanCanonical 0 := by unfold nanCanonical; decide

theorem powMagnitude_le (f : FloatFormat) (n : Nat) (e : Int) : powMagnitude f n e ≤ infBits f := by
  unfold powMagnitude
  split
  · exact Nat.zero_le _
  · exact packMagnitude_le _ _ _ _

/-- A count of half units is rounded by at most half a unit. -/
theorem roundHalfEven_bounds (t : Nat) (inexact : Bool) :
    t / 2 ≤ roundHalfEven t inexact ∧ roundHalfEven t inexact ≤ t / 2 + 1 := by
  unfold roundHalfEven
  split <;> omega

/-- An even count with nothing left over is not rounded. -/
theorem roundHalfEven_even (k : Nat) (inexact : Bool) : roundHalfEven (2 * k) inexact = k := by
  unfold roundHalfEven
  rw [if_neg (by omega)]
  omega

/-- The integer fifth root found bit by bit: the greatest `r` below `acc + 2 ^ bits` with `r ^ 5 ≤ x`. -/
theorem fifthRootBits_spec (x bits acc : Nat) (h : acc ^ 5 ≤ x) :
    fifthRootBits x bits acc ^ 5 ≤ x ∧ acc ≤ fifthRootBits x bits acc ∧
      fifthRootBits x bits acc < acc + 2 ^ bits ∧
      (x < (acc + 2 ^ bits) ^ 5 → x < (fifthRootBits x bits acc + 1) ^ 5) := by
  induction bits generalizing acc with
  | zero => exact ⟨h, le_refl _, by simp [fifthRootBits], fun hx => by simpa [fifthRootBits] using hx⟩
  | succ b ih =>
    have h2 : 2 ^ (b + 1) = 2 ^ b + 2 ^ b := by ring
    unfold fifthRootBits
    split
    · rename_i hb
      obtain ⟨i1, i2, i3, i4⟩ := ih _ hb
      exact ⟨i1, by omega, by omega, fun hx => i4 (by rw [Nat.add_assoc, ← h2]; exact hx)⟩
    · rename_i hb
      obtain ⟨i1, i2, i3, i4⟩ := ih _ h
      exact ⟨i1, i2, by omega, fun _ => i4 (by omega)⟩

/-- A finite encoding has a value, and only a finite one. -/
theorem exactValue_isSome (x : Exact) : (exactValue x).isSome = true ↔ ∃ neg n d e, x = .num neg n d e := by
  cases x <;> simp [exactValue]

/-- The exact operations compute with the values of their operands. -/
theorem exactValue_neg (x : Exact) : exactValue (exactNeg x) = (exactValue x).map (fun q => -q) := by
  cases x with
  | nan => rfl
  | inf neg => rfl
  | num neg n d e => cases neg <;> simp [exactNeg, exactValue]

theorem exactValue_mul (s₁ s₂ : Bool) (n₁ d₁ n₂ d₂ : Nat) (e₁ e₂ : Int) :
    exactValue (exactMul (.num s₁ n₁ d₁ e₁) (.num s₂ n₂ d₂ e₂)) =
      some (((if s₁ then -1 else 1) * ((n₁ : ℚ) / d₁) * 2 ^ e₁) *
        ((if s₂ then -1 else 1) * ((n₂ : ℚ) / d₂) * 2 ^ e₂)) := by
  have h : (2 : ℚ) ^ (e₁ + e₂) = 2 ^ e₁ * 2 ^ e₂ := zpow_add₀ (by norm_num) _ _
  cases s₁ <;> cases s₂ <;> simp [exactMul, exactValue, h] <;> ring

/-- The sign of an exact value that is not NaN. -/
def signOf : Exact → Bool
  | .nan => false
  | .inf s => s
  | .num s _ _ _ => s

/-- The sign of what an encoding stands for is its top bit (R11). -/
theorem unpack32_sign {x : F32} (h : unpack32 x ≠ .nan) : signOf (unpack32 x) = x.msb := by
  have hs : signWeight binary32 = 2147483648 := by decide
  have hx := x.isLt
  have hm : x.msb = (x.toNat / signWeight binary32 % 2 == 1) := by
    rw [BitVec.msb_eq_decide, hs]
    rw [Bool.eq_iff_iff]; simp; omega
  rw [hm]
  revert h
  unfold unpack32 unpack
  dsimp only
  split
  · split
    · intro; rfl
    · intro h; exact absurd rfl h
  · split <;> intro <;> rfl

theorem unpack64_sign {x : F64} (h : unpack64 x ≠ .nan) : signOf (unpack64 x) = x.msb := by
  have hs : signWeight binary64 = 9223372036854775808 := by decide
  have hx := x.isLt
  have hm : x.msb = (x.toNat / signWeight binary64 % 2 == 1) := by
    rw [BitVec.msb_eq_decide, hs]
    rw [Bool.eq_iff_iff]; simp; omega
  rw [hm]
  revert h
  unfold unpack64 unpack
  dsimp only
  split
  · split
    · intro; rfl
    · intro h; exact absurd rfl h
  · split <;> intro <;> rfl

/-- Rounding keeps the sign, of zeros and infinities too (R131). -/
theorem round32_msb {x : Exact} (h : x ≠ .nan) : (round32 x).msb = signOf x := by
  have hs : signWeight binary32 = 2147483648 := by decide
  have hi : infBits binary32 = 2139095040 := by decide
  cases x with
  | nan => exact absurd rfl h
  | inf s => cases s <;> decide
  | num s n d e =>
    have hb := roundMagnitude_le binary32 n d e
    rw [hi] at hb
    change (BitVec.ofNat 32 ((if s then signWeight binary32 else 0) + roundMagnitude binary32 n d e)).msb = s
    generalize roundMagnitude binary32 n d e = k at hb ⊢
    rw [BitVec.msb_eq_decide, BitVec.toNat_ofNat, hs]
    cases s <;> simp <;> omega

theorem round64_msb {x : Exact} (h : x ≠ .nan) : (round64 x).msb = signOf x := by
  have hs : signWeight binary64 = 9223372036854775808 := by decide
  have hi : infBits binary64 = 9218868437227405312 := by decide
  cases x with
  | nan => exact absurd rfl h
  | inf s => cases s <;> decide
  | num s n d e =>
    have hb := roundMagnitude_le binary64 n d e
    rw [hi] at hb
    change (BitVec.ofNat 64 ((if s then signWeight binary64 else 0) + roundMagnitude binary64 n d e)).msb = s
    generalize roundMagnitude binary64 n d e = k at hb ⊢
    rw [BitVec.msb_eq_decide, BitVec.toNat_ofNat, hs]
    cases s <;> simp <;> omega

@[simp] theorem unpack32_round_nan : unpack32 (round32 .nan) = .nan := by decide
@[simp] theorem unpack64_round_nan : unpack64 (round64 .nan) = .nan := by decide
@[simp] theorem unpack32_round_inf (s : Bool) : unpack32 (round32 (.inf s)) = .inf s := by cases s <;> decide
@[simp] theorem unpack64_round_inf (s : Bool) : unpack64 (round64 (.inf s)) = .inf s := by cases s <;> decide

/-- A zero keeps its sign. -/
theorem round_zero (f : FloatFormat) (s : Bool) (d : Nat) (e : Int) :
    roundTo f (.num s 0 d e) = if s then signWeight f else 0 := by simp [roundTo, roundMagnitude]

/-- A finite encoding unpacks to a number with the sign of its top bit and denominator 1. -/
theorem unpack32_num {x : F32} {q : ℚ} (h : exactValue (unpack32 x) = some q) :
    ∃ n e, unpack32 x = .num x.msb n 1 e := by
  obtain h1 | ⟨s, h1⟩ | ⟨s, n, e, h1⟩ := unpack_cases binary32 x.toNat
  · rw [unpack32, h1] at h; cases h
  · rw [unpack32, h1] at h; cases h
  · have h2 : unpack32 x = .num s n 1 e := h1
    have h3 : signOf (unpack32 x) = x.msb := unpack32_sign (by rw [h2]; exact fun h => by cases h)
    rw [h2] at h3
    exact ⟨n, e, by rw [h2, ← h3]; rfl⟩

theorem unpack64_num {x : F64} {q : ℚ} (h : exactValue (unpack64 x) = some q) :
    ∃ n e, unpack64 x = .num x.msb n 1 e := by
  obtain h1 | ⟨s, h1⟩ | ⟨s, n, e, h1⟩ := unpack_cases binary64 x.toNat
  · rw [unpack64, h1] at h; cases h
  · rw [unpack64, h1] at h; cases h
  · have h2 : unpack64 x = .num s n 1 e := h1
    have h3 : signOf (unpack64 x) = x.msb := unpack64_sign (by rw [h2]; exact fun h => by cases h)
    rw [h2] at h3
    exact ⟨n, e, by rw [h2, ← h3]; rfl⟩

/-- The value of a number over a common power of two. -/
theorem signed_value (s : Bool) (n d : Nat) (e m : Int) (h : m ≤ e) :
    (if s then -1 else 1 : ℚ) * ((n : ℚ) / d) * (2 : ℚ) ^ e =
      (signed s (n * 2 ^ (e - m).toNat) : ℚ) / d * (2 : ℚ) ^ m := by
  obtain ⟨k, rfl⟩ := Int.le.dest h
  rw [zpow_add₀ (by norm_num)]
  cases s <;> simp [signed] <;> ring

/-- The comparisons compare values (R134). -/
theorem exactLt_value (s₁ s₂ : Bool) (n₁ n₂ : Nat) (e₁ e₂ : Int) :
    exactLt (.num s₁ n₁ 1 e₁) (.num s₂ n₂ 1 e₂) = true ↔
      (if s₁ then -1 else 1 : ℚ) * ((n₁ : ℚ) / (1 : ℕ)) * (2 : ℚ) ^ e₁ <
        (if s₂ then -1 else 1) * ((n₂ : ℚ) / (1 : ℕ)) * (2 : ℚ) ^ e₂ := by
  have hp : (0 : ℚ) < 2 ^ min e₁ e₂ := by positivity
  rw [signed_value s₁ n₁ 1 e₁ (min e₁ e₂) (min_le_left _ _), signed_value s₂ n₂ 1 e₂ (min e₁ e₂) (min_le_right _ _)]
  simp only [exactLt, Nat.mul_one, decide_eq_true_eq, Nat.cast_one, div_one,
    mul_lt_mul_iff_of_pos_right hp, Int.cast_lt]

theorem exactEq_value (s₁ s₂ : Bool) (n₁ n₂ : Nat) (e₁ e₂ : Int) :
    exactEq (.num s₁ n₁ 1 e₁) (.num s₂ n₂ 1 e₂) = true ↔
      (if s₁ then -1 else 1 : ℚ) * ((n₁ : ℚ) / (1 : ℕ)) * (2 : ℚ) ^ e₁ =
        (if s₂ then -1 else 1) * ((n₂ : ℚ) / (1 : ℕ)) * (2 : ℚ) ^ e₂ := by
  have hp : (2 : ℚ) ^ min e₁ e₂ ≠ 0 := by positivity
  rw [signed_value s₁ n₁ 1 e₁ (min e₁ e₂) (min_le_left _ _), signed_value s₂ n₂ 1 e₂ (min e₁ e₂) (min_le_right _ _)]
  simp only [exactEq, Nat.mul_one, decide_eq_true_eq, Nat.cast_one, div_one, mul_left_inj' hp, Int.cast_inj]

/-- A number has the value 0 exactly when its numerator is 0. -/
theorem exactValue_num_zero (s : Bool) (n : Nat) (e : Int) : exactValue (.num s n 1 e) = some 0 ↔ n = 0 := by
  have h : (2 : ℚ) ^ e ≠ 0 := by positivity
  cases s <;> simp [exactValue, h]

/-- The exact sum has the value of the sum. -/
theorem exactAdd_value (s₁ s₂ : Bool) (n₁ n₂ : Nat) (e₁ e₂ : Int) :
    exactValue (exactAdd (.num s₁ n₁ 1 e₁) (.num s₂ n₂ 1 e₂)) =
      some ((if s₁ then -1 else 1) * ((n₁ : ℚ) / (1 : ℕ)) * (2 : ℚ) ^ e₁ +
        (if s₂ then -1 else 1) * ((n₂ : ℚ) / (1 : ℕ)) * (2 : ℚ) ^ e₂) := by
  rw [signed_value s₁ n₁ 1 e₁ (min e₁ e₂) (min_le_left _ _), signed_value s₂ n₂ 1 e₂ (min e₁ e₂) (min_le_right _ _)]
  simp only [exactAdd, Nat.mul_one, exactValue, Nat.cast_one, div_one, ← add_mul, ← Int.cast_add]
  generalize signed s₁ _ + signed s₂ _ = x
  congr 2
  split
  · simp_all
  · rename_i h
    rcases lt_or_gt_of_ne h with h | h
    · simp [h, abs_of_neg h]
    · simp [not_lt.mpr h.le, abs_of_pos h]

/-- A sum that is 0 is negative only for two negative summands. -/
theorem exactAdd_sign (s₁ s₂ : Bool) (n₁ n₂ : Nat) (e₁ e₂ : Int)
    (h : exactValue (exactAdd (.num s₁ n₁ 1 e₁) (.num s₂ n₂ 1 e₂)) = some 0) :
    signOf (exactAdd (.num s₁ n₁ 1 e₁) (.num s₂ n₂ 1 e₂)) = (s₁ && s₂) := by
  simp only [exactAdd, Nat.mul_one, exactValue_num_zero, Int.natAbs_eq_zero] at h
  simp only [exactAdd, Nat.mul_one, h, if_true, signOf]

/-- `x == 0` holds of the values that are 0 and of nothing else (R134). -/
theorem exactEq_zero (s : Bool) (n : Nat) (e : Int) : exactEq (.num s n 1 e) (exactInt 0) = true ↔ n = 0 := by
  rw [show exactInt 0 = .num false 0 1 0 from rfl, exactEq_value, ← exactValue_num_zero s n e, exactValue]
  simp

/-- A number is a zero exactly when the exponent and the fraction field are 0 (R11). -/
theorem unpack_num_zero (f : FloatFormat) {bits n : Nat} {s : Bool} {e : Int} (hu : unpack f bits = .num s n 1 e) :
    n = 0 ↔ bits / 2 ^ f.fracBits % 2 ^ f.expBits = 0 ∧ bits % 2 ^ f.fracBits = 0 := by
  unfold unpack at hu
  dsimp only at hu
  split at hu
  · split at hu <;> cases hu
  · split at hu
    · cases hu; simp_all
    · cases hu
      have : 0 < 2 ^ f.fracBits := by positivity
      constructor
      · intro; omega
      · rintro ⟨h1, -⟩; contradiction

end Sys2Proof.Machine
end

