-- ==== Sys2Proof/Laws/Measurer.lean ====
section
/-! SUPPORT. What the background operations can do, said once (R200 to R206). -/

namespace Sys2Proof.Machine

/-- The FIFO never grows beyond its capacity (R36, R203). -/
theorem pushWidth_length_le (q : List Word) (w : Word) (h : q.length ≤ 10) : (pushWidth q w).length ≤ 10 := by
  unfold pushWidth
  split
  · rename_i h'
    have : q.length = 10 := h'
    simp [this]
  · rename_i h'
    have : q.length ≠ 10 := h'
    simp
    omega

theorem pushWidth_ne_nil (q : List Word) (w : Word) : pushWidth q w ≠ [] := by
  unfold pushWidth
  split <;> simp

/-- Everything that the prologue can answer (R205). -/
theorem backgroundPrologue_cases (p : Measurer) :
    (p.stopReq = true ∧ backgroundPrologue p = some { p with run := false, stopReq := false }) ∨
    (p.stopReq = false ∧ p.opened = false ∧ backgroundPrologue p = some { p with pinErr := true, run := false }) ∨
    (p.stopReq = false ∧ p.opened = true ∧ backgroundPrologue p = none) := by
  unfold backgroundPrologue
  cases p.stopReq <;> cases p.opened <;> simp

/-- Everything that an observation can do (R201). -/
theorem observe_cases (level : Bool) (now : Word) (p : Measurer) :
    (p.st = .waitingForRise ∧ level = true ∧
      observe level now p = { p with startTime := now, st := .waitingForFall }) ∨
    (p.st = .waitingForFall ∧ level = false ∧ observe level now p = recordFall now p) ∨
    ((p.st = .waitingForRise ∧ level = false ∨ p.st = .waitingForFall ∧ level = true) ∧ observe level now p = p) := by
  unfold observe
  cases h : p.st <;> cases level <;> simp

/-- What a fall does in each strategy (R201). -/
theorem recordFall_cycle (now : Word) (p : Measurer) (h : p.strat = .cycle) :
    recordFall now p =
      { p with endTime := now, st := .waitingForRise, acc := p.acc + (now - p.startTime) } := by
  simp [recordFall, h]

theorem recordFall_epoll (now : Word) (p : Measurer) (h : p.strat = .epoll) :
    recordFall now p =
      { p with endTime := now, st := .waitingForRise, pw := now - p.startTime, pwV := true } := by
  simp [recordFall, h]

theorem recordFall_eirq (now : Word) (p : Measurer) (h : p.strat = .eirq) :
    recordFall now p =
      { p with endTime := now, st := .waitingForRise, pw := now - p.startTime, pwV := true
               fifo := pushWidth p.fifo (now - p.startTime) } := by
  simp [recordFall, h]

/-- An observation never changes the strategy, the handle or the lifecycle bits. -/
theorem observe_keeps (level : Bool) (now : Word) (p : Measurer) :
    (observe level now p).strat = p.strat ∧ (observe level now p).opened = p.opened ∧
    (observe level now p).run = p.run ∧ (observe level now p).stopReq = p.stopReq ∧
    (observe level now p).pinErr = p.pinErr := by
  rcases observe_cases level now p with ⟨_, _, h⟩ | ⟨_, _, h⟩ | ⟨_, h⟩ <;> rw [h]
  · exact ⟨rfl, rfl, rfl, rfl, rfl⟩
  · cases hk : p.strat <;> simp [recordFall, hk]
  · exact ⟨rfl, rfl, rfl, rfl, rfl⟩

/-- Everything that the window test can do (R202). -/
theorem windowCheck_cases (now : Word) (p : Measurer) :
    (30000 ≤ (now - p.winStart).toNat ∧
      windowCheck now p =
        { p with pubLen := now - p.winStart, pubOn := p.acc, pubV := true, winStart := now, acc := 0 }) ∨
    ((now - p.winStart).toNat < 30000 ∧ windowCheck now p = p) := by
  unfold windowCheck
  by_cases h : 30000 ≤ (now - p.winStart).toNat
  · exact .inl ⟨h, if_pos h⟩
  · exact .inr ⟨by omega, if_neg h⟩

/-- Everything that a poll turn can do (R200, R206). -/
theorem pollStep_cases (m : BitVec 4) (s : State) :
    pollStep m s = s ∨
    ∃ p, s.pm? m = some p ∧ pollEnabled p = true ∧
      pollStep m s = s.setPm m (pollOnce (pinLevel m s) s.bench.time p) := by
  unfold pollStep
  cases h : s.pm? m with
  | none => exact .inl rfl
  | some p =>
    cases he : pollEnabled p
    · exact .inl (by simp [he])
    · exact .inr ⟨p, rfl, he, by simp [he]⟩

/-- Everything that an edge notification can do (R204, R206). -/
theorem edgeStep_cases (m : BitVec 4) (s : State) :
    edgeStep m s = s ∨
    ∃ p, s.pm? m = some p ∧ edgeEnabled p = true ∧
      edgeStep m s = s.setPm m (edgeOnce (pinLevel m s) s.bench.time p) := by
  unfold edgeStep
  cases h : s.pm? m with
  | none => exact .inl rfl
  | some p =>
    cases he : edgeEnabled p
    · exact .inl (by simp [he])
    · exact .inr ⟨p, rfl, he, by simp [he]⟩

end Sys2Proof.Machine
end

