-- ==== Sys2Proof/Laws/Memory.lean ====
section
/-! SUPPORT. The images: a read after a write, and the canonical form kept by every operation (R65, R69). -/

namespace Sys2Proof.Machine

@[simp] theorem read_nil (a : Nat) : Memory.read [] a = none := rfl

theorem read_cons (k : Nat) (v : Byte) (m : Memory) (a : Nat) :
    Memory.read ((k, v) :: m) a = if a = k then some v else Memory.read m a := rfl

/-- A read after a write to the same cell gives the byte written. -/
@[simp] theorem read_write_same (m : Memory) (a : Nat) (d : Byte) : (Memory.write m a d).read a = some d := by
  induction m with
  | nil => simp [Memory.write, Memory.read]
  | cons c m ih =>
    obtain ⟨k, v⟩ := c
    simp only [Memory.write]
    split
    · simp [read_cons]
    · split
      · simp [read_cons]
      · simp [read_cons, *]

/-- A write leaves every other cell alone. -/
theorem read_write_other (m : Memory) (a b : Nat) (d : Byte) (h : b ≠ a) :
    (Memory.write m a d).read b = m.read b := by
  induction m with
  | nil => simp [Memory.write, Memory.read, h]
  | cons c m ih =>
    obtain ⟨k, v⟩ := c
    simp only [Memory.write]
    split
    · simp [read_cons, h]
    · split
      · subst_vars; simp [read_cons, h]
      · simp [read_cons, ih]

/-- What a write lists: the cell written, or a cell listed before. -/
theorem mem_write (m : Memory) (a : Nat) (d : Byte) (c : Host.Cell) (h : c ∈ Memory.write m a d) :
    c = (a, d) ∨ c ∈ m := by
  induction m with
  | nil => simpa [Memory.write] using h
  | cons x m ih =>
    obtain ⟨k, v⟩ := x
    simp only [Memory.write] at h
    split at h
    · simpa using h
    · split at h
      · simp at h; tauto
      · simp at h ⊢; tauto

theorem wf_nil (size : Nat) : Memory.wf size [] := by simp [Memory.wf]

/-- A write within the image keeps the canonical form. -/
theorem wf_write (size : Nat) (m : Memory) (a : Nat) (d : Byte) (ha : a < size) (h : Memory.wf size m) :
    Memory.wf size (Memory.write m a d) := by
  refine ⟨?_, fun c hc => ?_⟩
  · have hs := h.1
    clear h
    induction m with
    | nil => simp [Memory.write]
    | cons x m ih =>
      obtain ⟨k, v⟩ := x
      simp only [List.map_cons, List.pairwise_cons, List.mem_map, forall_exists_index, and_imp,
        forall_apply_eq_imp_iff₂] at hs
      simp only [Memory.write]
      split
      · simp only [List.map_cons, List.pairwise_cons, List.mem_cons, List.mem_map]
        refine ⟨?_, ?_, hs.2⟩
        · rintro b (rfl | ⟨c, hc, rfl⟩)
          · assumption
          · exact lt_trans ‹_› (hs.1 c hc)
        · rintro b ⟨c, hc, rfl⟩
          exact hs.1 c hc
      · split
        · subst_vars
          simp only [List.map_cons, List.pairwise_cons, List.mem_map]
          refine ⟨?_, hs.2⟩
          rintro b ⟨c, hc, rfl⟩
          exact hs.1 c hc
        · simp only [List.map_cons, List.pairwise_cons, List.mem_map]
          refine ⟨?_, ih hs.2⟩
          rintro b ⟨c, hc, rfl⟩
          rcases mem_write m a d c hc with rfl | hm
          · show k < a
            omega
          · exact hs.1 c hm
  · rcases mem_write m a d c hc with rfl | hm
    · exact ha
    · exact h.2 c hm

/-- A cell outside a well-formed image is unwritten. -/
theorem read_outside (size : Nat) (m : Memory) (a : Nat) (h : Memory.wf size m) (ha : size ≤ a) : m.read a = none := by
  have hb := h.2
  clear h
  induction m with
  | nil => rfl
  | cons c m ih =>
    obtain ⟨k, v⟩ := c
    have hk : k < size := hb (k, v) (by simp)
    rw [read_cons, if_neg (by omega)]
    exact ih fun c hc => hb c (by simp [hc])

/-- The images of the reset state are canonical (R54). -/
theorem reset_env_wf : Memory.wf envSize State.reset.env := wf_nil _
theorem reset_luxi_wf : Memory.wf luxiSize State.reset.luxi := wf_nil _

end Sys2Proof.Machine
end

