-- ==== Sys2Proof/Laws/Operands.lean ====
section
/-! SUPPORT. The operand forms as arithmetic (R77, R110, R122): the fields never overlap, so OR is addition. -/

namespace Sys2Proof.Machine

/-- Shifts and ORs of a 16-bit word put together from two bytes. -/
theorem orBytes_toNat (hi lo : Byte) :
    (lo.setWidth 16 ||| (hi.setWidth 16 <<< 8)).toNat = lo.toNat + 256 * hi.toNat := by
  have hl := lo.isLt
  have hh := hi.isLt
  have h1 : (hi.setWidth 16 <<< 8).toNat = 2 ^ 8 * hi.toNat := by
    simp [BitVec.toNat_shiftLeft, Nat.shiftLeft_eq]; omega
  have h2 : (lo.setWidth 16).toNat = lo.toNat := by simp; omega
  rw [BitVec.toNat_or, h1, h2, Nat.or_comm, ← Nat.two_pow_add_eq_or_of_lt hl]
  ring

/-- `word_le(a)` answers exactly when both cells are written, with the low byte at the lower address. -/
theorem wordLE_spec (m : Memory) (a : Nat) (w : BitVec 16) :
    wordLE m a = some w ↔
      ∃ lo hi, m.read a = some lo ∧ m.read (a + 1) = some hi ∧ w.toNat = lo.toNat + 256 * hi.toNat := by
  unfold wordLE
  constructor
  · intro h
    split at h
    · rename_i lo hi h1 h2
      exact ⟨lo, hi, h1, h2, by rw [← Option.some.inj h, orBytes_toNat]⟩
    · cases h
  · rintro ⟨lo, hi, h1, h2, e⟩
    simp only [h1, h2, Option.some.injEq]
    exact BitVec.eq_of_toNat_eq (by rw [orBytes_toNat, e])

theorem wordLE_none (m : Memory) (a : Nat) : wordLE m a = none ↔ m.read a = none ∨ m.read (a + 1) = none := by
  unfold wordLE
  cases m.read a <;> cases m.read (a + 1) <;> simp

theorem raw16_spec (m : Memory) (a : Nat) (w : BitVec 16) :
    raw16 m a = some w ↔
      ∃ msb lsb, m.read a = some msb ∧ m.read (a + 1) = some lsb ∧ w.toNat = 256 * msb.toNat + lsb.toNat := by
  unfold raw16
  have e (msb lsb : Byte) : (msb.setWidth 16 <<< 8 ||| lsb.setWidth 16).toNat = 256 * msb.toNat + lsb.toNat := by
    rw [BitVec.or_comm, orBytes_toNat, Nat.add_comm]
  constructor
  · intro h
    split at h
    · rename_i msb lsb h1 h2
      exact ⟨msb, lsb, h1, h2, by rw [← Option.some.inj h, e]⟩
    · cases h
  · rintro ⟨msb, lsb, h1, h2, he⟩
    simp only [h1, h2, Option.some.injEq]
    exact BitVec.eq_of_toNat_eq (by rw [e, he])

theorem raw16_none (m : Memory) (a : Nat) : raw16 m a = none ↔ m.read a = none ∨ m.read (a + 1) = none := by
  unfold raw16
  cases m.read a <;> cases m.read (a + 1) <;> simp

/-- Shifts and ORs of a 20-bit sample put together from three bytes. -/
theorem orSample_toNat (x y z : Byte) :
    ((x.setWidth 20 <<< 12) ||| (y.setWidth 20 <<< 4) ||| (z >>> 4).setWidth 20).toNat =
      4096 * x.toNat + 16 * y.toNat + z.toNat / 16 := by
  have hx := x.isLt
  have hy := y.isLt
  have hz := z.isLt
  have h1 : (x.setWidth 20 <<< 12).toNat = 2 ^ 12 * x.toNat := by
    simp [BitVec.toNat_shiftLeft, Nat.shiftLeft_eq]; omega
  have h2 : (y.setWidth 20 <<< 4).toNat = 2 ^ 4 * y.toNat := by
    simp [BitVec.toNat_shiftLeft, Nat.shiftLeft_eq]; omega
  have h3 : ((z >>> 4).setWidth 20).toNat = z.toNat / 16 := by
    simp [BitVec.toNat_ushiftRight, Nat.shiftRight_eq_div_pow]; omega
  rw [BitVec.toNat_or, BitVec.toNat_or, h1, h2, h3, ← Nat.two_pow_add_eq_or_of_lt (by omega : 2 ^ 4 * y.toNat < 2 ^ 12)]
  have h4 : 2 ^ 12 * x.toNat + 2 ^ 4 * y.toNat = 2 ^ 4 * (256 * x.toNat + y.toNat) := by ring
  rw [h4, ← Nat.two_pow_add_eq_or_of_lt (by omega : z.toNat / 16 < 2 ^ 4)]
  ring

theorem raw20_spec (m : Memory) (a : Nat) (w : BitVec 20) :
    raw20 m a = some w ↔
      ∃ x y z, m.read a = some x ∧ m.read (a + 1) = some y ∧ m.read (a + 2) = some z ∧
        w.toNat = 4096 * x.toNat + 16 * y.toNat + z.toNat / 16 := by
  unfold raw20
  constructor
  · intro h
    split at h
    · rename_i x y z h1 h2 h3
      exact ⟨x, y, z, h1, h2, h3, by rw [← Option.some.inj h, orSample_toNat]⟩
    · cases h
  · rintro ⟨x, y, z, h1, h2, h3, e⟩
    simp only [h1, h2, h3, Option.some.injEq]
    exact BitVec.eq_of_toNat_eq (by rw [orSample_toNat, e])

theorem raw20_none (m : Memory) (a : Nat) :
    raw20 m a = none ↔ m.read a = none ∨ m.read (a + 1) = none ∨ m.read (a + 2) = none := by
  unfold raw20
  cases m.read a <;> cases m.read (a + 1) <;> cases m.read (a + 2) <;> simp

/-- A word taken as a two's complement number (R10). -/
theorem toInt_eq_s16 (w : BitVec 16) : w.toInt = s16 w.toNat := by
  have := w.isLt
  unfold s16
  rw [BitVec.toInt_eq_toNat_cond]
  split <;> split <;> omega

/-- A byte taken as a two's complement number (R10). -/
theorem toInt_eq_s8 (b : Byte) : b.toInt = s8 b.toNat := by
  have := b.isLt
  unfold s8
  rw [BitVec.toInt_eq_toNat_cond]
  split <;> split <;> omega

/-- The cell of a `LUXI` address is one of the 16. -/
theorem luxiCell_lt {a : Byte} {c : Nat} (h : luxiCell a = some c) : c < luxiSize := by
  unfold luxiCell at h
  split at h
  · rw [← Option.some.inj h]; exact (a.extractLsb' 0 4).isLt
  · cases h

/-- The address check of R77 is the static one. -/
theorem luxiCell_isSome (a : Byte) : (luxiCell a).isSome = wrbAddressOk .luxi a := by
  unfold luxiCell wrbAddressOk
  split <;> simp_all

/-- The strategy codes that select a strategy are the static ones (R181). -/
theorem strategyOf_isSome (s : BitVec 2) : (strategyOf s).isSome = strategyCodeOk s := by
  revert s; decide

/-- A strategy's code selects it (R181). -/
@[simp] theorem strategyOf_code_of (k : Strategy) : strategyOf k.code = some k := by
  cases k <;> rfl

end Sys2Proof.Machine
end

