-- ==== Sys2Proof/Laws/PerInstr.lean ====
section
/-! SUPPORT. Statements made for every command, one lemma a constructor (LAWS.json). -/

namespace Sys2Proof.Laws.EncodesItsRow

/-- The word of a command spells its row of the opcode table: `(w & mask) = match` (R84). -/
def Statement (i : Instr) : Prop := encode i &&& rowMask i = rowMatch i

theorem nop : Statement .nop := by unfold Statement; decide
theorem wrb (sp : Space) (a d : Byte) : Statement (.wrb sp a d) := by
  unfold Statement
  apply BitVec.eq_of_getLsbD_eq
  intro i hi
  simp only [encode, rowMask, rowMatch, assemble, BitVec.getLsbD_and, BitVec.getLsbD_append]
  cases sp <;> interval_cases i <;> simp [Space.bit]
theorem wrc (imm3 : BitVec 3) : Statement (.wrc imm3) := by unfold Statement; revert imm3; decide
theorem envclose : Statement .envclose := by unfold Statement; decide
theorem srst : Statement .srst := by unfold Statement; decide
theorem calt : Statement .calt := by unfold Statement; decide
theorem calp : Statement .calp := by unfold Statement; decide
theorem calh : Statement .calh := by unfold Statement; decide
theorem dect : Statement .dect := by unfold Statement; decide
theorem decp : Statement .decp := by unfold Statement; decide
theorem dech : Statement .dech := by unfold Statement; decide
theorem compt : Statement .compt := by unfold Statement; decide
theorem compp : Statement .compp := by unfold Statement; decide
theorem comph : Statement .comph := by unfold Statement; decide
theorem lux : Statement .lux := by unfold Statement; decide
theorem pmopen (m : BitVec 4) (s : BitVec 2) : Statement (.pmopen m s) := by unfold Statement; revert m s; decide
theorem pmstart (m : BitVec 4) : Statement (.pmstart m) := by unfold Statement; revert m; decide
theorem pmstop (m : BitVec 4) : Statement (.pmstop m) := by unfold Statement; revert m; decide
theorem pmclose (m : BitVec 4) : Statement (.pmclose m) := by unfold Statement; revert m; decide
theorem pmrd (m : BitVec 4) : Statement (.pmrd m) := by unfold Statement; revert m; decide
theorem pmavg (m : BitVec 4) : Statement (.pmavg m) := by unfold Statement; revert m; decide
theorem ppm (m : BitVec 4) : Statement (.ppm m) := by unfold Statement; revert m; decide
theorem dens (m : BitVec 4) : Statement (.dens m) := by unfold Statement; revert m; decide

end Sys2Proof.Laws.EncodesItsRow
end

