-- ==== Sys2Proof/Laws/State.lean ====
section
/-! SUPPORT. One lemma per field per update of the state, each true by `rfl`: no later proof unfolds a record update. -/

namespace Sys2Proof.Machine

/-! ### `raiseErr` -/

@[simp] theorem raiseErr_status_err (code : ErrCode) (s : State) : (raiseErr code s).status.err = code := rfl
@[simp] theorem raiseErr_status_sent (code : ErrCode) (s : State) : (raiseErr code s).status.sent = false := rfl
@[simp] theorem raiseErr_status_tv (code : ErrCode) (s : State) : (raiseErr code s).status.tv = s.status.tv := rfl
@[simp] theorem raiseErr_status_pv (code : ErrCode) (s : State) : (raiseErr code s).status.pv = s.status.pv := rfl
@[simp] theorem raiseErr_status_hv (code : ErrCode) (s : State) : (raiseErr code s).status.hv = s.status.hv := rfl
@[simp] theorem raiseErr_status_rtv (code : ErrCode) (s : State) : (raiseErr code s).status.rtv = s.status.rtv := rfl
@[simp] theorem raiseErr_status_rpv (code : ErrCode) (s : State) : (raiseErr code s).status.rpv = s.status.rpv := rfl
@[simp] theorem raiseErr_status_rhv (code : ErrCode) (s : State) : (raiseErr code s).status.rhv = s.status.rhv := rfl
@[simp] theorem raiseErr_status_ftv (code : ErrCode) (s : State) : (raiseErr code s).status.ftv = s.status.ftv := rfl
@[simp] theorem raiseErr_status_timf (code : ErrCode) (s : State) : (raiseErr code s).status.timf = s.status.timf := rfl
@[simp] theorem raiseErr_status_fault (code : ErrCode) (s : State) : (raiseErr code s).status.fault = true := rfl
@[simp] theorem raiseErr_ctrl (code : ErrCode) (s : State) : (raiseErr code s).ctrl = s.ctrl := rfl
@[simp] theorem raiseErr_temp (code : ErrCode) (s : State) : (raiseErr code s).temp = s.temp := rfl
@[simp] theorem raiseErr_ft (code : ErrCode) (s : State) : (raiseErr code s).ft = s.ft := rfl
@[simp] theorem raiseErr_press (code : ErrCode) (s : State) : (raiseErr code s).press = s.press := rfl
@[simp] theorem raiseErr_hum (code : ErrCode) (s : State) : (raiseErr code s).hum = s.hum := rfl
@[simp] theorem raiseErr_luxR (code : ErrCode) (s : State) : (raiseErr code s).luxR = s.luxR := rfl
@[simp] theorem raiseErr_rawT (code : ErrCode) (s : State) : (raiseErr code s).rawT = s.rawT := rfl
@[simp] theorem raiseErr_rawP (code : ErrCode) (s : State) : (raiseErr code s).rawP = s.rawP := rfl
@[simp] theorem raiseErr_rawH (code : ErrCode) (s : State) : (raiseErr code s).rawH = s.rawH := rfl
@[simp] theorem raiseErr_calT (code : ErrCode) (s : State) : (raiseErr code s).calT = s.calT := rfl
@[simp] theorem raiseErr_calP (code : ErrCode) (s : State) : (raiseErr code s).calP = s.calP := rfl
@[simp] theorem raiseErr_calH (code : ErrCode) (s : State) : (raiseErr code s).calH = s.calH := rfl
@[simp] theorem raiseErr_env (code : ErrCode) (s : State) : (raiseErr code s).env = s.env := rfl
@[simp] theorem raiseErr_luxi (code : ErrCode) (s : State) : (raiseErr code s).luxi = s.luxi := rfl
@[simp] theorem raiseErr_pms (code : ErrCode) (s : State) : (raiseErr code s).pms = s.pms := rfl
@[simp] theorem raiseErr_bench (code : ErrCode) (s : State) : (raiseErr code s).bench = s.bench := rfl

/-! ### `complete` -/

@[simp] theorem complete_status_err (sent : Bool) (s : State) : (complete sent s).status.err = .ok := rfl
@[simp] theorem complete_status_sent (sent : Bool) (s : State) : (complete sent s).status.sent = sent := rfl
@[simp] theorem complete_status_tv (sent : Bool) (s : State) : (complete sent s).status.tv = s.status.tv := rfl
@[simp] theorem complete_status_pv (sent : Bool) (s : State) : (complete sent s).status.pv = s.status.pv := rfl
@[simp] theorem complete_status_hv (sent : Bool) (s : State) : (complete sent s).status.hv = s.status.hv := rfl
@[simp] theorem complete_status_rtv (sent : Bool) (s : State) : (complete sent s).status.rtv = s.status.rtv := rfl
@[simp] theorem complete_status_rpv (sent : Bool) (s : State) : (complete sent s).status.rpv = s.status.rpv := rfl
@[simp] theorem complete_status_rhv (sent : Bool) (s : State) : (complete sent s).status.rhv = s.status.rhv := rfl
@[simp] theorem complete_status_ftv (sent : Bool) (s : State) : (complete sent s).status.ftv = s.status.ftv := rfl
@[simp] theorem complete_status_timf (sent : Bool) (s : State) : (complete sent s).status.timf = s.status.timf := rfl
@[simp] theorem complete_status_fault (sent : Bool) (s : State) : (complete sent s).status.fault = s.status.fault := rfl
@[simp] theorem complete_ctrl (sent : Bool) (s : State) : (complete sent s).ctrl = s.ctrl := rfl
@[simp] theorem complete_temp (sent : Bool) (s : State) : (complete sent s).temp = s.temp := rfl
@[simp] theorem complete_ft (sent : Bool) (s : State) : (complete sent s).ft = s.ft := rfl
@[simp] theorem complete_press (sent : Bool) (s : State) : (complete sent s).press = s.press := rfl
@[simp] theorem complete_hum (sent : Bool) (s : State) : (complete sent s).hum = s.hum := rfl
@[simp] theorem complete_luxR (sent : Bool) (s : State) : (complete sent s).luxR = s.luxR := rfl
@[simp] theorem complete_rawT (sent : Bool) (s : State) : (complete sent s).rawT = s.rawT := rfl
@[simp] theorem complete_rawP (sent : Bool) (s : State) : (complete sent s).rawP = s.rawP := rfl
@[simp] theorem complete_rawH (sent : Bool) (s : State) : (complete sent s).rawH = s.rawH := rfl
@[simp] theorem complete_calT (sent : Bool) (s : State) : (complete sent s).calT = s.calT := rfl
@[simp] theorem complete_calP (sent : Bool) (s : State) : (complete sent s).calP = s.calP := rfl
@[simp] theorem complete_calH (sent : Bool) (s : State) : (complete sent s).calH = s.calH := rfl
@[simp] theorem complete_env (sent : Bool) (s : State) : (complete sent s).env = s.env := rfl
@[simp] theorem complete_luxi (sent : Bool) (s : State) : (complete sent s).luxi = s.luxi := rfl
@[simp] theorem complete_pms (sent : Bool) (s : State) : (complete sent s).pms = s.pms := rfl
@[simp] theorem complete_bench (sent : Bool) (s : State) : (complete sent s).bench = s.bench := rfl

/-! ### `setPm` -/

@[simp] theorem setPm_status (s : State) (m : BitVec 4) (p : Measurer) : (s.setPm m p).status = s.status := rfl
@[simp] theorem setPm_ctrl (s : State) (m : BitVec 4) (p : Measurer) : (s.setPm m p).ctrl = s.ctrl := rfl
@[simp] theorem setPm_temp (s : State) (m : BitVec 4) (p : Measurer) : (s.setPm m p).temp = s.temp := rfl
@[simp] theorem setPm_ft (s : State) (m : BitVec 4) (p : Measurer) : (s.setPm m p).ft = s.ft := rfl
@[simp] theorem setPm_press (s : State) (m : BitVec 4) (p : Measurer) : (s.setPm m p).press = s.press := rfl
@[simp] theorem setPm_hum (s : State) (m : BitVec 4) (p : Measurer) : (s.setPm m p).hum = s.hum := rfl
@[simp] theorem setPm_luxR (s : State) (m : BitVec 4) (p : Measurer) : (s.setPm m p).luxR = s.luxR := rfl
@[simp] theorem setPm_rawT (s : State) (m : BitVec 4) (p : Measurer) : (s.setPm m p).rawT = s.rawT := rfl
@[simp] theorem setPm_rawP (s : State) (m : BitVec 4) (p : Measurer) : (s.setPm m p).rawP = s.rawP := rfl
@[simp] theorem setPm_rawH (s : State) (m : BitVec 4) (p : Measurer) : (s.setPm m p).rawH = s.rawH := rfl
@[simp] theorem setPm_calT (s : State) (m : BitVec 4) (p : Measurer) : (s.setPm m p).calT = s.calT := rfl
@[simp] theorem setPm_calP (s : State) (m : BitVec 4) (p : Measurer) : (s.setPm m p).calP = s.calP := rfl
@[simp] theorem setPm_calH (s : State) (m : BitVec 4) (p : Measurer) : (s.setPm m p).calH = s.calH := rfl
@[simp] theorem setPm_env (s : State) (m : BitVec 4) (p : Measurer) : (s.setPm m p).env = s.env := rfl
@[simp] theorem setPm_luxi (s : State) (m : BitVec 4) (p : Measurer) : (s.setPm m p).luxi = s.luxi := rfl
@[simp] theorem setPm_pms (s : State) (m : BitVec 4) (p : Measurer) : (s.setPm m p).pms = s.pms.set m.toNat p := rfl
@[simp] theorem setPm_bench (s : State) (m : BitVec 4) (p : Measurer) : (s.setPm m p).bench = s.bench := rfl

/-! ### `latchInputs` -/

@[simp] theorem latchInputs_status (t : Turn) (s : State) : (latchInputs t s).status = s.status := rfl
@[simp] theorem latchInputs_ctrl (t : Turn) (s : State) : (latchInputs t s).ctrl = s.ctrl := rfl
@[simp] theorem latchInputs_temp (t : Turn) (s : State) : (latchInputs t s).temp = s.temp := rfl
@[simp] theorem latchInputs_ft (t : Turn) (s : State) : (latchInputs t s).ft = s.ft := rfl
@[simp] theorem latchInputs_press (t : Turn) (s : State) : (latchInputs t s).press = s.press := rfl
@[simp] theorem latchInputs_hum (t : Turn) (s : State) : (latchInputs t s).hum = s.hum := rfl
@[simp] theorem latchInputs_luxR (t : Turn) (s : State) : (latchInputs t s).luxR = s.luxR := rfl
@[simp] theorem latchInputs_rawT (t : Turn) (s : State) : (latchInputs t s).rawT = s.rawT := rfl
@[simp] theorem latchInputs_rawP (t : Turn) (s : State) : (latchInputs t s).rawP = s.rawP := rfl
@[simp] theorem latchInputs_rawH (t : Turn) (s : State) : (latchInputs t s).rawH = s.rawH := rfl
@[simp] theorem latchInputs_calT (t : Turn) (s : State) : (latchInputs t s).calT = s.calT := rfl
@[simp] theorem latchInputs_calP (t : Turn) (s : State) : (latchInputs t s).calP = s.calP := rfl
@[simp] theorem latchInputs_calH (t : Turn) (s : State) : (latchInputs t s).calH = s.calH := rfl
@[simp] theorem latchInputs_env (t : Turn) (s : State) : (latchInputs t s).env = s.env := rfl
@[simp] theorem latchInputs_luxi (t : Turn) (s : State) : (latchInputs t s).luxi = s.luxi := rfl
@[simp] theorem latchInputs_pms (t : Turn) (s : State) : (latchInputs t s).pms = s.pms := rfl
@[simp] theorem latchInputs_bench_h45Signed (t : Turn) (s : State) : (latchInputs t s).bench.h45Signed = s.bench.h45Signed := rfl
@[simp] theorem latchInputs_bench_time (t : Turn) (s : State) : (latchInputs t s).bench.time = t.time := rfl
@[simp] theorem latchInputs_bench_pins (t : Turn) (s : State) : (latchInputs t s).bench.pins = t.pins := rfl
@[simp] theorem latchInputs_bench_schedule (t : Turn) (s : State) : (latchInputs t s).bench.schedule = s.bench.schedule := rfl
@[simp] theorem latchInputs_bench_readData (t : Turn) (s : State) : (latchInputs t s).bench.readData = s.bench.readData := rfl

/-! ### `dropTurn` -/

@[simp] theorem dropTurn_status (s : State) : (dropTurn s).status = s.status := rfl
@[simp] theorem dropTurn_ctrl (s : State) : (dropTurn s).ctrl = s.ctrl := rfl
@[simp] theorem dropTurn_temp (s : State) : (dropTurn s).temp = s.temp := rfl
@[simp] theorem dropTurn_ft (s : State) : (dropTurn s).ft = s.ft := rfl
@[simp] theorem dropTurn_press (s : State) : (dropTurn s).press = s.press := rfl
@[simp] theorem dropTurn_hum (s : State) : (dropTurn s).hum = s.hum := rfl
@[simp] theorem dropTurn_luxR (s : State) : (dropTurn s).luxR = s.luxR := rfl
@[simp] theorem dropTurn_rawT (s : State) : (dropTurn s).rawT = s.rawT := rfl
@[simp] theorem dropTurn_rawP (s : State) : (dropTurn s).rawP = s.rawP := rfl
@[simp] theorem dropTurn_rawH (s : State) : (dropTurn s).rawH = s.rawH := rfl
@[simp] theorem dropTurn_calT (s : State) : (dropTurn s).calT = s.calT := rfl
@[simp] theorem dropTurn_calP (s : State) : (dropTurn s).calP = s.calP := rfl
@[simp] theorem dropTurn_calH (s : State) : (dropTurn s).calH = s.calH := rfl
@[simp] theorem dropTurn_env (s : State) : (dropTurn s).env = s.env := rfl
@[simp] theorem dropTurn_luxi (s : State) : (dropTurn s).luxi = s.luxi := rfl
@[simp] theorem dropTurn_pms (s : State) : (dropTurn s).pms = s.pms := rfl
@[simp] theorem dropTurn_bench_h45Signed (s : State) : (dropTurn s).bench.h45Signed = s.bench.h45Signed := rfl
@[simp] theorem dropTurn_bench_time (s : State) : (dropTurn s).bench.time = s.bench.time := rfl
@[simp] theorem dropTurn_bench_pins (s : State) : (dropTurn s).bench.pins = s.bench.pins := rfl
@[simp] theorem dropTurn_bench_schedule (s : State) : (dropTurn s).bench.schedule = s.bench.schedule.tail := rfl
@[simp] theorem dropTurn_bench_readData (s : State) : (dropTurn s).bench.readData = s.bench.readData := rfl

/-! ### `returnRead` -/

@[simp] theorem returnRead_status (v : Word) (s : State) : (returnRead v s).status = s.status := rfl
@[simp] theorem returnRead_ctrl (v : Word) (s : State) : (returnRead v s).ctrl = s.ctrl := rfl
@[simp] theorem returnRead_temp (v : Word) (s : State) : (returnRead v s).temp = s.temp := rfl
@[simp] theorem returnRead_ft (v : Word) (s : State) : (returnRead v s).ft = s.ft := rfl
@[simp] theorem returnRead_press (v : Word) (s : State) : (returnRead v s).press = s.press := rfl
@[simp] theorem returnRead_hum (v : Word) (s : State) : (returnRead v s).hum = s.hum := rfl
@[simp] theorem returnRead_luxR (v : Word) (s : State) : (returnRead v s).luxR = s.luxR := rfl
@[simp] theorem returnRead_rawT (v : Word) (s : State) : (returnRead v s).rawT = s.rawT := rfl
@[simp] theorem returnRead_rawP (v : Word) (s : State) : (returnRead v s).rawP = s.rawP := rfl
@[simp] theorem returnRead_rawH (v : Word) (s : State) : (returnRead v s).rawH = s.rawH := rfl
@[simp] theorem returnRead_calT (v : Word) (s : State) : (returnRead v s).calT = s.calT := rfl
@[simp] theorem returnRead_calP (v : Word) (s : State) : (returnRead v s).calP = s.calP := rfl
@[simp] theorem returnRead_calH (v : Word) (s : State) : (returnRead v s).calH = s.calH := rfl
@[simp] theorem returnRead_env (v : Word) (s : State) : (returnRead v s).env = s.env := rfl
@[simp] theorem returnRead_luxi (v : Word) (s : State) : (returnRead v s).luxi = s.luxi := rfl
@[simp] theorem returnRead_pms (v : Word) (s : State) : (returnRead v s).pms = s.pms := rfl
@[simp] theorem returnRead_bench_h45Signed (v : Word) (s : State) : (returnRead v s).bench.h45Signed = s.bench.h45Signed := rfl
@[simp] theorem returnRead_bench_time (v : Word) (s : State) : (returnRead v s).bench.time = s.bench.time := rfl
@[simp] theorem returnRead_bench_pins (v : Word) (s : State) : (returnRead v s).bench.pins = s.bench.pins := rfl
@[simp] theorem returnRead_bench_schedule (v : Word) (s : State) : (returnRead v s).bench.schedule = s.bench.schedule := rfl
@[simp] theorem returnRead_bench_readData (v : Word) (s : State) : (returnRead v s).bench.readData = v := rfl

/-! ### `resetAll` -/

@[simp] theorem resetAll_status (s : State) : (resetAll s).status = State.reset.status := rfl
@[simp] theorem resetAll_ctrl (s : State) : (resetAll s).ctrl = State.reset.ctrl := rfl
@[simp] theorem resetAll_temp (s : State) : (resetAll s).temp = State.reset.temp := rfl
@[simp] theorem resetAll_ft (s : State) : (resetAll s).ft = State.reset.ft := rfl
@[simp] theorem resetAll_press (s : State) : (resetAll s).press = State.reset.press := rfl
@[simp] theorem resetAll_hum (s : State) : (resetAll s).hum = State.reset.hum := rfl
@[simp] theorem resetAll_luxR (s : State) : (resetAll s).luxR = State.reset.luxR := rfl
@[simp] theorem resetAll_rawT (s : State) : (resetAll s).rawT = State.reset.rawT := rfl
@[simp] theorem resetAll_rawP (s : State) : (resetAll s).rawP = State.reset.rawP := rfl
@[simp] theorem resetAll_rawH (s : State) : (resetAll s).rawH = State.reset.rawH := rfl
@[simp] theorem resetAll_calT (s : State) : (resetAll s).calT = State.reset.calT := rfl
@[simp] theorem resetAll_calP (s : State) : (resetAll s).calP = State.reset.calP := rfl
@[simp] theorem resetAll_calH (s : State) : (resetAll s).calH = State.reset.calH := rfl
@[simp] theorem resetAll_env (s : State) : (resetAll s).env = State.reset.env := rfl
@[simp] theorem resetAll_luxi (s : State) : (resetAll s).luxi = State.reset.luxi := rfl
@[simp] theorem resetAll_pms (s : State) : (resetAll s).pms = List.replicate s.pms.length Measurer.reset := rfl
@[simp] theorem resetAll_bench (s : State) : (resetAll s).bench = s.bench := rfl

/-! ### `closeEnvironment` -/

@[simp] theorem closeEnvironment_status_err (s : State) : (closeEnvironment s).status.err = s.status.err := rfl
@[simp] theorem closeEnvironment_status_sent (s : State) : (closeEnvironment s).status.sent = s.status.sent := rfl
@[simp] theorem closeEnvironment_status_tv (s : State) : (closeEnvironment s).status.tv = false := rfl
@[simp] theorem closeEnvironment_status_pv (s : State) : (closeEnvironment s).status.pv = false := rfl
@[simp] theorem closeEnvironment_status_hv (s : State) : (closeEnvironment s).status.hv = false := rfl
@[simp] theorem closeEnvironment_status_rtv (s : State) : (closeEnvironment s).status.rtv = false := rfl
@[simp] theorem closeEnvironment_status_rpv (s : State) : (closeEnvironment s).status.rpv = false := rfl
@[simp] theorem closeEnvironment_status_rhv (s : State) : (closeEnvironment s).status.rhv = false := rfl
@[simp] theorem closeEnvironment_status_ftv (s : State) : (closeEnvironment s).status.ftv = false := rfl
@[simp] theorem closeEnvironment_status_timf (s : State) : (closeEnvironment s).status.timf = s.status.timf := rfl
@[simp] theorem closeEnvironment_status_fault (s : State) : (closeEnvironment s).status.fault = s.status.fault := rfl
@[simp] theorem closeEnvironment_ctrl (s : State) : (closeEnvironment s).ctrl = Ctrl.reset := rfl
@[simp] theorem closeEnvironment_temp (s : State) : (closeEnvironment s).temp = 0 := rfl
@[simp] theorem closeEnvironment_ft (s : State) : (closeEnvironment s).ft = 0 := rfl
@[simp] theorem closeEnvironment_press (s : State) : (closeEnvironment s).press = 0 := rfl
@[simp] theorem closeEnvironment_hum (s : State) : (closeEnvironment s).hum = 0 := rfl
@[simp] theorem closeEnvironment_luxR (s : State) : (closeEnvironment s).luxR = s.luxR := rfl
@[simp] theorem closeEnvironment_rawT (s : State) : (closeEnvironment s).rawT = 0 := rfl
@[simp] theorem closeEnvironment_rawP (s : State) : (closeEnvironment s).rawP = 0 := rfl
@[simp] theorem closeEnvironment_rawH (s : State) : (closeEnvironment s).rawH = 0 := rfl
@[simp] theorem closeEnvironment_calT (s : State) : (closeEnvironment s).calT = CalT.reset := rfl
@[simp] theorem closeEnvironment_calP (s : State) : (closeEnvironment s).calP = CalP.reset := rfl
@[simp] theorem closeEnvironment_calH (s : State) : (closeEnvironment s).calH = CalH.reset := rfl
@[simp] theorem closeEnvironment_env (s : State) : (closeEnvironment s).env = [] := rfl
@[simp] theorem closeEnvironment_luxi (s : State) : (closeEnvironment s).luxi = s.luxi := rfl
@[simp] theorem closeEnvironment_pms (s : State) : (closeEnvironment s).pms = s.pms := rfl
@[simp] theorem closeEnvironment_bench (s : State) : (closeEnvironment s).bench = s.bench := rfl

end Sys2Proof.Machine
end

