-- ==== Sys2Proof/Laws/Step.lean ====
section
/-! SUPPORT. The step as its turns, and every command answering a next state. -/

namespace Sys2Proof.Machine

theorem step_idle {s : State} (h : s.bench.schedule = []) : step s = .next s := by
  simp [step, nextTurn, h]

theorem step_turn {s : State} {t : Turn} {rest : List Turn} (h : s.bench.schedule = t :: rest) :
    step s = takeTurn t (dropTurn s) := by
  simp [step, nextTurn, h]

theorem takeTurn_reset {t : Turn} (s : State) (h : t.resetLine = true) :
    takeTurn t s = .next (resetTurn t.agent (latchInputs t s)) := by
  simp [takeTurn, h]

theorem takeTurn_agent {t : Turn} (s : State) (h : t.resetLine = false) :
    takeTurn t s = agentStep t.agent (latchInputs t s) := by
  simp [takeTurn, h]

/-- Everything that a step can do: nothing, a reset, or the step of the agent whose turn it is. -/
theorem step_cases (s : State) :
    (s.bench.schedule = [] ∧ step s = .next s) ∨
    (∃ t rest, s.bench.schedule = t :: rest ∧ t.resetLine = true ∧
      step s = .next (resetTurn t.agent (latchInputs t (dropTurn s)))) ∨
    (∃ t rest, s.bench.schedule = t :: rest ∧ t.resetLine = false ∧
      step s = agentStep t.agent (latchInputs t (dropTurn s))) := by
  cases h : s.bench.schedule with
  | nil => exact .inl ⟨rfl, step_idle h⟩
  | cons t rest =>
    cases hr : t.resetLine
    · exact .inr (.inr ⟨t, rest, rfl, hr, by rw [step_turn h, takeTurn_agent _ hr]⟩)
    · exact .inr (.inl ⟨t, rest, rfl, hr, by rw [step_turn h, takeTurn_reset _ hr]⟩)

/-- Every turn with `RESET` asserted leaves the reset state, and at most changes what the read port returned. -/
theorem resetTurn_eq (a : AgentStep) (s : State) :
    resetTurn a s = resetAll s ∨ resetTurn a s = returnRead 0 (resetAll s) := by
  cases a <;> simp [resetTurn]

theorem issueWord_ok {w : Word} {i : Instr} (s : State) (h : decode w = .ok i) : issueWord w s = exec i s := by
  simp [issueWord, h]

theorem issueWord_illegal {w : Word} {e : Illegal} (s : State) (h : decode w = .error e) :
    issueWord w s = .next (raiseErr .illegal s) := by
  simp [issueWord, h]

end Sys2Proof.Machine
end

