-- ==== Sys2Proof/Tests/Slice0.lean ====
section
/-! SUPPORT. Tests: the checks of WellFormed, the decoding of words written out from spec/30_encoding.md R83 and R84,
single steps against the vectors of spec/95_test_vectors.md, and a witness for every statement that has hypotheses. -/

namespace Sys2Proof.Tests

open Sys2Proof Sys2Proof.Machine

/-! ### WellFormed refuses an ill-formed term of each kind -/

theorem test_wf_luxi_address : (Instr.wrb .luxi 0x10#8 0#8).wellFormed 2 = false := by decide
theorem test_wf_luxi_address_bit7 : (Instr.wrb .luxi 0x8F#8 0#8).wellFormed 2 = true := by decide
theorem test_wf_env_address : (Instr.wrb .env 0xFF#8 0#8).wellFormed 2 = true := by decide
theorem test_wf_strategy : (Instr.pmopen 0#4 3#2).wellFormed 2 = false := by decide
theorem test_wf_pmopen_m : (Instr.pmopen 2#4 0#2).wellFormed 2 = false := by decide
theorem test_wf_pmstart_m : (Instr.pmstart 2#4).wellFormed 2 = false := by decide
theorem test_wf_pmstop_m : (Instr.pmstop 2#4).wellFormed 2 = false := by decide
theorem test_wf_pmclose_m : (Instr.pmclose 2#4).wellFormed 2 = false := by decide
theorem test_wf_pmrd_m : (Instr.pmrd 2#4).wellFormed 2 = false := by decide
theorem test_wf_pmavg_m : (Instr.pmavg 2#4).wellFormed 2 = false := by decide
theorem test_wf_ppm_m : (Instr.ppm 2#4).wellFormed 2 = false := by decide
theorem test_wf_dens_m : (Instr.dens 15#4).wellFormed 16 = true := by decide

/-! ### Every constructor's decoding, from a word written bit by bit: `op` 31:24, `sel` 23:20, `z` 19:16, `imm` 15:0 -/

theorem test_decode_nop : decode 0b00000000_0000_0000_0000000000000000#32 = .ok .nop := by decide
theorem test_decode_wrb_env : decode 0b00000001_0000_0000_10001000_01110000#32 = .ok (.wrb .env 0x88#8 0x70#8) := by
  decide
theorem test_decode_wrb_luxi : decode 0b00000001_0001_0000_10000001_00000010#32 = .ok (.wrb .luxi 0x81#8 0x02#8) := by
  decide
theorem test_decode_wrc : decode 0b00000010_0000_0000_0000000000000_110#32 = .ok (.wrc 6#3) := by decide
theorem test_decode_envclose : decode 0b00000011_0000_0000_0000000000000000#32 = .ok .envclose := by decide
theorem test_decode_srst : decode 0b00001111_0000_0000_0000000000000000#32 = .ok .srst := by decide
theorem test_decode_calt : decode 0b00010000_0000_0000_0000000000000000#32 = .ok .calt := by decide
theorem test_decode_calp : decode 0b00010001_0000_0000_0000000000000000#32 = .ok .calp := by decide
theorem test_decode_calh : decode 0b00010010_0000_0000_0000000000000000#32 = .ok .calh := by decide
theorem test_decode_dect : decode 0b00010100_0000_0000_0000000000000000#32 = .ok .dect := by decide
theorem test_decode_decp : decode 0b00010101_0000_0000_0000000000000000#32 = .ok .decp := by decide
theorem test_decode_dech : decode 0b00010110_0000_0000_0000000000000000#32 = .ok .dech := by decide
theorem test_decode_compt : decode 0b00011000_0000_0000_0000000000000000#32 = .ok .compt := by decide
theorem test_decode_compp : decode 0b00011001_0000_0000_0000000000000000#32 = .ok .compp := by decide
theorem test_decode_comph : decode 0b00011010_0000_0000_0000000000000000#32 = .ok .comph := by decide
theorem test_decode_lux : decode 0b00100000_0000_0000_0000000000000000#32 = .ok .lux := by decide
theorem test_decode_pmopen : decode 0b00110000_0001_0000_00000000000000_10#32 = .ok (.pmopen 1#4 2#2) := by decide
theorem test_decode_pmstart : decode 0b00110001_0010_0000_0000000000000000#32 = .ok (.pmstart 2#4) := by decide
theorem test_decode_pmstop : decode 0b00110010_1000_0000_0000000000000000#32 = .ok (.pmstop 8#4) := by decide
theorem test_decode_pmclose : decode 0b00110011_1111_0000_0000000000000000#32 = .ok (.pmclose 15#4) := by decide
theorem test_decode_pmrd : decode 0b00110100_0001_0000_0000000000000000#32 = .ok (.pmrd 1#4) := by decide
theorem test_decode_pmavg : decode 0b00110101_0100_0000_0000000000000000#32 = .ok (.pmavg 4#4) := by decide
theorem test_decode_ppm : decode 0b00110110_0001_0000_0000000000000000#32 = .ok (.ppm 1#4) := by decide
theorem test_decode_dens : decode 0b00110111_0000_0000_0000000000000000#32 = .ok (.dens 0#4) := by decide

/-- The illegal words of 95_test_vectors.md 2.1, and one of each gap of R86. -/
theorem test_decode_illegal :
    [0x04000000#32, 0x00010000#32, 0x10000001#32, 0x18100000#32, 0x01200000#32, 0x02000008#32, 0x30000004#32,
      0x31000001#32, 0xFFFFFFFF#32, 0x0E000000#32, 0x13000000#32, 0x17000000#32, 0x1B000000#32, 0x21000000#32,
      0x2F000000#32, 0x38000000#32, 0x30080000#32].all (fun w => (decode w).toOption.isNone) = true := by decide

theorem test_decodeTableWord : decodeTableWord 32 0x30100002 = some (.pmopen 1#4 2#2) := by decide
theorem test_decodeTableWord_illegal : decodeTableWord 32 0x04000000 = none := by decide

/-! ### The constants of R167 and R190 are the `f32` numbers nearest to their decimals (R11) -/

theorem test_lux_constants :
    [dec32 61 100, dec32 80 100, dec32 130 100, dec32 304 10000, dec32 62 1000, dec32 224 10000, dec32 31 1000,
      dec32 128 10000, dec32 153 10000, dec32 146 100000, dec32 112 100000, dec32 137 10] =
    [th2, th3, th4, k1a, k1b, k2a, k2b, k3a, k3b, k4a, k4b, 0x415B3333#32] := by decide +kernel
theorem test_density_constants :
    [dec32 1915 1000000, dec32 9522 100000, dec32 4884 100000] = [densC2, densC1, densC0] := by decide +kernel
/-- 95_test_vectors.md 2.4, first and twentieth rows. -/
theorem test_powRatio :
    [powRatio 0x3E4CCCCD#32, powRatio 0x3E99999A#32, powRatio 0#32] = [0x3DD72A48#32, 0x3E3DC9D7#32, 0#32] := by
  decide +kernel

/-! ### Helpers: small states -/

/-- The image with the bytes written from an address on. -/
def bytesAt (m : Memory) (a : Nat) : List Byte → Memory
  | [] => m
  | b :: bs => bytesAt (m.write a b) (a + 1) bs

/-- The state after the host issues a word. -/
def issued (w : Nat) (s : State) : State :=
  match step (s.withFetchWord 32 w) with
  | .next t => t
  | .fault _ => s
  | .refused _ => s

/-- The reset state with other bytes in `ENV`. -/
def withEnv (a : Nat) (bs : List Byte) : State := { State.reset with env := bytesAt [] a bs }

/-- Set A of 95_test_vectors.md 2.3, decoded, with the raw samples of its first row, every unit enabled. -/
def setA : State :=
  { State.reset with
    status := { Status.reset with
      tv := true, pv := true, hv := true, rtv := true, rpv := true, rhv := true, ftv := true }
    ctrl := { ten := true, pen := true, hen := true }
    ft := 0x47FAD325#32
    rawT := 519888#20
    rawP := 415148#20
    rawH := 30000#16
    calT := { t1 := 27504#16, t2 := 26435#16, t3 := BitVec.ofInt 16 (-1000) }
    calP := { p1 := 36477#16, p2 := BitVec.ofInt 16 (-10685), p3 := 3024#16, p4 := 2855#16, p5 := 140#16
              p6 := BitVec.ofInt 16 (-7), p7 := 15500#16, p8 := BitVec.ofInt 16 (-14600), p9 := 6000#16 }
    calH := { h1 := 75#8, h2 := 361#16, h3 := 0#8, h4 := 326#12, h5 := 50#12, h6 := 30#8 } }

/-- Set A with an added status. -/
def setAWith (f : Status → Status) : State := { setA with status := f setA.status }

/-- A fresh timing byte and two channel counts in `LUXI`. -/
def luxState (tb l0 m0 l1 m1 : Byte) : State :=
  { State.reset with
    status := { Status.reset with timf := true }
    luxi := bytesAt ((Memory.write [] 0x1 tb)) 0xC [l0, m0, l1, m1] }

/-- A state whose measurer 0 is `p`. -/
def measuring (p : Measurer) : State := { State.reset with pms := [p, Measurer.reset] }

/-- An open idle measurer. -/
def openIdle (k : Strategy) : Measurer := { Measurer.reset with opened := true, strat := k }

/-- An open running measurer. -/
def running (k : Strategy) : Measurer := { openIdle k with run := true }

/-- A running cycle-integrator that has published (30000, 3000), as after step 12 of program 3. -/
def published : Measurer :=
  { running .cycle with
    endTime := 4500#32, startTime := 1500#32, winStart := 31000#32, pubLen := 30000#32, pubOn := 3000#32, pubV := true }

/-- A running measurer of strategy 2 with ten entries and a pulse in progress (95_test_vectors.md 2.6). -/
def fullFifo : Measurer :=
  { running .eirq with
    st := .waitingForFall, startTime := 1100#32, pw := 10#32, pwV := true
    fifo := [1#32, 2#32, 3#32, 4#32, 5#32, 6#32, 7#32, 8#32, 9#32, 10#32] }

/-- A turn with `RESET` not asserted. -/
def turnOf (a : AgentStep) (time : Word) (pins : BitVec 16) : Turn :=
  { agent := a, time := time, pins := pins, resetLine := false }

/-- The state with a schedule. -/
def scheduled (ts : List Turn) (s : State) : State := { s with bench := { s.bench with schedule := ts } }

/-! ### Commands, one step each -/

theorem test_nop : regRead (issued 0x00000000 (raiseErr .noft State.reset)) 0x000#12 = 0x80000000#32 := by decide
theorem test_illegal : regRead (issued 0x18100000 State.reset) 0x000#12 = 0x80000001#32 := by decide
theorem test_wrb_env : regRead (issued 0x01008870 State.reset) 0x488#12 = 0x00000170#32 := by decide
theorem test_wrb_luxi :
    regRead (issued 0x01108102 State.reset) 0x501#12 = 0x00000102#32 ∧
    regRead (issued 0x01108102 State.reset) 0x000#12 = 0x00008000#32 := by decide
theorem test_wrc : regRead (issued 0x02000003 State.reset) 0x001#12 = 3#32 := by decide
theorem test_envclose : regRead (issued 0x03000000 (raiseErr .calLocked setA)) 0x000#12 = 0x80000000#32 := by decide
theorem test_srst : issued 0x0F000000 (raiseErr .calLocked setA) = State.reset := by decide

/-- 95_test_vectors.md 2.2, first three rows. -/
theorem test_calt :
    regRead (issued 0x10000000 (withEnv 0x88 [0x70#8, 0x6B#8, 0x43#8, 0x67#8, 0x18#8, 0xFC#8])) 0x012#12 =
      0xFFFFFC18#32 := by decide
theorem test_calt_unwritten :
    regRead (issued 0x10000000 (withEnv 0x88 [0x70#8, 0x6B#8, 0x43#8, 0x67#8, 0x18#8])) 0x000#12 =
      0x80000003#32 := by decide
theorem test_calp :
    regRead (issued 0x11000000 (withEnv 0x8E [0x7D#8, 0x8E#8, 0x43#8, 0xD6#8, 0xD0#8, 0x0B#8, 0x27#8, 0x0B#8, 0x8C#8,
      0x00#8, 0xF9#8, 0xFF#8, 0x8C#8, 0x3C#8, 0xF8#8, 0xC6#8, 0x70#8, 0x17#8])) 0x014#12 = 0xFFFFD643#32 := by decide
theorem test_calp_locked : regRead (issued 0x11000000 setA) 0x000#12 = 0x80007F07#32 := by decide
/-- The extreme `CALH` row, with `H45_SIGNED` false and true. -/
theorem test_calh :
    let s := withEnv 0xE1 [0xFF#8, 0xFF#8, 0x80#8, 0xFF#8, 0xAB#8, 0xCD#8, 0x80#8]
    let s := issued 0x12000000 { s with env := s.env.write 0xA1 0xFF#8 }
    [0x01C#12, 0x01D#12, 0x01E#12, 0x01F#12, 0x020#12, 0x021#12].map (regRead s) =
      [0xFF#32, 0xFFFFFFFF#32, 0x80#32, 0xFFB#32, 0xCDA#32, 0xFFFFFF80#32] := by decide
theorem test_calh_signed :
    let s : State := { setA with
      calH := { setA.calH with h4 := 0xFFB#12, h5 := 0xCDA#12 }, bench := { Bench.reset with h45Signed := true } }
    regRead s 0x01F#12 = 0xFFFFFFFB#32 ∧ regRead s 0x020#12 = 0xFFFFFCDA#32 := by decide
theorem test_dect :
    let s := issued 0x14000000 (withEnv 0xFA [0x7E#8, 0xED#8, 0x0F#8])
    s.rawT = 519888#20 ∧ regRead s 0x000#12 = 0x00000800#32 := by decide
theorem test_dect_clears_ftv :
    (issued 0x14000000 { setA with env := bytesAt [] 0xFA [0x7E#8, 0xED#8, 0x00#8] }).status.ftv = false := by decide
theorem test_decp : (issued 0x15000000 (withEnv 0xF7 [0x65#8, 0x5A#8, 0xC0#8])).rawP = 415148#20 := by decide
theorem test_dech : (issued 0x16000000 (withEnv 0xFD [0x75#8, 0x30#8])).rawH = 30000#16 := by decide

/-- 95_test_vectors.md 2.3, first row. -/
theorem test_compt :
    let s := issued 0x18000000 (setAWith fun f => { f with ftv := false })
    s.ft = 0x47FAD325#32 ∧ s.temp = 0x41C8A8EA#32 ∧ regRead s 0x000#12 = 0x00007F00#32 := by decide +kernel
theorem test_compt_disabled : regRead (issued 0x18000000 State.reset) 0x000#12 = 0x80000002#32 := by decide
theorem test_compp : (issued 0x19000000 setA).press = 0x447BA217#32 := by decide +kernel
theorem test_compp_guard :
    let s := issued 0x19000000 { setA with calP := { setA.calP with p1 := 0 } }
    s.press = 0 ∧ regRead s 0x000#12 = 0x00007F10#32 := by decide +kernel
theorem test_comph : (issued 0x1A000000 setA).hum = 0x4248EDD1#32 := by decide +kernel
theorem test_comph_guard :
    let s := issued 0x1A000000 { setA with ft := 0x47960000#32 }
    s.hum = 0 ∧ regRead s 0x000#12 = 0x00007F10#32 := by decide +kernel

/-- 95_test_vectors.md 2.4, the row (5000, 1500, 0x10), and saturation before `BAD_TIMING`. -/
theorem test_lux :
    (issued 0x20000000 (luxState 0x10#8 0x88#8 0x13#8 0xDC#8 0x05#8)).luxR = 0x432D639E#32 := by decide +kernel
theorem test_lux_saturated :
    let s := issued 0x20000000 (luxState 0x03#8 0xFF#8 0xFF#8 0xFF#8 0xFF#8)
    s.luxR = 0x451C4000#32 ∧ regRead s 0x000#12 = 0x00000010#32 := by decide +kernel

theorem test_pmopen : regRead (issued 0x30100002 State.reset) 0x120#12 = 0x00000021#32 := by decide
theorem test_pmopen_sel_first : regRead (issued 0x30500003 State.reset) 0x000#12 = 0x8000000A#32 := by decide
theorem test_pmstart :
    let s := measuring (openIdle .cycle)
    let t := issued 0x31000000 { s with bench := { s.bench with time := 1000#32 } }
    regRead t 0x100#12 = 3#32 ∧ regRead t 0x103#12 = 1000#32 := by decide
theorem test_pmstop : regRead (issued 0x32000000 (measuring published)) 0x100#12 = 0x00000087#32 := by decide
theorem test_pmstop_eirq : regRead (issued 0x32000000 (measuring fullFifo)) 0x100#12 = 0x00001561#32 := by decide
theorem test_pmclose : regRead (issued 0x33000000 (measuring fullFifo)) 0x100#12 = 0x00000022#32 := by decide
theorem test_pmrd :
    let s := issued 0x34000000 (measuring published)
    regRead s 0x108#12 = 30000#32 ∧ regRead s 0x109#12 = 3000#32 := by decide
theorem test_pmavg : regRead (issued 0x35000000 (measuring fullFifo)) 0x10A#12 = 0x40B00000#32 := by decide +kernel
theorem test_pmavg_empty :
    regRead (issued 0x35000000 (measuring (openIdle .eirq))) 0x000#12 = 0x00000010#32 := by decide +kernel
theorem test_ppm :
    regRead (issued 0x36000000 (measuring { openIdle .epoll with pw := 1006#32, pwV := true })) 0x10B#12 =
      0x459CE000#32 := by decide +kernel
theorem test_ppm_fifo : regRead (issued 0x36000000 (measuring fullFifo)) 0x10B#12 = 0x418C0000#32 := by decide +kernel
theorem test_dens : regRead (issued 0x37000000 (measuring published)) 0x10C#12 = 0x3F8C245F#32 := by decide +kernel
theorem test_dens_closed : regRead (issued 0x37000000 State.reset) 0x000#12 = 0x8000000B#32 := by decide

/-! ### Background steps, 95_test_vectors.md 2.6 -/

theorem test_poll_rise :
    regRead (afterTurn (turnOf (.poll 0#4) 1500#32 1#16) (measuring { running .cycle with winStart := 1000#32 }))
      0x100#12 = 0x00000043#32 := by decide
theorem test_poll_publishes_its_fall :
    let p : Measurer := { running .cycle with
      winStart := 31000#32, acc := 100#32, st := .waitingForFall, startTime := 60000#32 }
    let s := afterTurn (turnOf (.poll 0#4) 61000#32 0#16) (measuring p)
    regRead s 0x105#12 = 30000#32 ∧ regRead s 0x106#12 = 1100#32 := by decide
theorem test_poll_wraps :
    let p : Measurer := { running .epoll with st := .waitingForFall, startTime := 4294967280#32 }
    regRead (afterTurn (turnOf (.poll 0#4) 16#32 0#16) (measuring p)) 0x107#12 = 32#32 := by decide
theorem test_edge_evicts :
    let s := afterTurn (turnOf (.edge 0#4) 1111#32 0#16) (measuring fullFifo)
    regRead s 0x110#12 = 2#32 ∧ regRead s 0x119#12 = 11#32 ∧ regRead s 0x100#12 = 0x00001523#32 := by decide
theorem test_poll_closed_handle :
    regRead (afterTurn (turnOf (.poll 0#4) 0#32 1#16) (measuring { Measurer.reset with run := true })) 0x100#12 =
      0x00000008#32 := by decide

/-! ### Witnesses: states and operands that meet the hypotheses of each statement -/

theorem witness_EncodeOfDecodedWord : decode 0x37F00000#32 = .ok (.dens 15#4) := by decide

theorem witness_DecodeMatchesMaskTable :
    decode 0x0110FFFF#32 = .ok (.wrb .luxi 0xFF#8 0xFF#8) ∧
    0x0110FFFF#32 &&& rowMask (.wrb .env 0#8 0#8) = rowMatch (.wrb .env 0#8 0#8) := by decide

theorem witness_IllegalWordRaisesIllegal :
    (∀ j : Instr, 0x02000008#32 &&& rowMask j ≠ rowMatch j) ∧
    (scheduled [turnOf (.issue 0x02000008#32) 5#32 1#16] setA).bench.schedule =
      [{ agent := .issue 0x02000008#32, time := 5#32, pins := 1#16, resetLine := false }] :=
  ⟨fun j => by cases j <;> simp only [rowMask, rowMatch] <;> decide, rfl⟩

theorem witness_StepRunsDecodedCommand :
    (scheduled [turnOf (.issue 0x31000000#32) 5#32 1#16] setA).bench.schedule =
      [{ agent := .issue 0x31000000#32, time := 5#32, pins := 1#16, resetLine := false }] ∧
    decode 0x31000000#32 = .ok (.pmstart 0#4) := by decide

theorem witness_ResetLineRestoresReset :
    (scheduled [{ agent := .regRead 0x000#12, time := 5#32, pins := 1#16, resetLine := true }] setA).bench.schedule =
      [{ agent := .regRead 0x000#12, time := 5#32, pins := 1#16, resetLine := true }] ∧
    (∃ n, AgentStep.regRead 0x000#12 = .regRead n) ∧ (∀ n, AgentStep.poll 0#4 ≠ .regRead n) :=
  ⟨rfl, ⟨_, rfl⟩, fun _ h => by cases h⟩

theorem witness_RegReadChangesNothing :
    (scheduled [turnOf (.regRead 0xFFF#12) 5#32 1#16] setA).bench.schedule =
      [{ agent := .regRead 0xFFF#12, time := 5#32, pins := 1#16, resetLine := false }] := by decide

/-- Sixteen measurers, the last with a full FIFO. -/
def sixteen : State := { State.reset with pms := List.replicate 15 Measurer.reset ++ [fullFifo] }

theorem witness_FlagWordLayouts :
    sixteen.pms[(15#4).toNat]? = some fullFifo ∧ fullFifo.fifo.length ≤ 10 := by decide

theorem witness_ReadSignConvention :
    setA.bench.h45Signed = false ∧
    ({ setA with bench := { setA.bench with h45Signed := true } } : State).bench.h45Signed = true := by decide

theorem witness_ImageReadback :
    (withEnv 0xFF [7#8]).env.read (0xFF#8).toNat = some 7#8 ∧ (withEnv 0xFF [7#8]).env.read (0x00#8).toNat = none ∧
    (luxState 2#8 1#8 0#8 1#8 9#8).luxi.read (0xF#4).toNat = some 9#8 ∧
    (luxState 2#8 1#8 0#8 1#8 9#8).luxi.read (0x0#4).toNat = none := by decide

theorem witness_MeasurerAndUnmappedReads :
    sixteen.pms[(15#4).toNat]? = some fullFifo ∧ 0x00A ≤ (0x00A#12).toNat ∧ (0x00F#12).toNat ≤ 0x00F ∧
    0x022 ≤ (0x022#12).toNat ∧ (0x0FF#12).toNat ≤ 0x0FF ∧ 0x100 + 0x20 * State.reset.pms.length ≤ (0x140#12).toNat ∧
    (0x2FF#12).toNat ≤ 0x2FF ∧ 0x300 ≤ (0x300#12).toNat ∧ (0x3FF#12).toNat ≤ 0x3FF ∧ 0x510 ≤ (0x510#12).toNat := by
  decide

theorem witness_FailedCommandChangesOnlyStatus :
    (∃ t, exec .calt State.reset = .next t ∧ t.status.err = .unwritten) ∧ (∃ t, exec .nop setA = .next t) :=
  ⟨⟨_, rfl, by decide⟩, ⟨_, rfl⟩⟩

theorem witness_FaultIsSticky :
    (raiseErr .noft setA).status.fault = true ∧ ∃ t, step (raiseErr .noft setA) = .next t := ⟨rfl, ⟨_, rfl⟩⟩

theorem witness_WrbResult :
    (0x8F#8).toNat / 16 % 8 = 0 ∧ (0x01#8).toNat / 16 % 8 = 0 ∧ (0x10#8).toNat / 16 % 8 ≠ 0 ∧
    (0xFF#8).toNat / 16 % 8 ≠ 0 := by decide

theorem witness_CaltResult :
    setA.status.tv = true ∧
    (State.reset.status.tv = false ∧ ∃ k, k < 6 ∧ State.reset.env.read (0x88 + k) = none) ∧
    (withEnv 0x88 (List.replicate 6 1#8)).status.tv = false ∧
    (∀ k, k < 6 → (withEnv 0x88 (List.replicate 6 1#8)).env.read (0x88 + k) = some 1#8) := by decide

theorem witness_CalpResult :
    setA.status.pv = true ∧
    (State.reset.status.pv = false ∧ ∃ k, k < 18 ∧ State.reset.env.read (0x8E + k) = none) ∧
    (withEnv 0x8E (List.replicate 18 1#8)).status.pv = false ∧
    (∀ k, k < 18 → (withEnv 0x8E (List.replicate 18 1#8)).env.read (0x8E + k) = some 1#8) := by decide

theorem witness_CalhResult :
    let full : State := { State.reset with env := bytesAt (Memory.write [] 0xA1 2#8) 0xE1 (List.replicate 7 1#8) }
    setA.status.hv = true ∧
    (State.reset.status.hv = false ∧ State.reset.env.read 0xA1 = none) ∧
    (full.status.hv = false ∧ full.env.read 0xA1 = some 2#8 ∧ ∀ k, k < 7 → full.env.read (0xE1 + k) = some 1#8) ∧
    (∃ k, k < 7 ∧ (withEnv 0xA1 [2#8]).env.read (0xE1 + k) = none) := by decide

theorem witness_DectResult :
    (∃ k, k < 3 ∧ (withEnv 0xFA [1#8, 2#8]).env.read (0xFA + k) = none) ∧
    (withEnv 0xFA [1#8, 2#8, 3#8]).env.read 0xFA = some 1#8 ∧ (withEnv 0xFA [1#8, 2#8, 3#8]).env.read 0xFB = some 2#8 ∧
    (withEnv 0xFA [1#8, 2#8, 3#8]).env.read 0xFC = some 3#8 := by decide

theorem witness_DecpResult :
    (∃ k, k < 3 ∧ (withEnv 0xF8 [1#8, 2#8]).env.read (0xF7 + k) = none) ∧
    (withEnv 0xF7 [1#8, 2#8, 3#8]).env.read 0xF7 = some 1#8 ∧ (withEnv 0xF7 [1#8, 2#8, 3#8]).env.read 0xF8 = some 2#8 ∧
    (withEnv 0xF7 [1#8, 2#8, 3#8]).env.read 0xF9 = some 3#8 := by decide

theorem witness_DechResult :
    (∃ k, k < 2 ∧ (withEnv 0xFD [1#8]).env.read (0xFD + k) = none) ∧
    (withEnv 0xFD [1#8, 2#8]).env.read 0xFD = some 1#8 ∧ (withEnv 0xFD [1#8, 2#8]).env.read 0xFE = some 2#8 := by decide

/-- Set A with one oversampling disabled, or one flag cleared, meets the hypotheses of each check in turn. -/
theorem witness_ComptResult :
    State.reset.ctrl.ten = false ∧
    (setA.ctrl.ten = true ∧ (setAWith fun f => { f with tv := false }).status.tv = false) ∧
    ((setAWith fun f => { f with rtv := false }).status.tv = true ∧
      (setAWith fun f => { f with rtv := false }).status.rtv = false) ∧
    (setA.status.tv = true ∧ setA.status.rtv = true) := by decide

theorem witness_ComppResult :
    State.reset.ctrl.pen = false ∧
    (setA.ctrl.pen = true ∧ (setAWith fun f => { f with pv := false }).status.pv = false) ∧
    ((setAWith fun f => { f with rpv := false }).status.pv = true ∧
      (setAWith fun f => { f with rpv := false }).status.rpv = false) ∧
    ((setAWith fun f => { f with ftv := false }).status.pv = true ∧
      (setAWith fun f => { f with ftv := false }).status.rpv = true ∧
      (setAWith fun f => { f with ftv := false }).status.ftv = false) ∧
    (setA.status.pv = true ∧ setA.status.rpv = true ∧ setA.status.ftv = true) := by decide

/-- Both sides of the pressure guard are reached: `P1 = 0` drives the term to 0, set A does not. -/
theorem witness_ComppResult_guard :
    value32 (pressV1 setA.ft { setA.calP with p1 := 0 }) = some 0 ∧ value32 (pressV1 setA.ft setA.calP) ≠ some 0 := by
  have h0 : unpack32 (pressV1 setA.ft { setA.calP with p1 := 0 }) = .num false 0 1 (-149) := by decide +kernel
  have h1 : unpack32 (pressV1 setA.ft setA.calP) = .num false 9336886 1 (-8) := by decide +kernel
  constructor
  · rw [value32, h0]; simp [exactValue]
  · rw [value32, h1]; simp [exactValue]

theorem witness_ComphResult :
    State.reset.ctrl.hen = false ∧
    (setA.ctrl.hen = true ∧ (setAWith fun f => { f with hv := false }).status.hv = false) ∧
    ((setAWith fun f => { f with rhv := false }).status.hv = true ∧
      (setAWith fun f => { f with rhv := false }).status.rhv = false) ∧
    ((setAWith fun f => { f with ftv := false }).status.hv = true ∧
      (setAWith fun f => { f with ftv := false }).status.rhv = true ∧
      (setAWith fun f => { f with ftv := false }).status.ftv = false) ∧
    (setA.status.hv = true ∧ setA.status.rhv = true ∧ setA.status.ftv = true) := by decide

/-- Both sides of the humidity guard are reached: at `FT = 76800.0` and just above it. -/
theorem witness_ComphResult_guard :
    value64 (humShift 0x47960000#32) = some 0 ∧ value64 (humShift 0x47960001#32) ≠ some 0 := by
  have h0 : unpack64 (humShift 0x47960000#32) = .num false 0 1 (-1074) := by decide +kernel
  have h1 : unpack64 (humShift 0x47960001#32) = .num false 4503599627370496 1 (-59) := by decide +kernel
  constructor
  · simp [value64, h0, exactValue]
  · simp [value64, h1, exactValue]

theorem witness_HumidityGuardExactly :
    setA.ctrl.hen = true ∧ setA.status.hv = true ∧ setA.status.rhv = true ∧ setA.status.ftv = true := by decide

theorem witness_HumidityWithinRange :
    setA.ctrl.hen = true ∧ setA.status.hv = true ∧ setA.status.rhv = true ∧ setA.status.ftv = true ∧
    setA.ft = fineTemperature 519888#20 setA.calT := by decide +kernel

theorem witness_ArithmeticCorrectlyRounded :
    value32 0x3FC00000#32 = some (3 / 2) ∧ value32 0xC0000000#32 = some (-2) ∧
    value64 0x3FF8000000000000#64 = some (3 / 2) ∧ value64 0xC000000000000000#64 = some (-2) := by
  have h1 : unpack32 0x3FC00000#32 = .num false 12582912 1 (-23) := by decide
  have h2 : unpack32 0xC0000000#32 = .num true 8388608 1 (-22) := by decide
  have h3 : unpack64 0x3FF8000000000000#64 = .num false 6755399441055744 1 (-52) := by decide
  have h4 : unpack64 0xC000000000000000#64 = .num true 4503599627370496 1 (-51) := by decide
  refine ⟨?_, ?_, ?_, ?_⟩ <;> simp only [value32, value64, h1, h2, h3, h4, exactValue] <;> norm_num

/-- NaNs, infinities of both signs, zeros of both signs and opposite numbers, in both widths; the four kinds of exponent
field. -/
theorem witness_ArithmeticCorrectlyRounded_special :
    (unpack32 0xFFC00001#32 = .nan ∧ unpack64 0x7FF8000000000001#64 = .nan) ∧
    (unpack32 0x7F800000#32 = .inf false ∧ unpack32 0xFF800000#32 = .inf true ∧
      unpack64 0x7FF0000000000000#64 = .inf false ∧ unpack64 0xFFF0000000000000#64 = .inf true) ∧
    (value32 0x00000000#32 = some 0 ∧ value32 0x80000000#32 = some 0 ∧ value64 0x0000000000000000#64 = some 0 ∧
      value64 0x8000000000000000#64 = some 0) ∧
    (value32 0x3FC00000#32 = some (3 / 2) ∧ value32 0xBFC00000#32 = some (-(3 / 2))) ∧
    ((0x7F800000#32).extractLsb' 23 8).toNat = 2 ^ 8 - 1 ∧ ((0x7F800000#32).extractLsb' 0 23).toNat = 0 ∧
    ((0x7F800001#32).extractLsb' 0 23).toNat ≠ 0 ∧ ((0x007FFFFF#32).extractLsb' 23 8).toNat = 0 ∧
    ((0x7F7FFFFF#32).extractLsb' 23 8).toNat < 2 ^ 8 - 1 := by
  have h1 : unpack32 0x3FC00000#32 = .num false 12582912 1 (-23) := by decide
  have h2 : unpack32 0xBFC00000#32 = .num true 12582912 1 (-23) := by decide
  have h3 : unpack32 0x00000000#32 = .num false 0 1 (-149) := by decide
  have h4 : unpack32 0x80000000#32 = .num true 0 1 (-149) := by decide
  have h5 : unpack64 0x0000000000000000#64 = .num false 0 1 (-1074) := by decide
  have h6 : unpack64 0x8000000000000000#64 = .num true 0 1 (-1074) := by decide
  refine ⟨by decide, by decide, ⟨?_, ?_, ?_, ?_⟩, ⟨?_, ?_⟩, by decide⟩
  · simp [value32, h3, exactValue]
  · simp [value32, h4, exactValue]
  · simp [value64, h5, exactValue]
  · simp [value64, h6, exactValue]
  · simp only [value32, h1, exactValue]; norm_num
  · simp only [value32, h2, exactValue]; norm_num

theorem witness_LuxResult :
    (State.reset.luxi.read 0x1 = none) ∧
    (let s := luxState 0x12#8 1#8 2#8 3#8 4#8
     s.luxi.read 0x1 = some 0x12#8 ∧ s.luxi.read 0xC = some 1#8 ∧ s.luxi.read 0xD = some 2#8 ∧
     s.luxi.read 0xE = some 3#8 ∧ s.luxi.read 0xF = some 4#8 ∧ s.status.timf = true ∧
     ((1#8).toNat + 256 * (2#8).toNat ≠ 0xFFFF ∧ (1#8).toNat + 256 * (2#8).toNat ≠ 0 ∧ (0x12#8).toNat % 4 ≠ 3) ∧
     ({ s with status := Status.reset } : State).status.timf = false) ∧
    (0xFF#8).toNat + 256 * (0xFF#8).toNat = 0xFFFF ∧ (0#8).toNat + 256 * (0#8).toNat = 0 ∧
    (0x13#8).toNat % 4 = 3 := by decide

theorem witness_PowRatioNearest : value32 0x3F000000#32 = some (1 / 2) ∧ value32 0x00000000#32 = some 0 ∧
    (∃ v, value32 (powRatio 0x3F000000#32) = some v) ∧ (∃ v, value32 (powRatio 0x00000000#32) = some v) := by
  have h1 : unpack32 0x3F000000#32 = .num false 8388608 1 (-24) := by decide
  have h2 : unpack32 0x00000000#32 = .num false 0 1 (-149) := by decide
  have h3 : unpack32 (powRatio 0x3F000000#32) = .num false 12714752 1 (-25) := by decide +kernel
  have h4 : unpack32 (powRatio 0x00000000#32) = .num false 0 1 (-149) := by decide +kernel
  refine ⟨?_, ?_, Option.isSome_iff_exists.mp ?_, Option.isSome_iff_exists.mp ?_⟩
  · simp only [value32, h1, exactValue]; norm_num
  · simp [value32, h2, exactValue]
  · rw [value32, h3]; rfl
  · rw [value32, h4]; rfl

/-- R88: a burst's bytes go to rising addresses. -/
theorem test_pseudoWrbuf : (pseudoWrbuf .env 0x88#8 [0x70#8, 0x6B#8]).map encode = [0x01008870#32, 0x0100896B#32] := by
  decide

theorem witness_PmopenResult :
    State.reset.pms.length ≤ (2#4).toNat ∧ (1#4).toNat < State.reset.pms.length ∧
    (measuring (openIdle .cycle)).pms[(0#4).toNat]? = some (openIdle .cycle) ∧ (0#2 ≠ 3#2) ∧
    (openIdle .cycle).opened = true ∧ ({ Measurer.reset with run := true } : Measurer).run = true ∧
    State.reset.pms[(1#4).toNat]? = some Measurer.reset ∧ Measurer.reset.opened = false ∧ Measurer.reset.run = false := by
  decide

theorem witness_PmstartResult :
    State.reset.pms.length ≤ (2#4).toNat ∧
    (State.reset.pms[(1#4).toNat]? = some Measurer.reset ∧ Measurer.reset.opened = false) ∧
    ((measuring published).pms[(0#4).toNat]? = some published ∧ published.run = true) ∧
    ((measuring (openIdle .eirq)).pms[(0#4).toNat]? = some (openIdle .eirq) ∧ (openIdle .eirq).opened = true ∧
      (openIdle .eirq).run = false) := by decide

theorem witness_PmstopResult :
    State.reset.pms.length ≤ (2#4).toNat ∧
    ((measuring published).pms[(0#4).toNat]? = some published ∧ published.run = true ∧ published.strat ≠ .eirq) ∧
    ((measuring fullFifo).pms[(0#4).toNat]? = some fullFifo ∧ fullFifo.run = true ∧ fullFifo.strat = .eirq) ∧
    (State.reset.pms[(1#4).toNat]? = some Measurer.reset ∧ Measurer.reset.run = false) := by decide

theorem witness_PmcloseResult :
    State.reset.pms.length ≤ (2#4).toNat ∧
    (State.reset.pms[(1#4).toNat]? = some Measurer.reset ∧ Measurer.reset.opened = false) ∧
    ((measuring fullFifo).pms[(0#4).toNat]? = some fullFifo ∧ fullFifo.opened = true) := by decide

/-- The clauses of `PMRD` and of `DENS`, with and without a published pair. -/
theorem witness_PmrdResult_DensResult :
    State.reset.pms.length ≤ (2#4).toNat ∧
    (State.reset.pms[(1#4).toNat]? = some Measurer.reset ∧ Measurer.reset.opened = false) ∧
    ((measuring fullFifo).pms[(0#4).toNat]? = some fullFifo ∧ fullFifo.opened = true ∧ fullFifo.strat ≠ .cycle) ∧
    ((measuring published).pms[(0#4).toNat]? = some published ∧ published.opened = true ∧ published.strat = .cycle ∧
      published.pubLen ≠ 0) ∧
    ((measuring (openIdle .cycle)).pms[(0#4).toNat]? = some (openIdle .cycle) ∧ (openIdle .cycle).opened = true ∧
      (openIdle .cycle).pubLen = 0) := by decide

/-- The clauses of `PMAVG` and of `PPM`, with and without data. -/
theorem witness_PmavgResult_PpmResult :
    State.reset.pms.length ≤ (2#4).toNat ∧
    (State.reset.pms[(1#4).toNat]? = some Measurer.reset ∧ Measurer.reset.opened = false) ∧
    ((measuring published).pms[(0#4).toNat]? = some published ∧ published.opened = true ∧ published.strat ≠ .eirq ∧
      published.strat = .cycle) ∧
    ((measuring fullFifo).pms[(0#4).toNat]? = some fullFifo ∧ fullFifo.opened = true ∧ fullFifo.strat = .eirq ∧
      fullFifo.fifo ≠ []) ∧
    ((measuring (openIdle .eirq)).pms[(0#4).toNat]? = some (openIdle .eirq) ∧ (openIdle .eirq).opened = true ∧
      (openIdle .eirq).fifo = []) ∧
    ((measuring (openIdle .epoll)).pms[(0#4).toNat]? = some (openIdle .epoll) ∧ (openIdle .epoll).opened = true ∧
      (openIdle .epoll).strat = .epoll) := by decide

/-- Both ends of the prologue, for a poll task and for an edge callback. -/
theorem witness_PrologueEndsBackgroundStep :
    (let p : Measurer := { running .cycle with stopReq := true }
     (measuring p).pms[(0#4).toNat]? = some p ∧ p.run = true ∧ p.strat ≠ .eirq ∧ p.stopReq = true) ∧
    (let p : Measurer := { running .eirq with opened := false }
     (measuring p).pms[(0#4).toNat]? = some p ∧ p.run = true ∧ p.strat = .eirq ∧ p.stopReq = false ∧
       p.opened = false) := by decide

/-- The window test on both sides of its threshold. -/
theorem witness_PollIntegratesAndPublishes :
    (measuring published).pms[(0#4).toNat]? = some published ∧ published.run = true ∧ published.strat = .cycle ∧
    published.stopReq = false ∧ published.opened = true ∧
    30000 ≤ (61000#32 - published.winStart).toNat ∧ (60999#32 - published.winStart).toNat < 30000 := by decide

theorem witness_EdgeTimestampsPulses :
    ((measuring (running .epoll)).pms[(0#4).toNat]? = some (running .epoll) ∧ (running .epoll).run = true ∧
      (running .epoll).stopReq = false ∧ (running .epoll).opened = true ∧ (running .epoll).strat = .epoll ∧
      (running .epoll).st = .waitingForRise ∧ (1#16).getLsbD (0#4).toNat = true) ∧
    ((measuring fullFifo).pms[(0#4).toNat]? = some fullFifo ∧ fullFifo.run = true ∧ fullFifo.stopReq = false ∧
      fullFifo.opened = true ∧ fullFifo.strat = .eirq ∧ fullFifo.st = .waitingForFall ∧
      (0#16).getLsbD (0#4).toNat = false) := by decide

theorem witness_DisabledBackgroundStepsDoNothing :
    (∀ p, State.reset.pms[(0#4).toNat]? = some p → p.run = false ∨ p.strat = .eirq) ∧
    (∀ p, (measuring published).pms[(0#4).toNat]? = some p → p.run = false ∨ p.strat ≠ .eirq) :=
  ⟨fun p h => by cases h; decide, fun p h => by cases h; decide⟩

theorem witness_OnlyWritesTouchImages :
    (∃ t, exec (.wrb .env 0xFF#8 1#8) setA = .next t) ∧ Instr.wrb .env 0xFF#8 1#8 ≠ .srst := ⟨⟨_, rfl⟩, by decide⟩

theorem witness_BackgroundTouchesOnlyItsMeasurer :
    let s := scheduled [turnOf (.poll 0#4) 61000#32 1#16] (measuring published)
    s.bench.schedule = [{ agent := .poll 0#4, time := 61000#32, pins := 1#16, resetLine := false }] ∧
    ∃ t, step s = .next t := ⟨rfl, ⟨_, rfl⟩⟩

theorem witness_HostReadersKeepMeasurement :
    ∃ t q, exec (.pmrd 0#4) (measuring published) = .next t ∧ (measuring published).pms[0]? = some published ∧
      t.pms[0]? = some q ∧ Instr.pmrd 0#4 ≠ .srst ∧ (∀ m c, Instr.pmrd 0#4 = .pmopen m c → m.toNat ≠ 0) ∧
      (∀ m, Instr.pmrd 0#4 = .pmstart m → m.toNat ≠ 0) ∧ (∀ m, Instr.pmrd 0#4 = .pmclose m → m.toNat ≠ 0) ∧
      (∀ m, Instr.pmrd 0#4 ≠ .pmstop m) :=
  ⟨_, _, rfl, rfl, rfl, by decide, (fun _ _ h => by cases h), (fun _ h => by cases h), (fun _ h => by cases h),
    fun _ h => by cases h⟩

theorem witness_CalibrationImmutableWhileValid :
    (∃ t, step (scheduled [turnOf (.issue 0x10000000#32) 0#32 0#16] setA) = .next t) ∧
    (∀ turn rest, (scheduled [turnOf (.issue 0x10000000#32) 0#32 0#16] setA).bench.schedule = turn :: rest →
      turn.resetLine = false ∧ turn.agent ≠ .issue 0x03000000#32 ∧ turn.agent ≠ .issue 0x0F000000#32) ∧
    setA.status.tv = true ∧ setA.status.pv = true ∧ setA.status.hv = true :=
  ⟨⟨_, rfl⟩, fun turn rest h => by cases h; decide, by decide⟩

/-- States in the middle of their work meet the invariants. -/
theorem witness_invariants :
    imagesOk (luxState 2#8 1#8 0#8 1#8 9#8) ∧ measurersOk (measuring published) ∧ measurersOk (measuring fullFifo) ∧
    flagsOk setA ∧ nansOk setA := by
  refine ⟨?_, ?_, ?_, ?_, ?_⟩
  · unfold imagesOk; decide
  · unfold measurersOk Machine.measurerOk; decide
  · unfold measurersOk Machine.measurerOk; decide
  · unfold flagsOk; decide
  · unfold nansOk nanCanonical; decide

/-- ... and a step is taken from them. -/
theorem witness_invariants_step :
    (∃ t, step (scheduled [turnOf (.poll 0#4) 61000#32 1#16] (measuring published)) = .next t) ∧
    (∃ t, step (scheduled [turnOf (.issue 0x18000000#32) 0#32 0#16] setA) = .next t) ∧
    (∃ t, step (scheduled [turnOf (.issue 0x01108102#32) 0#32 0#16] (luxState 2#8 1#8 0#8 1#8 9#8)) = .next t) :=
  ⟨⟨_, rfl⟩, ⟨_, rfl⟩, ⟨_, rfl⟩⟩

theorem witness_SnapshotIsNeverTorn :
    (measuring published).pms[(0#4).toNat]? = some published ∧ published.opened = true ∧ published.strat = .cycle ∧
    (∃ t, exec (.pmrd 0#4) (measuring published) = .next t) ∧
    (∀ x ∈ [turnOf (.poll 0#4) 61000#32 0#16, turnOf (.regRead 0x108#12) 61000#32 0#16], isQuietTurn x) := by
  refine ⟨rfl, rfl, rfl, ⟨_, rfl⟩, fun x hx => ?_⟩
  rcases List.mem_cons.mp hx with rfl | hx
  · exact ⟨rfl, fun w h => by cases h⟩
  · rcases List.mem_singleton.mp hx with rfl
    exact ⟨rfl, fun w h => by cases h⟩

/-- A stream in which the poll task steps at every turn is weakly fair to it. -/
theorem witness_StopIsEventuallyObeyed :
    let p : Measurer := { running .cycle with stopReq := true }
    (measuring p).pms[(0#4).toNat]? = some p ∧ p.run = true ∧ p.stopReq = true ∧ p.strat ≠ .eirq ∧
    weaklyFair 0#4 (fun _ => turnOf (.poll 0#4) 0#32 0#16) (measuring p) :=
  ⟨rfl, rfl, rfl, by decide, fun k _ => ⟨k, le_refl k, rfl, rfl⟩⟩

end Sys2Proof.Tests
end

section
/-! PROOFS. What a whole turn can leave, said once: the step inversion that every step invariant is proved from, and
the part of it that concerns the list of measurers. -/

namespace Sys2Proof.Machine

/-- What a turn can leave, from the state `u` in which its inputs are latched (R7, R80, R260). -/
inductive TurnEffect (turn : Turn) (u : State) : State → Prop
  | reset (h : turn.resetLine = true) : TurnEffect turn u (resetAll u)
  | resetRead (h : turn.resetLine = true) : TurnEffect turn u (returnRead 0 (resetAll u))
  | idle : TurnEffect turn u u
  | read (n : BitVec 12) (ha : turn.agent = .regRead n) : TurnEffect turn u (returnRead (regRead u n) u)
  | illegal (w : Word) (e : Illegal) (ha : turn.agent = .issue w) (hw : decode w = .error e) :
      TurnEffect turn u (raiseErr .illegal u)
  | command (w : Word) (i : Instr) (t : State) (ha : turn.agent = .issue w) (hw : decode w = .ok i)
      (h : ExecEffect u i t) : TurnEffect turn u t
  | poll (m : BitVec 4) (p : Measurer) (hp : u.pm? m = some p) (he : pollEnabled p = true) :
      TurnEffect turn u (u.setPm m (pollOnce (pinLevel m u) u.bench.time p))
  | edge (m : BitVec 4) (p : Measurer) (hp : u.pm? m = some p) (he : edgeEnabled p = true) :
      TurnEffect turn u (u.setPm m (edgeOnce (pinLevel m u) u.bench.time p))

theorem agentStep_inv {turn : Turn} {u t : State} (h : agentStep turn.agent u = .next t) : TurnEffect turn u t := by
  cases ha : turn.agent with
  | idle => rw [ha] at h; cases h; exact .idle
  | issue w =>
    rw [ha] at h
    cases hw : decode w with
    | ok i =>
      exact .command w i t ha hw (exec_inv ((issueWord_ok u hw).symm.trans h))
    | error e =>
      cases (issueWord_illegal u hw).symm.trans h
      exact .illegal w e ha hw
  | regRead n => rw [ha] at h; cases h; exact .read n ha
  | poll m =>
    rw [ha] at h
    cases h
    rcases pollStep_cases m u with hk | ⟨p, hp, he, hk⟩ <;> rw [hk]
    · exact .idle
    · exact .poll m p hp he
  | edge m =>
    rw [ha] at h
    cases h
    rcases edgeStep_cases m u with hk | ⟨p, hp, he, hk⟩ <;> rw [hk]
    · exact .idle
    · exact .edge m p hp he

theorem resetTurn_inv {turn : Turn} (u : State) (h : turn.resetLine = true) :
    TurnEffect turn u (resetTurn turn.agent u) := by
  rcases resetTurn_eq turn.agent u with hr | hr <;> rw [hr]
  · exact .reset h
  · exact .resetRead h

/-- Everything that a step can leave: the same state where nothing is scheduled, or what its turn leaves. -/
theorem step_inv {s t : State} (h : step s = .next t) :
    (s.bench.schedule = [] ∧ t = s) ∨
    (∃ turn rest, s.bench.schedule = turn :: rest ∧ TurnEffect turn (latchInputs turn (dropTurn s)) t) := by
  rcases step_cases s with ⟨hs, hk⟩ | ⟨turn, rest, hs, hr, hk⟩ | ⟨turn, rest, hs, -, hk⟩ <;> rw [hk] at h
  · cases h
    exact .inl ⟨hs, rfl⟩
  · cases h
    exact .inr ⟨turn, rest, hs, resetTurn_inv _ hr⟩
  · exact .inr ⟨turn, rest, hs, agentStep_inv h⟩

/-- A predicate that no change of the inputs and the schedule disturbs, and that every turn keeps, is kept by every
step. -/
theorem step_keeps {P : State → Prop} (inputs : ∀ turn s, P s → P (latchInputs turn (dropTurn s)))
    (turns : ∀ turn u t, P u → TurnEffect turn u t → P t) {s t : State} (hs : P s) (h : step s = .next t) : P t := by
  rcases step_inv h with ⟨-, rfl⟩ | ⟨turn, rest, -, he⟩
  · exact hs
  · exact turns turn _ t (inputs turn s hs) he

/-- What a turn that touches one measurer leaves of it: a command's effect, or a background step. -/
inductive MeasurerTurn (m : BitVec 4) (u : State) (p : Measurer) : Measurer → Prop
  | command (i : Instr) (q : Measurer) (sent : Bool) (h : MeasurerEffect m u.bench.time p i q sent) :
      MeasurerTurn m u p q
  | poll (he : pollEnabled p = true) : MeasurerTurn m u p (pollOnce (pinLevel m u) u.bench.time p)
  | edge (he : edgeEnabled p = true) : MeasurerTurn m u p (edgeOnce (pinLevel m u) u.bench.time p)

/-- What a list of measurers can become in a turn: itself, all reset, or one measurer of it changed. -/
inductive PmsTurn (u : State) : List Measurer → Prop
  | same : PmsTurn u u.pms
  | reset : PmsTurn u (List.replicate u.pms.length Measurer.reset)
  | one (m : BitVec 4) (p q : Measurer) (hp : u.pm? m = some p) (h : MeasurerTurn m u p q) :
      PmsTurn u (u.pms.set m.toNat q)

theorem ExecEffect.pms {u t : State} {i : Instr} (h : ExecEffect u i t) : PmsTurn u t.pms := by
  cases h with
  | srst => exact .reset
  | measurer m p q i sent hp h => exact .one m p q hp (.command i q sent h)
  | _ => exact .same

theorem TurnEffect.pms {turn : Turn} {u t : State} (h : TurnEffect turn u t) : PmsTurn u t.pms := by
  cases h with
  | reset => exact .reset
  | resetRead => exact .reset
  | idle => exact .same
  | read => exact .same
  | illegal => exact .same
  | command w i t ha hw h => exact h.pms
  | poll m p hp he => exact .one m p _ hp (.poll he)
  | edge m p hp he => exact .one m p _ hp (.edge he)

/-- A turn keeps the number of measurers, `NPM` (R6). -/
theorem PmsTurn.length_eq {u : State} {l : List Measurer} (h : PmsTurn u l) : l.length = u.pms.length := by
  cases h with
  | same => rfl
  | reset => exact List.length_replicate
  | one m p q hp h => exact List.length_set

/-- What holds of a measurer at reset, and is kept by every turn that touches one, is kept of all measurers. -/
theorem PmsTurn.all {u : State} {l : List Measurer} {P : Measurer → Prop} (h : PmsTurn u l) (hreset : P Measurer.reset)
    (hturn : ∀ m p q, P p → MeasurerTurn m u p q → P q) (hu : ∀ p ∈ u.pms, P p) : ∀ q ∈ l, P q := by
  intro q hq
  cases h with
  | same => exact hu q hq
  | reset => rw [List.eq_of_mem_replicate hq]; exact hreset
  | one m p p' hp h =>
    rcases List.mem_or_eq_of_mem_set hq with hq | rfl
    · exact hu q hq
    · exact hturn m p q (hu p (List.mem_of_getElem? hp)) h

end Sys2Proof.Machine
end

section
/-! PROOFS. Every operation on a measurer keeps `measurerOk` (R36, R185, R186, R190, R201, R202). -/

namespace Sys2Proof.Machine

theorem measurerOk_reset : measurerOk Measurer.reset := by unfold measurerOk; decide

/-- A measurer that `PMOPEN` has just opened is in order (R183). -/
theorem measurerOk_opened (k : Strategy) : measurerOk { Measurer.reset with opened := true, strat := k } := by
  cases k <;> unfold measurerOk <;> decide

/-- The registers that the reader commands write are not part of the invariant (R187 to R190). -/
theorem measurerOk_results {p : Measurer} (ho : p.opened = true) (h : measurerOk p) (snapLen snapOn : Word)
    (meanR ppmR densR : F32) :
    measurerOk { p with snapLen := snapLen, snapOn := snapOn, meanR := meanR, ppmR := ppmR, densR := densR } := by
  obtain ⟨hlen, hstop, hpub, hunpub, hfifo, hpwV, hcycle, -⟩ := h
  exact ⟨hlen, hstop, hpub, hunpub, hfifo, hpwV, hcycle, by simp [ho]⟩

theorem measurerOk_started {p : Measurer} (ho : p.opened = true) (h : measurerOk p) (now : Word) :
    measurerOk { p with run := true, stopReq := false, st := .waitingForRise, winStart := now, acc := 0 } := by
  obtain ⟨hlen, -, hpub, hunpub, hfifo, hpwV, hcycle, -⟩ := h
  exact ⟨hlen, by simp, hpub, hunpub, hfifo, hpwV, hcycle, by simp [ho]⟩

/-- Lifecycle bits set in agreement with R185 keep the invariant: a torn down measurer (R186) is one whatever they
are. -/
theorem measurerOk_lifecycle {p : Measurer} (h : measurerOk p) (run stopReq pinErr : Bool)
    (hs : stopReq = true → run = true ∧ p.strat ≠ .eirq) :
    measurerOk { p with run := run, stopReq := stopReq, pinErr := pinErr } := by
  obtain ⟨hlen, -, hpub, hunpub, hfifo, hpwV, hcycle, hclosed⟩ := h
  exact ⟨hlen, hs, hpub, hunpub, hfifo, hpwV, hcycle, fun ho =>
    congrArg (fun q : Measurer => { q with run := run, stopReq := stopReq, pinErr := pinErr }) (hclosed ho)⟩

/-- Everything that `PMSTOP` can do to a measurer (R185). -/
theorem requestStop_cases (p : Measurer) :
    (p.run = false ∧ requestStop p = p) ∨
    (p.run = true ∧ p.strat ≠ .eirq ∧ requestStop p = { p with stopReq := true }) ∨
    (p.run = true ∧ p.strat = .eirq ∧ requestStop p = { p with run := false }) := by
  unfold requestStop
  cases hr : p.run
  · exact .inl ⟨rfl, rfl⟩
  · cases hk : p.strat <;> simp

theorem measurerOk_requestStop {p : Measurer} (h : measurerOk p) : measurerOk (requestStop p) := by
  obtain ⟨-, hstop, -⟩ := id h
  rcases requestStop_cases p with ⟨-, hp⟩ | ⟨hr, hk, hp⟩ | ⟨-, hk, hp⟩ <;> rw [hp]
  · exact h
  · exact measurerOk_lifecycle h p.run true p.pinErr fun _ => ⟨hr, hk⟩
  · exact measurerOk_lifecycle h false p.stopReq p.pinErr fun hs => absurd hk (hstop hs).2

/-- `PMCLOSE` empties the FIFO and withdraws what was published (R186). -/
theorem measurerOk_closed {p : Measurer} (h : measurerOk p) : measurerOk (closedMeasurer p) := by
  obtain ⟨-, hstop, -⟩ := h
  exact ⟨by simp [closedMeasurer, Measurer.reset], hstop, by simp [closedMeasurer, Measurer.reset],
    fun _ => ⟨rfl, rfl⟩, by simp [closedMeasurer, Measurer.reset], by simp [closedMeasurer, Measurer.reset],
    fun _ => ⟨rfl, rfl⟩, fun _ => rfl⟩

/-- Every command keeps the invariant of the measurer it addresses. -/
theorem MeasurerEffect.keeps_measurerOk {m : BitVec 4} {now : Word} {p q : Measurer} {i : Instr} {sent : Bool}
    (h : MeasurerEffect m now p i q sent) (hp : measurerOk p) : measurerOk q := by
  cases h with
  | pmopen code k => exact measurerOk_opened k
  | pmstart ho => exact measurerOk_started ho hp now
  | pmstop => exact measurerOk_requestStop hp
  | pmclose => exact measurerOk_closed hp
  | pmrd ho => exact measurerOk_results ho hp p.pubLen p.pubOn p.meanR p.ppmR p.densR
  | pmavg ho => exact measurerOk_results ho hp p.snapLen p.snapOn _ p.ppmR p.densR
  | ppm ho => exact measurerOk_results ho hp p.snapLen p.snapOn p.meanR _ p.densR
  | dens ho => exact measurerOk_results ho hp p.snapLen p.snapOn p.meanR p.ppmR _

/-- A falling edge pushes a width only in strategy 2, and sets `PWV` with it (R201). -/
theorem measurerOk_recordFall {p : Measurer} (ho : p.opened = true) (h : measurerOk p) (now : Word) :
    measurerOk (recordFall now p) := by
  obtain ⟨hlen, hstop, hpub, hunpub, hfifo, hpwV, hcycle, -⟩ := h
  cases hk : p.strat with
  | cycle =>
    rw [recordFall_cycle now p hk]
    exact ⟨hlen, hstop, hpub, hunpub, hfifo, hpwV, hcycle, by simp [ho]⟩
  | epoll =>
    rw [recordFall_epoll now p hk]
    exact ⟨hlen, hstop, hpub, hunpub, hfifo, by simp [hk], by simp [hk], by simp [ho]⟩
  | eirq =>
    rw [recordFall_eirq now p hk]
    exact ⟨pushWidth_length_le _ _ hlen, hstop, hpub, hunpub, fun _ => hk, by simp [pushWidth_ne_nil], by simp [hk],
      by simp [ho]⟩

theorem measurerOk_observe {p : Measurer} (ho : p.opened = true) (h : measurerOk p) (level : Bool) (now : Word) :
    measurerOk (observe level now p) := by
  rcases observe_cases level now p with ⟨-, -, hp⟩ | ⟨-, -, hp⟩ | ⟨-, hp⟩ <;> rw [hp]
  · obtain ⟨hlen, hstop, hpub, hunpub, hfifo, hpwV, hcycle, -⟩ := h
    exact ⟨hlen, hstop, hpub, hunpub, hfifo, hpwV, hcycle, by simp [ho]⟩
  · exact measurerOk_recordFall ho h now
  · exact h

/-- A window is published at 30000 ms or more, and in strategy 0 only (R200, R202). -/
theorem measurerOk_windowCheck {p : Measurer} (ho : p.opened = true) (hk : p.strat = .cycle) (h : measurerOk p)
    (now : Word) : measurerOk (windowCheck now p) := by
  rcases windowCheck_cases now p with ⟨hw, hp⟩ | ⟨-, hp⟩ <;> rw [hp]
  · obtain ⟨hlen, hstop, -, -, hfifo, hpwV, hcycle, -⟩ := h
    exact ⟨hlen, hstop, fun _ => ⟨hk, hw⟩, by simp, hfifo, hpwV, hcycle, by simp [ho]⟩
  · exact h

/-- Where the prologue ends the step, the measurer stops with no request left (R205). -/
theorem measurerOk_prologue {p q : Measurer} (h : measurerOk p) (hq : backgroundPrologue p = some q) :
    measurerOk q := by
  rcases backgroundPrologue_cases p with ⟨-, hp⟩ | ⟨hs, -, hp⟩ | ⟨-, -, hp⟩ <;> rw [hp] at hq <;> cases hq
  · exact measurerOk_lifecycle h false false p.pinErr (by simp)
  · exact measurerOk_lifecycle h false p.stopReq true (by simp [hs])

/-- Where the prologue lets the step go on, the measurer is open (R205). -/
theorem opened_of_prologue_none {p : Measurer} (h : backgroundPrologue p = none) : p.opened = true := by
  rcases backgroundPrologue_cases p with ⟨-, hp⟩ | ⟨-, -, hp⟩ | ⟨-, ho, -⟩
  · simp [hp] at h
  · simp [hp] at h
  · exact ho

theorem measurerOk_pollOnce {p : Measurer} (h : measurerOk p) (level : Bool) (now : Word) :
    measurerOk (pollOnce level now p) := by
  unfold pollOnce
  split
  next q hq => exact measurerOk_prologue h hq
  next hq =>
    have ho := opened_of_prologue_none hq
    have hobs := measurerOk_observe ho h level now
    obtain ⟨hstrat, hopened, -⟩ := observe_keeps level now p
    split
    next hk => exact measurerOk_windowCheck (hopened.trans ho) (hstrat.trans hk) hobs now
    next => exact hobs
    next => exact hobs

theorem measurerOk_edgeOnce {p : Measurer} (h : measurerOk p) (level : Bool) (now : Word) :
    measurerOk (edgeOnce level now p) := by
  unfold edgeOnce
  split
  next q hq => exact measurerOk_prologue h hq
  next hq => exact measurerOk_observe (opened_of_prologue_none hq) h level now

theorem MeasurerTurn.keeps_measurerOk {m : BitVec 4} {u : State} {p q : Measurer} (h : MeasurerTurn m u p q)
    (hp : measurerOk p) : measurerOk q := by
  cases h with
  | command i q sent h => exact h.keeps_measurerOk hp
  | poll => exact measurerOk_pollOnce hp _ _
  | edge => exact measurerOk_edgeOnce hp _ _

/-- Settles O55: every measurer that a step leaves is as it was, at reset, or changed by one turn, and each of these
keeps `measurerOk`. -/
theorem measurersStayInOrder : Obligations.MeasurersStayInOrder := by
  intro s t hs h
  refine step_keeps (P := measurersOk) (fun _ _ hu => hu) ?_ hs h
  rintro turn u t ⟨hmin, hmax, hall⟩ he
  have hpms := he.pms
  rw [← hpms.length_eq] at hmin hmax
  exact ⟨hmin, hmax, hpms.all measurerOk_reset (fun m p q hp hq => hq.keeps_measurerOk hp) hall⟩

end Sys2Proof.Machine
end

section
/-! PROOFS. Every turn keeps the canonical form of the images (R32, R33) and the parameters (R6). -/

namespace Sys2Proof.Machine

/-- `t` has the parameters `NPM` and `H45_SIGNED` of `s` (R6). -/
def sameParameters (s t : State) : Prop :=
  t.pms.length = s.pms.length ∧ t.bench.h45Signed = s.bench.h45Signed

theorem imagesOk_resetAll (s : State) : imagesOk (resetAll s) := ⟨reset_env_wf, reset_luxi_wf⟩

/-- Only `WRB`, `ENVCLOSE` and `SRST` touch an image, and a write stays inside it (R69, R77). -/
theorem ExecEffect.keeps_imagesOk {u t : State} {i : Instr} (h : ExecEffect u i t) (hu : imagesOk u) : imagesOk t := by
  cases h with
  | wrbEnv a d => exact ⟨wf_write envSize u.env a.toNat d a.isLt hu.1, hu.2⟩
  | wrbLuxi a d c hc => exact ⟨hu.1, wf_write luxiSize u.luxi c d (luxiCell_lt hc) hu.2⟩
  | envclose => exact ⟨wf_nil envSize, hu.2⟩
  | srst => exact imagesOk_resetAll u
  | _ => exact hu

theorem TurnEffect.keeps_imagesOk {turn : Turn} {u t : State} (h : TurnEffect turn u t) (hu : imagesOk u) :
    imagesOk t := by
  cases h with
  | reset => exact imagesOk_resetAll u
  | resetRead => exact imagesOk_resetAll u
  | command w i t ha hw h => exact h.keeps_imagesOk hu
  | _ => exact hu

theorem ExecEffect.bench_eq {u t : State} {i : Instr} (h : ExecEffect u i t) : t.bench = u.bench := by
  cases h <;> rfl

theorem TurnEffect.keeps_parameters {turn : Turn} {u t : State} (h : TurnEffect turn u t) : sameParameters u t := by
  refine ⟨h.pms.length_eq, ?_⟩
  cases h with
  | command w i t ha hw h => rw [h.bench_eq]
  | _ => rfl

/-- Settles O54: the images by what each command writes, the parameters because no turn's effect names them. -/
theorem imagesStayCanonical : Obligations.ImagesStayCanonical := by
  intro s t h
  have himages (hs : imagesOk s) : imagesOk t :=
    step_keeps (P := imagesOk) (fun _ _ hu => hu) (fun _ _ _ hu he => he.keeps_imagesOk hu) hs h
  have hparams : sameParameters s t :=
    step_keeps (P := sameParameters s) (fun _ _ hu => hu)
      (fun _ _ _ hu he => ⟨he.keeps_parameters.1.trans hu.1, he.keeps_parameters.2.trans hu.2⟩) ⟨rfl, rfl⟩ h
  exact ⟨himages, hparams⟩

end Sys2Proof.Machine
end

section
/-! PROOFS. A register is written as its flag is set, and both are cleared together (R29, R104, R105, R112 to R120,
R140). -/

namespace Sys2Proof.Machine

theorem flagsOk_resetAll (s : State) : flagsOk (resetAll s) := by unfold flagsOk; simp [State.reset, Status.reset]

theorem flagsOk_closeEnvironment (s : State) : flagsOk (closeEnvironment s) := by unfold flagsOk; simp

theorem ExecEffect.keeps_flagsOk {u t : State} {i : Instr} (h : ExecEffect u i t) (hu : flagsOk u) : flagsOk t := by
  obtain ⟨hftv, htv, hpv, hhv, hrtv, hrpv, hrhv⟩ := id hu
  cases h with
  | envclose => exact flagsOk_closeEnvironment u
  | srst => exact flagsOk_resetAll u
  | calt c => exact ⟨fun hf => ⟨rfl, (hftv hf).2⟩, by simp, hpv, hhv, hrtv, hrpv, hrhv⟩
  | calp c => exact ⟨hftv, htv, by simp, hhv, hrtv, hrpv, hrhv⟩
  | calh c => exact ⟨hftv, htv, hpv, by simp, hrtv, hrpv, hrhv⟩
  | dect r => exact ⟨by simp, htv, hpv, hhv, by simp, hrpv, hrhv⟩
  | decp r => exact ⟨hftv, htv, hpv, hhv, hrtv, by simp, hrhv⟩
  | dech r => exact ⟨hftv, htv, hpv, hhv, hrtv, hrpv, by simp⟩
  | compt he hv hr => exact ⟨fun _ => ⟨hv, hr⟩, htv, hpv, hhv, hrtv, hrpv, hrhv⟩
  | _ => exact hu

theorem TurnEffect.keeps_flagsOk {turn : Turn} {u t : State} (h : TurnEffect turn u t) (hu : flagsOk u) :
    flagsOk t := by
  cases h with
  | reset => exact flagsOk_resetAll u
  | resetRead => exact flagsOk_resetAll u
  | command w i t ha hw h => exact h.keeps_flagsOk hu
  | _ => exact hu

/-- Settles O56, by the case of each command that sets or clears a flag; every other turn leaves flags and registers
alone. -/
theorem validFlagsStayTruthful : Obligations.ValidFlagsStayTruthful := fun _ _ hs h =>
  step_keeps (P := flagsOk) (fun _ _ hu => hu) (fun _ _ _ hu he => he.keeps_flagsOk hu) hs h

/-- Settles O58: each invariant at the state after reset, by the lemmas about reset values. -/
theorem resetMeetsInvariants : Obligations.ResetMeetsInvariants := by
  have hpms (p : Measurer) (hp : p ∈ State.reset.pms) : p = Measurer.reset := List.eq_of_mem_replicate hp
  refine ⟨⟨reset_env_wf, reset_luxi_wf⟩, ⟨by decide, by decide, fun p hp => ?_⟩, flagsOk_resetAll State.reset,
    nanCanonical_zero, nanCanonical_zero, nanCanonical_zero, nanCanonical_zero, nanCanonical_zero, fun p hp => ?_⟩
  · rw [hpms p hp]
    exact measurerOk_reset
  · rw [hpms p hp]
    exact ⟨nanCanonical_zero, nanCanonical_zero, nanCanonical_zero⟩

end Sys2Proof.Machine
end

section
/-! PROOFS. A valid table changes by `ENVCLOSE`, `SRST` and reset only (R31), and each of the two commands has one word
(R84, R90). -/

namespace Sys2Proof

/-- A word of the format without operands is its opcode alone (R83). -/
theorem formatN_ok {w : Word} {i j : Instr} (h : formatN w i = .ok j) :
    i = j ∧ w = assemble (BitVec.ofNat 8 (opField w).toNat) 0#4 0#16 := by
  obtain ⟨hz, hb, rfl⟩ := checkedFormat_ok h
  simp only [Bool.and_eq_true, beq_iff_eq] at hb
  obtain ⟨hsel, himm⟩ := hb
  refine ⟨rfl, ?_⟩
  rw [BitVec.ofNat_toNat, BitVec.setWidth_eq, ← hsel, ← himm, assemble_fields w hz]

/-- A word that decodes to a command without operands is that command's one word: its mask is every bit (R84, R90). -/
theorem eq_encode_of_decode {w : Word} {i : Instr} (hmask : rowMask i = 0xFFFFFFFF#32) (h : decode w = .ok i) :
    w = encode i := by
  unfold decode at h
  split at h
  case h_24 => cases h
  case h_2 | h_3 | h_16 | h_17 | h_18 | h_19 | h_20 | h_21 | h_22 | h_23 =>
    obtain ⟨-, -, rfl⟩ := checkedFormat_ok h
    simp [rowMask] at hmask
  all_goals
    next hop =>
      obtain ⟨rfl, hw⟩ := formatN_ok h
      rw [hw, hop]
      rfl

end Sys2Proof

namespace Sys2Proof.Machine

/-- The tables that are valid in `s` are valid and unchanged in `t` (R31). -/
def tablesKept (s t : State) : Prop :=
  (s.status.tv = true → t.status.tv = true ∧ t.calT = s.calT) ∧
  (s.status.pv = true → t.status.pv = true ∧ t.calP = s.calP) ∧
  (s.status.hv = true → t.status.hv = true ∧ t.calH = s.calH)

theorem tablesKept_refl (s : State) : tablesKept s s := ⟨fun h => ⟨h, rfl⟩, fun h => ⟨h, rfl⟩, fun h => ⟨h, rfl⟩⟩

/-- `CALT`, `CALP` and `CALH` fail on a valid table (R112, R114, R116). -/
theorem ExecEffect.keeps_tables {u t : State} {i : Instr} (h : ExecEffect u i t) (hclose : i ≠ .envclose)
    (hsrst : i ≠ .srst) : tablesKept u t := by
  obtain ⟨hT, hP, hH⟩ := tablesKept_refl u
  cases h with
  | envclose => exact absurd rfl hclose
  | srst => exact absurd rfl hsrst
  | calt c hv => exact ⟨by simp [hv], hP, hH⟩
  | calp c hv => exact ⟨hT, by simp [hv], hH⟩
  | calh c hv => exact ⟨hT, hP, by simp [hv]⟩
  | _ => exact ⟨hT, hP, hH⟩

/-- Settles O53: a turn that is neither reset nor one of the two words runs a command that keeps valid tables, or no
command at all. -/
theorem calibrationImmutableWhileValid : Obligations.CalibrationImmutableWhileValid := by
  intro s t h hturn
  rcases step_inv h with ⟨-, rfl⟩ | ⟨turn, rest, hs, he⟩
  · exact tablesKept_refl t
  · obtain ⟨hreset, hclose, hsrst⟩ := hturn turn rest hs
    cases he with
    | reset hr => simp [hreset] at hr
    | resetRead hr => simp [hreset] at hr
    | command w i t ha hw h =>
      refine h.keeps_tables ?_ ?_
      · rintro rfl
        exact hclose (by rw [ha, eq_encode_of_decode rfl hw]; rfl)
      · rintro rfl
        exact hsrst (by rw [ha, eq_encode_of_decode rfl hw]; rfl)
    | _ => exact tablesKept_refl s

end Sys2Proof.Machine
end

section
/-! PROOFS. One equation for each range of register numbers (R34, R37, R39). -/

namespace Sys2Proof.Machine

theorem regRead_common (s : State) {n : BitVec 12} (h : n.toNat < 0x100) : regRead s n = readCommon s n.toNat := by
  simp [regRead, h]

theorem regRead_measurer {s : State} {n : BitVec 12} {k offset : Nat} {p : Measurer} (hp : s.pms[k]? = some p)
    (hk : k < 16) (ho : offset < 0x20) (hn : n.toNat = 0x100 + 0x20 * k + offset) :
    regRead s n = readMeasurer p offset := by
  have hdiv : (n.toNat - 0x100) / 0x20 = k := by omega
  have hmod : (n.toNat - 0x100) % 0x20 = offset := by omega
  simp only [regRead]
  rw [if_neg (by omega), if_pos (by omega), hdiv, hmod, hp]

/-- The numbers of measurers that do not exist are unmapped (R37). -/
theorem regRead_noMeasurer {s : State} {n : BitVec 12} (h : 0x100 + 0x20 * s.pms.length ≤ n.toNat)
    (hn : n.toNat < 0x300) : regRead s n = 0 := by
  have hnone : s.pms[(n.toNat - 0x100) / 0x20]? = none := List.getElem?_eq_none (by omega)
  simp only [regRead]
  rw [if_neg (by omega), if_pos hn, hnone]

theorem regRead_gap (s : State) {n : BitVec 12} (h : 0x300 ≤ n.toNat) (hn : n.toNat < 0x400) : regRead s n = 0 := by
  simp only [regRead]
  rw [if_neg (by omega), if_neg (by omega), if_pos hn]

theorem regRead_env (s : State) {n : BitVec 12} {a : Nat} (ha : a < 0x100) (hn : n.toNat = 0x400 + a) :
    regRead s n = readback s.env a := by
  simp only [regRead]
  rw [if_neg (by omega), if_neg (by omega), if_neg (by omega), if_pos (by omega), hn, Nat.add_sub_cancel_left]

theorem regRead_luxi (s : State) {n : BitVec 12} {a : Nat} (ha : a < 0x10) (hn : n.toNat = 0x500 + a) :
    regRead s n = readback s.luxi a := by
  simp only [regRead]
  rw [if_neg (by omega), if_neg (by omega), if_neg (by omega), if_neg (by omega), if_pos (by omega), hn,
    Nat.add_sub_cancel_left]

theorem regRead_above (s : State) {n : BitVec 12} (h : 0x510 ≤ n.toNat) : regRead s n = 0 := by
  simp only [regRead]
  rw [if_neg (by omega), if_neg (by omega), if_neg (by omega), if_neg (by omega), if_neg (by omega)]

/-- Everything that the read port can answer. -/
theorem regRead_cases (s : State) (n : BitVec 12) :
    regRead s n = readCommon s n.toNat ∨ (∃ p ∈ s.pms, ∃ offset, regRead s n = readMeasurer p offset) ∨
    (∃ a, regRead s n = readback s.env a) ∨ (∃ a, regRead s n = readback s.luxi a) ∨ regRead s n = 0 := by
  simp only [regRead]
  split
  · exact .inl rfl
  split
  · split
    next p hp => exact .inr (.inl ⟨p, List.mem_of_getElem? hp, _, rfl⟩)
    next => exact .inr (.inr (.inr (.inr rfl)))
  split
  · exact .inr (.inr (.inr (.inr rfl)))
  split
  · exact .inr (.inr (.inl ⟨_, rfl⟩))
  split
  · exact .inr (.inr (.inr (.inl ⟨_, rfl⟩)))
  · exact .inr (.inr (.inr (.inr rfl)))

/-- The inputs and the schedule are not in any register. -/
@[simp] theorem regRead_latchInputs (t : Turn) (s : State) (n : BitVec 12) :
    regRead (latchInputs t s) n = regRead s n := rfl
@[simp] theorem regRead_dropTurn (s : State) (n : BitVec 12) : regRead (dropTurn s) n = regRead s n := rfl

theorem readback_unwritten {m : Memory} {a : Nat} (h : m.read a = none) : readback m a = 0 := by simp [readback, h]

/-- A written cell reads with bit 8 set over its byte (R39). -/
theorem readback_written {m : Memory} {a : Nat} {v : Byte} (h : m.read a = some v) :
    (readback m a).toNat = 0x100 + v.toNat := by
  have hor := Nat.two_pow_add_eq_or_of_lt v.isLt 1
  simp only [readback, h, BitVec.toNat_or, BitVec.toNat_setWidth_of_le (by decide : 8 ≤ 32)]
  exact hor.symm

/-- The numbers of the common block without a register are unmapped (R37). -/
theorem readCommon_unmapped (s : State) {k : Nat} (h : (0x00A ≤ k ∧ k ≤ 0x00F) ∨ 0x022 ≤ k) : readCommon s k = 0 := by
  unfold readCommon
  split
  case h_29 => rfl
  all_goals omega

theorem readMeasurer_fifo (p : Measurer) {i : Nat} (h : i < 10) : readMeasurer p (0x10 + i) = p.fifo.getD i 0 := by
  interval_cases i <;> rfl

theorem readMeasurer_unmapped (p : Measurer) {k : Nat} (h : (0x0D ≤ k ∧ k ≤ 0x0F) ∨ 0x1A ≤ k) :
    readMeasurer p k = 0 := by
  have hfifo : ¬ (0x10 ≤ k ∧ k < 0x1A) := by omega
  unfold readMeasurer
  split
  case h_14 => exact if_neg hfifo
  all_goals omega

/-- The number of a measurer's register: 0x100, its offset, and 0x20 for each measurer before it (R34). -/
theorem measurerNumber_toNat (m : BitVec 4) {k : Nat} (hk : k < 0x120) :
    (BitVec.ofNat 12 k + 0x20#12 * m.setWidth 12).toNat = k + 0x20 * m.toNat := by
  have hm := m.isLt
  simp only [BitVec.toNat_add, BitVec.toNat_mul, BitVec.toNat_ofNat, BitVec.toNat_setWidth]
  omega

theorem regRead_offset {s : State} {m : BitVec 4} {p : Measurer} (hp : s.pms[m.toNat]? = some p) {offset : Nat}
    (ho : offset < 0x20) :
    regRead s (BitVec.ofNat 12 (0x100 + offset) + 0x20#12 * m.setWidth 12) = readMeasurer p offset :=
  regRead_measurer hp m.isLt ho (by rw [measurerNumber_toNat m (by omega)]; omega)

end Sys2Proof.Machine
end

section
/-! PROOFS. The statements about the read port, each from the equation of its range. -/

namespace Sys2Proof.Machine

/-- Settles O9: a read turn writes the port's answer and nothing of the machine. -/
theorem regReadChangesNothing : Obligations.RegReadChangesNothing := by
  intro s n time pins rest h
  rw [step_turn h, takeTurn_agent _ rfl]
  simp only [agentStep, regRead_latchInputs, regRead_dropTurn]
  simp [returnRead, latchInputs, dropTurn, h]

/-- Settles O12: the address finds the image's range of numbers, and the cell's state decides what it reads as. -/
theorem imageReadback : Obligations.ImageReadback := by
  have henv (a : Byte) : (0x400#12 + a.setWidth 12).toNat = 0x400 + a.toNat := by bv_omega
  have hluxi (a : BitVec 4) : (0x500#12 + a.setWidth 12).toNat = 0x500 + a.toNat := by bv_omega
  refine ⟨fun s a v h => ?_, fun s a h => ?_, fun s a v h => ?_, fun s a h => ?_⟩
  · rw [regRead_env s a.isLt (henv a), readback_written h]
  · rw [regRead_env s a.isLt (henv a), readback_unwritten h]
  · rw [regRead_luxi s a.isLt (hluxi a), readback_written h]
  · rw [regRead_luxi s a.isLt (hluxi a), readback_unwritten h]

/-- Settles O13: the offsets from the equation of a measurer's range, the unmapped numbers range by range. -/
theorem measurerAndUnmappedReads : Obligations.MeasurerAndUnmappedReads := by
  refine ⟨fun s m p hp => ?_, fun s n h => ?_⟩
  · have hread {offset : Nat} (ho : offset < 0x20) := regRead_offset hp ho
    refine ⟨hread (offset := 1) (by decide), hread (offset := 2) (by decide), hread (offset := 3) (by decide),
      hread (offset := 4) (by decide), hread (offset := 5) (by decide), hread (offset := 6) (by decide),
      hread (offset := 7) (by decide), hread (offset := 8) (by decide), hread (offset := 9) (by decide),
      hread (offset := 10) (by decide), hread (offset := 11) (by decide), hread (offset := 12) (by decide),
      fun i hi => ?_, fun i hlo hhi => ?_, fun i hlo hhi => ?_⟩
    · rw [← BitVec.ofNat_add, ← readMeasurer_fifo p hi, ← hread (by omega), ← Nat.add_assoc]
    · rw [← BitVec.ofNat_add, hread (by omega), readMeasurer_unmapped p (by omega)]
    · rw [← BitVec.ofNat_add, hread (by omega), readMeasurer_unmapped p (by omega)]
  · rcases h with h | h | h | h | h
    · rw [regRead_common s (by omega), readCommon_unmapped s (by omega)]
    · rw [regRead_common s (by omega), readCommon_unmapped s (by omega)]
    · exact regRead_noMeasurer h.1 (by omega)
    · exact regRead_gap s h.1 (by omega)
    · exact regRead_above s h

theorem readCommon_reset (k : Nat) : readCommon State.reset k = 0 := by
  unfold readCommon
  split <;> rfl

theorem readMeasurer_reset (k : Nat) : readMeasurer Measurer.reset k = 0 := by
  unfold readMeasurer
  split
  case h_14 => simp [Measurer.reset]
  all_goals rfl

/-- Settles O14: whatever range a number falls in, the port answers with something that reset cleared. -/
theorem resetReadsZero : Obligations.ResetReadsZero := by
  intro n
  rcases regRead_cases State.reset n with h | ⟨p, hp, k, h⟩ | ⟨a, h⟩ | ⟨a, h⟩ | h <;> rw [h]
  · exact readCommon_reset _
  · rw [List.eq_of_mem_replicate hp]
    exact readMeasurer_reset k
  · exact readback_unwritten (read_nil a)
  · exact readback_unwritten (read_nil a)

theorem readH45_unsigned (h : BitVec 12) : (readH45 false h).toNat = h.toNat := by
  simp only [readH45, Bool.false_eq_true, if_false, BitVec.toNat_setWidth_of_le (by decide : 12 ≤ 32)]

theorem readH45_signed (h : BitVec 12) : (readH45 true h).toInt = h.toInt := by
  simp [readH45, BitVec.toInt_signExtend_of_le]

/-- Settles O11: each register's equation of the common block, and what either extension makes of its number. -/
theorem readSignConvention : Obligations.ReadSignConvention := by
  intro s
  have zeroExt {w : Nat} (x : BitVec w) (h : w ≤ 32) : (x.setWidth 32).toNat = x.toNat :=
    BitVec.toNat_setWidth_of_le h
  have signExt {w : Nat} (x : BitVec w) (h : w ≤ 32) : (x.signExtend 32).toInt = x.toInt :=
    BitVec.toInt_signExtend_of_le h
  refine ⟨zeroExt s.calT.t1 (by decide), signExt s.calT.t2 (by decide), signExt s.calT.t3 (by decide),
    zeroExt s.calP.p1 (by decide), signExt s.calP.p2 (by decide), signExt s.calP.p3 (by decide),
    signExt s.calP.p4 (by decide), signExt s.calP.p5 (by decide), signExt s.calP.p6 (by decide),
    signExt s.calP.p7 (by decide), signExt s.calP.p8 (by decide), signExt s.calP.p9 (by decide),
    zeroExt s.calH.h1 (by decide), signExt s.calH.h2 (by decide), zeroExt s.calH.h3 (by decide),
    fun h => ?_, fun h => ?_, signExt s.calH.h6 (by decide),
    zeroExt s.rawT (by decide), zeroExt s.rawP (by decide), zeroExt s.rawH (by decide), rfl, rfl, rfl, rfl, rfl⟩
  · have h4 := readH45_unsigned s.calH.h4
    have h5 := readH45_unsigned s.calH.h5
    rw [← h] at h4 h5
    exact ⟨h4, h5⟩
  · have h4 := readH45_signed s.calH.h4
    have h5 := readH45_signed s.calH.h5
    rw [← h] at h4 h5
    exact ⟨h4, h5⟩

end Sys2Proof.Machine
end

section
/-! PROOFS. A flag word is a concatenation, so a bit of it is a bit of one of its two parts (R22, R23, R35). -/

namespace Sys2Proof.Machine

theorem getLsbD_append_low {n k i : Nat} (x : BitVec n) (y : BitVec k) (h : i < k) :
    (x ++ y).getLsbD i = y.getLsbD i := by
  rw [BitVec.getLsbD_append, if_pos h]

theorem getLsbD_append_high {n k i : Nat} (x : BitVec n) (y : BitVec k) (h : k ≤ i) :
    (x ++ y).getLsbD i = x.getLsbD (i - k) := by
  rw [BitVec.getLsbD_append, if_neg (by omega)]

theorem statusWord_fields (f : Status) :
    (statusWord f).extractLsb' 0 4 = f.err.code ∧
    (statusWord f).getLsbD 4 = f.sent ∧
    (∀ i, 5 ≤ i → i ≤ 7 → (statusWord f).getLsbD i = false) ∧
    (statusWord f).getLsbD 8 = f.tv ∧
    (statusWord f).getLsbD 9 = f.pv ∧
    (statusWord f).getLsbD 10 = f.hv ∧
    (statusWord f).getLsbD 11 = f.rtv ∧
    (statusWord f).getLsbD 12 = f.rpv ∧
    (statusWord f).getLsbD 13 = f.rhv ∧
    (statusWord f).getLsbD 14 = f.ftv ∧
    (statusWord f).getLsbD 15 = f.timf ∧
    (∀ i, 16 ≤ i → i ≤ 30 → (statusWord f).getLsbD i = false) ∧
    (statusWord f).getLsbD 31 = f.fault := by
  unfold statusWord
  refine ⟨?_, ?_, fun i hlo hhi => ?_, ?_, ?_, ?_, ?_, ?_, ?_, ?_, ?_, fun i hlo hhi => ?_, ?_⟩
  case refine_1 => rw [BitVec.extractLsb'_append_eq_of_add_le (by decide), BitVec.extractLsb'_eq_self]
  all_goals simp (disch := omega) only [getLsbD_append_low, getLsbD_append_high, BitVec.getLsbD_zero]
  all_goals simp

theorem ctrlWord_fields (c : Ctrl) :
    (ctrlWord c).getLsbD 0 = c.ten ∧ (ctrlWord c).getLsbD 1 = c.pen ∧ (ctrlWord c).getLsbD 2 = c.hen ∧
    (∀ i, 3 ≤ i → (ctrlWord c).getLsbD i = false) := by
  unfold ctrlWord
  refine ⟨?_, ?_, ?_, fun i hi => ?_⟩
  all_goals simp (disch := omega) only [getLsbD_append_low, getLsbD_append_high, BitVec.getLsbD_zero]
  all_goals simp

theorem pmstatWord_fields (p : Measurer) :
    (pmstatWord p).getLsbD 0 = p.opened ∧
    (pmstatWord p).getLsbD 1 = p.run ∧
    (pmstatWord p).getLsbD 2 = p.stopReq ∧
    (pmstatWord p).getLsbD 3 = p.pinErr ∧
    (pmstatWord p).extractLsb' 4 2 = p.strat.code ∧
    (pmstatWord p).extractLsb' 6 1 = p.st.code ∧
    (pmstatWord p).getLsbD 7 = p.pubV ∧
    (pmstatWord p).getLsbD 8 = p.pwV ∧
    (pmstatWord p).extractLsb' 9 4 = BitVec.ofNat 4 p.fifo.length ∧
    (∀ i, 13 ≤ i → (pmstatWord p).getLsbD i = false) := by
  unfold pmstatWord
  refine ⟨?_, ?_, ?_, ?_, ?_, ?_, ?_, ?_, ?_, fun i hi => ?_⟩
  all_goals simp (disch := omega) only [getLsbD_append_low, getLsbD_append_high, BitVec.getLsbD_zero,
    BitVec.extractLsb'_append_eq_of_le, BitVec.extractLsb'_append_eq_of_add_le, Nat.reduceSub,
    BitVec.extractLsb'_eq_self]
  all_goals simp

/-- Settles O10: the layouts of the three words, at the numbers where the port gives them. -/
theorem flagWordLayouts : Obligations.FlagWordLayouts := by
  refine ⟨fun s => ?_, fun s m p hp hlen => ?_⟩
  · have hstatus : regRead s 0x000#12 = statusWord s.status := rfl
    have hctrl : regRead s 0x001#12 = ctrlWord s.ctrl := rfl
    obtain ⟨herr, hsent, hlow, htv, hpv, hhv, hrtv, hrpv, hrhv, hftv, htimf, hhigh, hfault⟩ :=
      statusWord_fields s.status
    rw [hstatus, hctrl, herr]
    exact ⟨by cases s.status.err <;> rfl, hsent, hlow, htv, hpv, hhv, hrtv, hrpv, hrhv, hftv, htimf, hhigh, hfault,
      ctrlWord_fields s.ctrl⟩
  · have hpmstat : regRead s (0x100#12 + 0x20#12 * m.setWidth 12) = pmstatWord p :=
      regRead_offset hp (offset := 0) (by decide)
    obtain ⟨hopen, hrun, hstop, hpin, hstrat, hst, hpubV, hpwV, hcnt, hhigh⟩ := pmstatWord_fields p
    rw [hpmstat, hstrat, hst, hcnt]
    exact ⟨hopen, hrun, hstop, hpin, by cases p.strat <;> rfl, by cases p.st <;> rfl, hpubV, hpwV,
      Nat.mod_eq_of_lt (by omega), hhigh⟩

end Sys2Proof.Machine
end

section
/-! PROOFS. What each command leaves of the two images, and so of every cell of them (R69, R77, R102, R104). -/

namespace Sys2Proof.Machine

/-- A `LUXI` address names the cell of its low four bits, where bits 6:4 are 0 (R77). -/
theorem luxiCell_eq_some_iff {a : Byte} {c : Nat} :
    luxiCell a = some c ↔ a.toNat % 16 = c ∧ a.toNat / 16 % 8 = 0 := by
  have hcell : (a.extractLsb' 0 4).toNat = a.toNat % 16 := by simp
  have hcheck : a.extractLsb' 4 3 = 0#3 ↔ a.toNat / 16 % 8 = 0 := by
    simp [← BitVec.toNat_inj, Nat.shiftRight_eq_div_pow]
  unfold luxiCell
  split
  next h => simp only [Option.some.injEq, hcell, hcheck.mp h, and_true]
  next h => simp only [reduceCtorEq, mt hcheck.mpr h, and_false]

/-- A cell reads after a write as before, or it is the cell written (R65). -/
theorem read_write_cases (m : Memory) (a b : Nat) (d : Byte) : (m.write a d).read b = m.read b ∨ a = b :=
  (eq_or_ne b a).symm.imp (read_write_other m a b d) Eq.symm

/-- The `ENV` image after a command other than `SRST`: as before, emptied by `ENVCLOSE`, or with one byte written. -/
theorem ExecEffect.env_cases {u t : State} {i : Instr} (h : ExecEffect u i t) (hsrst : i ≠ .srst) :
    t.env = u.env ∨ i = .envclose ∨ ∃ a d, i = .wrb .env a d ∧ t.env = u.env.write a.toNat d := by
  cases h with
  | srst => exact absurd rfl hsrst
  | envclose => exact .inr (.inl rfl)
  | wrbEnv a d => exact .inr (.inr ⟨a, d, rfl, rfl⟩)
  | _ => exact .inl rfl

/-- The `LUXI` image after a command other than `SRST`: as before, or with one byte written where the address names a
cell; `ENVCLOSE` keeps it (R104). -/
theorem ExecEffect.luxi_cases {u t : State} {i : Instr} (h : ExecEffect u i t) (hsrst : i ≠ .srst) :
    t.luxi = u.luxi ∨ ∃ a d c, i = .wrb .luxi a d ∧ luxiCell a = some c ∧ t.luxi = u.luxi.write c d := by
  cases h with
  | srst => exact absurd rfl hsrst
  | wrbLuxi a d c hc => exact .inr ⟨a, d, c, rfl, hc, rfl⟩
  | _ => exact .inl rfl

/-- Settles O50: an image that a `WRB` wrote differs from the one before at the cell that its address names, and every
command else but `ENVCLOSE` and `SRST` leaves both images whole. -/
theorem onlyWritesTouchImages : Obligations.OnlyWritesTouchImages := by
  intro i s t h hsrst
  have he := exec_inv h
  refine ⟨fun cell => ?_, fun cell => ?_⟩
  · rcases he.env_cases hsrst with henv | hclose | ⟨a, d, hi, henv⟩
    · exact .inl (by rw [henv])
    · exact .inr (.inl hclose)
    · rw [henv]
      exact (read_write_cases s.env a.toNat cell d).imp_right fun hcell => .inr ⟨d, a, hi, hcell⟩
  · rcases he.luxi_cases hsrst with hluxi | ⟨a, d, c, hi, hc, hluxi⟩
    · exact .inl (by rw [hluxi])
    · obtain ⟨hlow, hcheck⟩ := luxiCell_eq_some_iff.mp hc
      rw [hluxi]
      exact (read_write_cases s.luxi c cell d).imp_right fun hcell => ⟨d, a, hi, hlow.trans hcell, hcheck⟩

end Sys2Proof.Machine
end

section
/-! PROOFS. Each format of R83 in both directions: it reads the operands back from an assembled word, and a word that it
accepts is assembled from the operands it reads. -/

namespace Sys2Proof

theorem checkedFormat_of_unused {w : Word} {b : Bool} {i : Instr} (hz : zField w = 0#4) (hb : b = true) :
    checkedFormat w b i = .ok i := by
  simp [checkedFormat, hz, hb]

/-- A number whose high bits are 0 is its low bits. -/
theorem eq_zero_append_low {n k : Nat} {x : BitVec (n + k)} (h : x.extractLsb' k n = 0#n) :
    x = 0#n ++ x.extractLsb' 0 k := by
  rw [← h, BitVec.extractLsb'_append_extractLsb']

/-- The image that format `B` reads from `sp` has that bit (R85). -/
theorem bit_of_sp (b : BitVec 1) : (if b = 0#1 then Space.env else .luxi).bit = b := by
  revert b
  decide

theorem sp_of_bit (sp : Space) : (if sp.bit = 0#1 then Space.env else .luxi) = sp := by
  cases sp <;> rfl

theorem formatN_assemble (op : BitVec 8) (i : Instr) : formatN (assemble op 0#4 0#16) i = .ok i :=
  checkedFormat_of_unused (zField_assemble ..) (by simp)

theorem formatB_assemble (op : BitVec 8) (sp : Space) (a d : Byte) (mk : Space → Byte → Byte → Instr) :
    formatB (assemble op (0#3 ++ sp.bit) (a ++ d)) mk = .ok (mk sp a d) := by
  unfold formatB
  rw [checkedFormat_of_unused (zField_assemble ..)] <;> rw [selField_assemble]
  · rw [immField_assemble, BitVec.extractLsb'_append_eq_right, BitVec.extractLsb'_append_eq_left,
      BitVec.extractLsb'_append_eq_right, sp_of_bit]
  · rw [BitVec.extractLsb'_append_eq_left, beq_self_eq_true]

theorem formatC_assemble (op : BitVec 8) (imm3 : BitVec 3) (mk : BitVec 3 → Instr) :
    formatC (assemble op 0#4 (0#13 ++ imm3)) mk = .ok (mk imm3) := by
  unfold formatC
  rw [checkedFormat_of_unused (zField_assemble ..)] <;> rw [immField_assemble]
  · rw [BitVec.extractLsb'_append_eq_right]
  · rw [selField_assemble, BitVec.extractLsb'_append_eq_left]
    rfl

theorem formatM_assemble (op : BitVec 8) (m : BitVec 4) (mk : BitVec 4 → Instr) :
    formatM (assemble op m 0#16) mk = .ok (mk m) := by
  unfold formatM
  rw [checkedFormat_of_unused (zField_assemble ..), selField_assemble]
  rw [immField_assemble, beq_self_eq_true]

theorem formatMS_assemble (op : BitVec 8) (m : BitVec 4) (s : BitVec 2) (mk : BitVec 4 → BitVec 2 → Instr) :
    formatMS (assemble op m (0#14 ++ s)) mk = .ok (mk m s) := by
  unfold formatMS
  rw [checkedFormat_of_unused (zField_assemble ..)] <;> rw [immField_assemble]
  · rw [selField_assemble, BitVec.extractLsb'_append_eq_right]
  · rw [BitVec.extractLsb'_append_eq_left, beq_self_eq_true]

/-- A word that a format accepts, put together again from its opcode as the decoder's rows spell it (R84). -/
theorem eq_assemble_of_opField {w : Word} {sel : BitVec 4} {imm : BitVec 16} (hz : zField w = 0#4)
    (hsel : selField w = sel) (himm : immField w = imm) :
    w = assemble (BitVec.ofNat 8 (opField w).toNat) sel imm := by
  rw [BitVec.ofNat_toNat, BitVec.setWidth_eq, ← hsel, ← himm, assemble_fields w hz]

theorem formatB_ok {w : Word} {mk : Space → Byte → Byte → Instr} {i : Instr} (h : formatB w mk = .ok i) :
    ∃ sp a d, i = mk sp a d ∧ w = assemble (BitVec.ofNat 8 (opField w).toNat) (0#3 ++ sp.bit) (a ++ d) := by
  obtain ⟨hz, hsel, rfl⟩ := checkedFormat_ok h
  refine ⟨_, _, _, rfl, eq_assemble_of_opField hz ?_ (BitVec.extractLsb'_append_extractLsb' (w := 8) (len := 8)).symm⟩
  rw [bit_of_sp]
  exact eq_zero_append_low (beq_iff_eq.mp hsel)

theorem formatC_ok {w : Word} {mk : BitVec 3 → Instr} {i : Instr} (h : formatC w mk = .ok i) :
    ∃ imm3, i = mk imm3 ∧ w = assemble (BitVec.ofNat 8 (opField w).toNat) 0#4 (0#13 ++ imm3) := by
  obtain ⟨hz, hunused, rfl⟩ := checkedFormat_ok h
  simp only [Bool.and_eq_true, beq_iff_eq] at hunused
  obtain ⟨hsel, himm⟩ := hunused
  exact ⟨_, rfl, eq_assemble_of_opField hz hsel (eq_zero_append_low himm)⟩

theorem formatM_ok {w : Word} {mk : BitVec 4 → Instr} {i : Instr} (h : formatM w mk = .ok i) :
    ∃ m, i = mk m ∧ w = assemble (BitVec.ofNat 8 (opField w).toNat) m 0#16 := by
  obtain ⟨hz, himm, rfl⟩ := checkedFormat_ok h
  exact ⟨_, rfl, eq_assemble_of_opField hz rfl (beq_iff_eq.mp himm)⟩

theorem formatMS_ok {w : Word} {mk : BitVec 4 → BitVec 2 → Instr} {i : Instr} (h : formatMS w mk = .ok i) :
    ∃ m s, i = mk m s ∧ w = assemble (BitVec.ofNat 8 (opField w).toNat) m (0#14 ++ s) := by
  obtain ⟨hz, himm, rfl⟩ := checkedFormat_ok h
  exact ⟨_, _, rfl, eq_assemble_of_opField hz rfl (eq_zero_append_low (beq_iff_eq.mp himm))⟩

end Sys2Proof
end

section
/-! PROOFS. Decoding and encoding are inverse to each other: the opcode finds the row, and the row's format does the rest
(R82 to R85). -/

namespace Sys2Proof

/-- Settles O1: the opcode of the assembled word selects the command's own row, whose format reads its operands back. -/
theorem decodeEncodeRoundTrip : Obligations.DecodeEncodeRoundTrip := by
  intro i
  cases i with
  | wrb sp a d =>
    rw [encode, decode, opField_assemble]
    exact formatB_assemble ..
  | wrc imm3 =>
    rw [encode, decode, opField_assemble]
    exact formatC_assemble ..
  | pmopen m s =>
    rw [encode, decode, opField_assemble]
    exact formatMS_assemble ..
  | pmstart m | pmstop m | pmclose m | pmrd m | pmavg m | ppm m | dens m =>
    rw [encode, decode, opField_assemble]
    exact formatM_assemble ..
  | _ =>
    rw [encode, decode, opField_assemble]
    exact formatN_assemble ..

/-- Settles O2: the row that accepted the word fixes its opcode, and the row's format every other bit of it. -/
theorem encodeOfDecodedWord : Obligations.EncodeOfDecodedWord := by
  intro w i h
  unfold decode at h
  split at h
  case h_24 => cases h
  case h_2 hop =>
    obtain ⟨sp, a, d, rfl, hw⟩ := formatB_ok h
    rw [hw, hop]
    rfl
  case h_3 hop =>
    obtain ⟨imm3, rfl, hw⟩ := formatC_ok h
    rw [hw, hop]
    rfl
  case h_16 hop =>
    obtain ⟨m, s, rfl, hw⟩ := formatMS_ok h
    rw [hw, hop]
    rfl
  case h_17 hop | h_18 hop | h_19 hop | h_20 hop | h_21 hop | h_22 hop | h_23 hop =>
    obtain ⟨m, rfl, hw⟩ := formatM_ok h
    rw [hw, hop]
    rfl
  all_goals
    next hop =>
      obtain ⟨rfl, hw⟩ := formatN_ok h
      rw [hw, hop]
      rfl

end Sys2Proof
end

section
/-! PROOFS. The rows of mask and match (R84, R90): every mask holds `op` and `z` whole, and of `sel` and `imm` the bits that
the command's format does not use. -/

namespace Sys2Proof

/-- The word of a command spells its row, one law a command. -/
theorem encode_and_rowMask : ∀ i : Instr, encode i &&& rowMask i = rowMatch i
  | .nop => Laws.EncodesItsRow.nop
  | .wrb sp a d => Laws.EncodesItsRow.wrb sp a d
  | .wrc imm3 => Laws.EncodesItsRow.wrc imm3
  | .envclose => Laws.EncodesItsRow.envclose
  | .srst => Laws.EncodesItsRow.srst
  | .calt => Laws.EncodesItsRow.calt
  | .calp => Laws.EncodesItsRow.calp
  | .calh => Laws.EncodesItsRow.calh
  | .dect => Laws.EncodesItsRow.dect
  | .decp => Laws.EncodesItsRow.decp
  | .dech => Laws.EncodesItsRow.dech
  | .compt => Laws.EncodesItsRow.compt
  | .compp => Laws.EncodesItsRow.compp
  | .comph => Laws.EncodesItsRow.comph
  | .lux => Laws.EncodesItsRow.lux
  | .pmopen m s => Laws.EncodesItsRow.pmopen m s
  | .pmstart m => Laws.EncodesItsRow.pmstart m
  | .pmstop m => Laws.EncodesItsRow.pmstop m
  | .pmclose m => Laws.EncodesItsRow.pmclose m
  | .pmrd m => Laws.EncodesItsRow.pmrd m
  | .pmavg m => Laws.EncodesItsRow.pmavg m
  | .ppm m => Laws.EncodesItsRow.ppm m
  | .dens m => Laws.EncodesItsRow.dens m

/-- Bits that a mask holds whole are the masked word's bits. -/
theorem extractLsb'_of_masked {n start len : Nat} {x mask v : BitVec n} (h : x &&& mask = v)
    (hmask : mask.extractLsb' start len = BitVec.allOnes len) : x.extractLsb' start len = v.extractLsb' start len := by
  rw [← h, BitVec.extractLsb'_and, hmask, BitVec.and_allOnes]

theorem selField_masked {w mask v : Word} (h : w &&& mask = v) : selField w &&& selField mask = selField v := by
  rw [← h]
  exact BitVec.extractLsb'_and.symm

theorem immField_masked {w mask v : Word} (h : w &&& mask = v) : immField w &&& immField mask = immField v := by
  rw [← h]
  exact BitVec.extractLsb'_and.symm

theorem opField_rowMask (j : Instr) : opField (rowMask j) = BitVec.allOnes 8 := by
  cases j <;> rw [rowMask] <;> rfl

theorem zField_rowMask (j : Instr) : zField (rowMask j) = BitVec.allOnes 4 := by
  cases j <;> rw [rowMask] <;> rfl

theorem zField_rowMatch (j : Instr) : zField (rowMatch j) = 0#4 := by
  cases j <;> rw [rowMatch] <;> rfl

/-- A word that matches a row decodes to a command of that row: the opcode is the row's, `z` is 0, and so is each part of
`sel` and `imm` that the row's format checks. -/
theorem decode_of_row {w : Word} {j : Instr} (h : w &&& rowMask j = rowMatch j) :
    ∃ i, decode w = .ok i ∧ i.mnemonic = j.mnemonic := by
  have hop : opField w = opField (rowMatch j) := extractLsb'_of_masked h (opField_rowMask j)
  have hz : zField w = 0#4 := (extractLsb'_of_masked h (zField_rowMask j)).trans (zField_rowMatch j)
  rw [decode, hop]
  cases j <;> rw [rowMask, rowMatch] at h <;> rw [rowMatch]
  case wrb =>
    have hsel : (selField w).extractLsb' 1 3 = 0#3 := extractLsb'_of_masked (selField_masked h) rfl
    exact ⟨_, checkedFormat_of_unused hz (beq_iff_eq.mpr hsel), rfl⟩
  case wrc =>
    have hsel : selField w = 0#4 := extractLsb'_of_masked h rfl
    have himm : (immField w).extractLsb' 3 13 = 0#13 := extractLsb'_of_masked (immField_masked h) rfl
    exact ⟨_, checkedFormat_of_unused hz (by rw [hsel, himm]; rfl), rfl⟩
  case pmopen =>
    have himm : (immField w).extractLsb' 2 14 = 0#14 := extractLsb'_of_masked (immField_masked h) rfl
    exact ⟨_, checkedFormat_of_unused hz (beq_iff_eq.mpr himm), rfl⟩
  case pmstart | pmstop | pmclose | pmrd | pmavg | ppm | dens =>
    have himm : immField w = 0#16 := extractLsb'_of_masked h rfl
    exact ⟨_, checkedFormat_of_unused hz (beq_iff_eq.mpr himm), rfl⟩
  all_goals
    have hsel : selField w = 0#4 := extractLsb'_of_masked h rfl
    have himm : immField w = 0#16 := extractLsb'_of_masked h rfl
    exact ⟨_, checkedFormat_of_unused hz (by rw [hsel, himm]; rfl), rfl⟩

/-- Settles O3: a word that decodes is its command's word, which spells the row; a word that matches a row passes the
checks of the row's format. -/
theorem decodeMatchesMaskTable : Obligations.DecodeMatchesMaskTable := by
  refine ⟨fun w i h => ?_, fun w j h => decode_of_row h⟩
  rw [← encodeOfDecodedWord w i h]
  exact encode_and_rowMask i

theorem decode_error_of_no_row {w : Word} (h : ∀ j : Instr, w &&& rowMask j ≠ rowMatch j) :
    ∃ e, decode w = .error e := by
  cases hw : decode w with
  | error e => exact ⟨e, rfl⟩
  | ok i => exact absurd (decodeMatchesMaskTable.1 w i hw) (h i)

/-- Settles O4: the first eight are the words of their commands, and the last five each fail one check. -/
theorem sampleWordsDecode : Obligations.SampleWordsDecode :=
  ⟨decodeEncodeRoundTrip (.wrb .env 0x88#8 0x70#8), decodeEncodeRoundTrip (.wrb .luxi 0x0C#8 0x34#8),
    decodeEncodeRoundTrip (.wrc 3#3), decodeEncodeRoundTrip .calt, decodeEncodeRoundTrip .comph,
    decodeEncodeRoundTrip .lux, decodeEncodeRoundTrip (.pmopen 1#4 2#2), decodeEncodeRoundTrip (.dens 15#4),
    rfl, rfl, rfl, rfl, rfl⟩

end Sys2Proof
end

section
/-! PROOFS. The host's `Issue` as a step of the machine: the command of a legal word is executed, an illegal word raises
its error (R81, R86). -/

namespace Sys2Proof.Machine

/-- A turn that issues a word, `RESET` not asserted, is `Issue` at the state that has lost the turn and has its inputs. -/
theorem step_issue {s : State} {w time : Word} {pins : BitVec 16} {rest : List Turn}
    (h : s.bench.schedule = { agent := .issue w, time := time, pins := pins, resetLine := false } :: rest) :
    step s = issueWord w { s with bench := { s.bench with schedule := rest, time := time, pins := pins } } := by
  rw [step_turn h, takeTurn_agent _ rfl]
  simp [agentStep, latchInputs, dropTurn, h]

/-- Where all 32 bits of a word are given, the machine runs that word at the very state (notes/assumptions/3.md). -/
theorem step_withFetchWord (s : State) (w : Word) : step (s.withFetchWord 32 w.toNat) = issueWord w s := by
  have hw : BitVec.ofNat 32 (w.toNat % 2 ^ 32) = w := by
    rw [Nat.mod_eq_of_lt w.isLt, BitVec.ofNat_toNat, BitVec.setWidth_eq]
  rw [State.withFetchWord, hw]
  exact step_issue rfl

/-- Settles O5: a word that no row matches does not decode, and issuing it is `raise Err(ILLEGAL)` and nothing else. -/
theorem illegalWordRaisesIllegal : Obligations.IllegalWordRaisesIllegal := by
  intro s w time pins rest hrow h
  obtain ⟨e, hw⟩ := decode_error_of_no_row hrow
  rw [step_issue h, issueWord_illegal _ hw]
  rfl

/-- Settles O6: a legal word runs its command; the second clause needs that the word of a command decodes to it. -/
theorem stepRunsDecodedCommand : Obligations.StepRunsDecodedCommand := by
  refine ⟨fun s w i time pins rest h hw => ?_, fun s i => ?_⟩
  · rw [step_issue h, issueWord_ok _ hw]
  · rw [step_withFetchWord, issueWord_ok s (decodeEncodeRoundTrip i)]

end Sys2Proof.Machine
end

section
/-! PROOFS. The control commands (R100 to R105): the next state of each, said once, then the statements about them. -/

namespace Sys2Proof.Machine

theorem exec_nop (s : State) : exec .nop s = .next (complete false s) := rfl

theorem exec_wrb_env (a d : Byte) (s : State) :
    exec (.wrb .env a d) s = .next (complete false { s with env := s.env.write a.toNat d }) := rfl

/-- Where a `LUXI` address names a cell, the byte goes there, and cell 1 sets `TIMF` (R30, R102). -/
theorem exec_wrb_luxi {a : Byte} {c : Nat} (d : Byte) (s : State) (h : luxiCell a = some c) :
    exec (.wrb .luxi a d) s =
      .next (complete false { s with
        luxi := s.luxi.write c d, status := { s.status with timf := s.status.timf || c == 1 } }) :=
  retire_ok (c := writeImage .luxi a d) (e := ⟨_, false⟩) (by simp only [writeImage, h])

theorem exec_wrb_luxi_addr {a : Byte} (d : Byte) (s : State) (h : luxiCell a = none) :
    exec (.wrb .luxi a d) s = .next (raiseErr .addr s) :=
  retire_error (c := writeImage .luxi a d) (by simp only [writeImage, h])

theorem exec_wrc (imm3 : BitVec 3) (s : State) :
    exec (.wrc imm3) s =
      .next (complete false { s with
        ctrl := { ten := imm3.getLsbD 0, pen := imm3.getLsbD 1, hen := imm3.getLsbD 2 } }) := rfl

theorem exec_envclose (s : State) : exec .envclose s = .next (complete false (closeEnvironment s)) := rfl

theorem exec_srst (s : State) : exec .srst s = .next (complete false (resetAll s)) := rfl

theorem luxiCell_eq_none_iff {a : Byte} : luxiCell a = none ↔ a.toNat / 16 % 8 ≠ 0 := by
  simp [Option.eq_none_iff_forall_ne_some, luxiCell_eq_some_iff]

/-- The model sets `TIMF` by an OR; read as a case on the cell written (R30). -/
theorem or_cellOne_eq_ite (timf : Bool) (c : Nat) : (timf || c == 1) = if c = 1 then true else timf := by
  split <;> simp [*]

/-- Closing the environment leaves of `STATUS` only `TIMF` and `FAULT`, once the command has completed (R104). -/
theorem complete_closeEnvironment_status (s : State) :
    (complete false (closeEnvironment s)).status =
      { Status.reset with timf := s.status.timf, fault := s.status.fault } := rfl

/-- The reset `STATUS` already reads `ERR = 0`, `SENT = 0`, so completing adds nothing to a reset (R54, R105). -/
theorem complete_resetAll (s : State) : complete false (resetAll s) = resetAll s := rfl

/-- The immediate of a command word lies below its other fields, so it can be OR-ed in (R82). -/
theorem assemble_eq_or (op : BitVec 8) (sel : BitVec 4) (imm : BitVec 16) :
    assemble op sel imm = assemble op sel 0#16 ||| imm.setWidth 32 := by
  have himm : imm.setWidth 32 = 0#16 ++ imm := BitVec.setWidth_eq_append (by decide)
  rw [himm, assemble, assemble, BitVec.or_append, BitVec.or_zero, BitVec.zero_or]

/-- Settles O18: a write reads back at the cell that its address names (R77), and every other cell reads as before. -/
theorem wrbResult : Obligations.WrbResult := by
  refine ⟨fun s a d => ?_, fun s a d hcheck => ?_, fun s a d hcheck => ?_⟩
  · exact ⟨s.env.write a.toNat d, exec_wrb_env a d s, read_write_same .., fun b => read_write_other _ _ b d⟩
  · have hcell : luxiCell a = some (a.toNat % 16) := luxiCell_eq_some_iff.mpr ⟨rfl, hcheck⟩
    refine ⟨s.luxi.write (a.toNat % 16) d, ?_, read_write_same .., fun b => read_write_other _ _ b d⟩
    rw [exec_wrb_luxi d s hcell, or_cellOne_eq_ite]
    rfl
  · exact exec_wrb_luxi_addr d s (luxiCell_eq_none_iff.mpr hcheck)

/-- Settles O17: `NOP` completes with the state as it is. -/
theorem nopResult : Obligations.NopResult := ⟨rfl, exec_nop⟩

/-- Settles O19: the immediate is the low end of the word, and its three bits are the new `CTRL`. -/
theorem wrcResult : Obligations.WrcResult := by
  intro s imm3
  refine ⟨?_, exec_wrc imm3 s⟩
  have himm : 0#13 ++ imm3 = imm3.setWidth 16 := (BitVec.setWidth_eq_append (by decide)).symm
  rw [encode, assemble_eq_or, himm, BitVec.setWidth_setWidth (by decide)]
  rfl

/-- Settles O20: what `closeEnvironment` leaves, field by field; an image with no written cell reads nothing. -/
theorem envcloseResult : Obligations.EnvcloseResult := by
  refine ⟨rfl, fun s => ⟨_, exec_envclose s, complete_closeEnvironment_status s, rfl, ?_⟩⟩
  simp

/-- Settles O21: `SRST` leaves what `resetAll` leaves. -/
theorem srstResult : Obligations.SrstResult := ⟨rfl, fun s => by rw [exec_srst, complete_resetAll, resetAll]⟩

end Sys2Proof.Machine
end

section
/-! PROOFS. What the cells of an image decode to (R110): the words, samples and tables of written cells, and nothing
where a cell is unwritten. -/

namespace Sys2Proof.Machine

/-- The `n` cells from `base` on are written and hold the bytes `b 0`, `b 1`, … -/
def cellsHold (m : Memory) (base n : Nat) (b : Nat → Byte) : Prop := ∀ k, k < n → m.read (base + k) = some (b k)

/-- The little-endian word whose low byte is `b k`, as its 16 bits (R67). -/
def leBits (b : Nat → Byte) (k : Nat) : BitVec 16 := b (k + 1) ++ b k

theorem leBits_toNat (b : Nat → Byte) (k : Nat) : (leBits b k).toNat = leWord b k := by
  rw [leBits, leWord, BitVec.toNat_append, ← Nat.shiftLeft_add_eq_or_of_lt (b k).isLt, Nat.shiftLeft_eq]
  omega

theorem leBits_toInt (b : Nat → Byte) (k : Nat) : (leBits b k).toInt = s16 (leWord b k) := by
  rw [toInt_eq_s16, leBits_toNat]

theorem wordLE_of_cellsHold {m : Memory} {base n : Nat} {b : Nat → Byte} (h : cellsHold m base n b) (k : Nat)
    (hk : k + 1 < n) : wordLE m (base + k) = some (leBits b k) :=
  (wordLE_spec ..).mpr ⟨b k, b (k + 1), h k (by omega), h (k + 1) hk, leBits_toNat b k⟩

/-- Among consecutive words an unwritten cell `k` makes word `k / 2` undefined, as its low or as its high byte. -/
theorem exists_wordLE_none {m : Memory} {base n : Nat} (h : ∃ k, k < 2 * n ∧ m.read (base + k) = none) :
    ∃ j, j < n ∧ wordLE m (base + 2 * j) = none := by
  obtain ⟨k, hk, hcell⟩ := h
  refine ⟨k / 2, by omega, (wordLE_none ..).mpr ?_⟩
  rcases Nat.mod_two_eq_zero_or_one k with hlow | hhigh
  · left
    rwa [show base + 2 * (k / 2) = base + k by omega]
  · right
    rwa [show base + 2 * (k / 2) + 1 = base + k by omega]

theorem decodeCalT_of_cellsHold {m : Memory} {b : Nat → Byte} (h : cellsHold m 0x88 6 b) :
    decodeCalT m = some { t1 := leBits b 0, t2 := leBits b 2, t3 := leBits b 4 } := by
  have word := wordLE_of_cellsHold h
  simp [decodeCalT, word 0, word 2, word 4]

theorem decodeCalT_unwritten {m : Memory} (h : ∃ k, k < 6 ∧ m.read (0x88 + k) = none) : decodeCalT m = none := by
  obtain ⟨j, hj, hword⟩ := exists_wordLE_none (n := 3) h
  interval_cases j <;> simp [decodeCalT, hword]

theorem decodeCalP_of_cellsHold {m : Memory} {b : Nat → Byte} (h : cellsHold m 0x8E 18 b) :
    decodeCalP m = some
      { p1 := leBits b 0, p2 := leBits b 2, p3 := leBits b 4, p4 := leBits b 6, p5 := leBits b 8, p6 := leBits b 10
        p7 := leBits b 12, p8 := leBits b 14, p9 := leBits b 16 } := by
  have word := wordLE_of_cellsHold h
  simp [decodeCalP, word 0, word 2, word 4, word 6, word 8, word 10, word 12, word 14, word 16]

theorem decodeCalP_unwritten {m : Memory} (h : ∃ k, k < 18 ∧ m.read (0x8E + k) = none) : decodeCalP m = none := by
  obtain ⟨j, hj, hword⟩ := exists_wordLE_none (n := 9) h
  interval_cases j <;> simp [decodeCalP, hword]

/-- `H4` in `ENV[0xE4..0xE5]`: a whole byte above the low nibble of the next (R116). -/
def packH4 (e4 e5 : Byte) : BitVec 12 := (e4.setWidth 12 <<< 4) ||| (e5 &&& 0x0F#8).setWidth 12

/-- `H5` in `ENV[0xE5..0xE6]`: the word without its low nibble, which belongs to `H4` (R116). -/
def packH5 (w : BitVec 16) : BitVec 12 := (w >>> 4).setWidth 12

theorem packH4_toNat (e4 e5 : Byte) : (packH4 e4 e5).toNat = 16 * e4.toNat + e5.toNat % 16 := by
  have hhigh : (e4.setWidth 12 <<< 4).toNat = 2 ^ 4 * e4.toNat := by
    simp [BitVec.toNat_shiftLeft, Nat.shiftLeft_eq]; omega
  have hlow : ((e5 &&& 0x0F#8).setWidth 12).toNat = e5.toNat % 2 ^ 4 := by
    rw [BitVec.toNat_setWidth_of_le (by decide), BitVec.toNat_and]
    exact Nat.and_two_pow_sub_one_eq_mod e5.toNat 4
  rw [packH4, BitVec.toNat_or, hhigh, hlow, ← Nat.two_pow_add_eq_or_of_lt (Nat.mod_lt _ (by decide))]

theorem packH5_toNat (w : BitVec 16) : (packH5 w).toNat = w.toNat / 16 := by
  have := w.isLt
  rw [packH5, BitVec.toNat_setWidth, BitVec.toNat_ushiftRight, Nat.shiftRight_eq_div_pow]
  omega

theorem decodeCalH_of_cellsHold {m : Memory} {a : Byte} {b : Nat → Byte} (ha : m.read 0xA1 = some a)
    (h : cellsHold m 0xE1 7 b) :
    decodeCalH m = some
      { h1 := a, h2 := leBits b 0, h3 := b 2, h4 := packH4 (b 3) (b 4), h5 := packH5 (leBits b 4), h6 := b 6 } := by
  have word := wordLE_of_cellsHold h
  simp [decodeCalH, packH4, packH5, ha, word 0, h 2, h 3, h 4, word 4, h 6]

/-- The cells of the humidity table are two words and five single bytes, `0xE5` in a word and a byte (R116). -/
theorem decodeCalH_unwritten {m : Memory} (h : m.read 0xA1 = none ∨ ∃ k, k < 7 ∧ m.read (0xE1 + k) = none) :
    decodeCalH m = none := by
  rcases h with h1 | ⟨k, hk, hcell⟩
  · simp [decodeCalH, h1]
  · have low (a : Nat) (ha : m.read a = none) : wordLE m a = none := (wordLE_none m a).mpr (.inl ha)
    have high (a : Nat) (ha : m.read (a + 1) = none) : wordLE m a = none := (wordLE_none m a).mpr (.inr ha)
    interval_cases k
    · simp [decodeCalH, low 0xE1 hcell]
    · simp [decodeCalH, high 0xE1 hcell]
    · simp [decodeCalH, hcell]
    · simp [decodeCalH, hcell]
    · simp [decodeCalH, hcell]
    · simp [decodeCalH, high 0xE5 hcell]
    · simp [decodeCalH, hcell]

theorem raw20_of_read {m : Memory} {a : Nat} {msb lsb xlsb : Byte} (h0 : m.read a = some msb)
    (h1 : m.read (a + 1) = some lsb) (h2 : m.read (a + 2) = some xlsb) :
    ∃ r, raw20 m a = some r ∧ r.toNat = msb.toNat * 4096 + lsb.toNat * 16 + xlsb.toNat / 16 := by
  refine ⟨_, by simp only [raw20, h0, h1, h2]; rfl, ?_⟩
  rw [orSample_toNat, Nat.mul_comm 4096, Nat.mul_comm 16]

theorem raw20_unwritten {m : Memory} {a : Nat} (h : ∃ k, k < 3 ∧ m.read (a + k) = none) : raw20 m a = none := by
  obtain ⟨k, hk, hcell⟩ := h
  rw [raw20_none]
  interval_cases k
  · exact .inl hcell
  · exact .inr (.inl hcell)
  · exact .inr (.inr hcell)

theorem raw16_of_read {m : Memory} {a : Nat} {msb lsb : Byte} (h0 : m.read a = some msb)
    (h1 : m.read (a + 1) = some lsb) : ∃ r, raw16 m a = some r ∧ r.toNat = msb.toNat * 256 + lsb.toNat := by
  refine ⟨_, by simp only [raw16, h0, h1]; rfl, ?_⟩
  rw [BitVec.or_comm, orBytes_toNat, Nat.mul_comm, Nat.add_comm]

theorem raw16_unwritten {m : Memory} {a : Nat} (h : ∃ k, k < 2 ∧ m.read (a + k) = none) : raw16 m a = none := by
  obtain ⟨k, hk, hcell⟩ := h
  rw [raw16_none]
  interval_cases k
  · exact .inl hcell
  · exact .inr hcell

theorem h45Value_unsigned (h : BitVec 12) : h45Value false h = h.toNat := rfl

theorem h45Value_signed (h : BitVec 12) :
    h45Value true h = if h.toNat < 2048 then (h.toNat : Int) else (h.toNat : Int) - 4096 := by
  rw [h45Value, if_pos rfl, BitVec.toInt_eq_toNat_cond]
  split <;> split <;> omega

end Sys2Proof.Machine
end

section
/-! PROOFS. The calibration and raw-sample commands (R112 to R120): each is its lock check, where it has one, and
the one decoding that either finds an unwritten cell or gives the new register. -/

namespace Sys2Proof.Machine

/-- What a command leaves that decoded `o` from the image and stores it by `store` (R65, R110). -/
def afterLoad {α : Type} (s : State) (o : Option α) (store : α → State) : State :=
  o.elim (raiseErr .unwritten s) fun x => complete false (store x)

theorem afterLoad_some {α : Type} (s : State) (x : α) (store : α → State) :
    afterLoad s (some x) store = complete false (store x) := rfl

theorem afterLoad_none {α : Type} (s : State) (store : α → State) :
    afterLoad s none store = raiseErr .unwritten s := rfl

/-- A command's rule that goes by one decoding and then by nothing else. -/
theorem retire_eq_afterLoad {α : Type} {c : Command} {s : State} {o : Option α} {store : α → State}
    (hnone : o = none → c s = .error .unwritten)
    (hsome : ∀ x, o = some x → c s = .ok { state := store x, sent := false }) :
    retire c s = .next (afterLoad s o store) := by
  cases o with
  | none => exact retire_error (hnone rfl)
  | some x => exact retire_ok (hsome x rfl)

theorem exec_calt_locked {s : State} (h : s.status.tv = true) : exec .calt s = .next (raiseErr .calLocked s) :=
  retire_error (c := loadCalT) (by simp only [loadCalT, h, if_true])

theorem exec_calt {s : State} (h : s.status.tv = false) :
    exec .calt s = .next (afterLoad s (decodeCalT s.env) fun c =>
      { s with calT := c, status := { s.status with tv := true } }) :=
  retire_eq_afterLoad (c := loadCalT) (fun hx => by simp [loadCalT, h, hx]) fun _ hx => by simp [loadCalT, h, hx]

theorem exec_calp_locked {s : State} (h : s.status.pv = true) : exec .calp s = .next (raiseErr .calLocked s) :=
  retire_error (c := loadCalP) (by simp only [loadCalP, h, if_true])

theorem exec_calp {s : State} (h : s.status.pv = false) :
    exec .calp s = .next (afterLoad s (decodeCalP s.env) fun c =>
      { s with calP := c, status := { s.status with pv := true } }) :=
  retire_eq_afterLoad (c := loadCalP) (fun hx => by simp [loadCalP, h, hx]) fun _ hx => by simp [loadCalP, h, hx]

theorem exec_calh_locked {s : State} (h : s.status.hv = true) : exec .calh s = .next (raiseErr .calLocked s) :=
  retire_error (c := loadCalH) (by simp only [loadCalH, h, if_true])

theorem exec_calh {s : State} (h : s.status.hv = false) :
    exec .calh s = .next (afterLoad s (decodeCalH s.env) fun c =>
      { s with calH := c, status := { s.status with hv := true } }) :=
  retire_eq_afterLoad (c := loadCalH) (fun hx => by simp [loadCalH, h, hx]) fun _ hx => by simp [loadCalH, h, hx]

theorem exec_dect (s : State) :
    exec .dect s = .next (afterLoad s (raw20 s.env 0xFA) fun r =>
      { s with rawT := r, status := { s.status with rtv := true, ftv := false } }) :=
  retire_eq_afterLoad (c := loadRawT) (fun hx => by simp only [loadRawT, hx]) fun _ hx => by simp only [loadRawT, hx]

theorem exec_decp (s : State) :
    exec .decp s = .next (afterLoad s (raw20 s.env 0xF7) fun r =>
      { s with rawP := r, status := { s.status with rpv := true } }) :=
  retire_eq_afterLoad (c := loadRawP) (fun hx => by simp only [loadRawP, hx]) fun _ hx => by simp only [loadRawP, hx]

theorem exec_dech (s : State) :
    exec .dech s = .next (afterLoad s (raw16 s.env 0xFD) fun r =>
      { s with rawH := r, status := { s.status with rhv := true } }) :=
  retire_eq_afterLoad (c := loadRawH) (fun hx => by simp only [loadRawH, hx]) fun _ hx => by simp only [loadRawH, hx]

/-- Settles O22: the three words are those at the even offsets of the table's six cells. -/
theorem caltResult : Obligations.CaltResult := by
  refine ⟨rfl, fun _ => exec_calt_locked, fun s htv hcell => ?_, fun s b htv hb => ?_⟩
  · rw [exec_calt htv, decodeCalT_unwritten hcell, afterLoad_none]
  · have hexec := exec_calt htv
    rw [decodeCalT_of_cellsHold hb, afterLoad_some] at hexec
    exact ⟨_, hexec, leBits_toNat b 0, leBits_toInt b 2, leBits_toInt b 4⟩

/-- Settles O23: the nine words are those at the even offsets of the table's eighteen cells. -/
theorem calpResult : Obligations.CalpResult := by
  refine ⟨rfl, fun _ => exec_calp_locked, fun s hpv hcell => ?_, fun s b hpv hb => ?_⟩
  · rw [exec_calp hpv, decodeCalP_unwritten hcell, afterLoad_none]
  · have hexec := exec_calp hpv
    rw [decodeCalP_of_cellsHold hb, afterLoad_some] at hexec
    exact ⟨_, hexec, leBits_toNat b 0, leBits_toInt b 2, leBits_toInt b 4, leBits_toInt b 6, leBits_toInt b 8,
      leBits_toInt b 10, leBits_toInt b 12, leBits_toInt b 14, leBits_toInt b 16⟩

/-- Settles O24: `H4` and `H5` share the byte at `0xE5`, its low nibble in the one and its high nibble in the other. -/
theorem calhResult : Obligations.CalhResult := by
  refine ⟨rfl, fun _ => exec_calh_locked, fun s hhv hcell => ?_, fun s a b hhv ha hb => ?_,
    fun h => ⟨h45Value_unsigned h, h45Value_signed h⟩⟩
  · rw [exec_calh hhv, decodeCalH_unwritten hcell, afterLoad_none]
  · have h5 : (packH5 (leBits b 4)).toNat = 16 * (b 5).toNat + (b 4).toNat / 16 := by
      have hword : leWord b 4 = (b 4).toNat + 256 * (b 5).toNat := rfl
      rw [packH5_toNat, leBits_toNat, hword]
      omega
    have hexec := exec_calh hhv
    rw [decodeCalH_of_cellsHold ha hb, afterLoad_some] at hexec
    exact ⟨_, hexec, rfl, leBits_toInt b 0, rfl, packH4_toNat (b 3) (b 4), h5, toInt_eq_s8 (b 6)⟩

/-- Settles O25: the sample of the three cells is stored, and `FTV` falls with it. -/
theorem dectResult : Obligations.DectResult := by
  refine ⟨rfl, fun s hcell => ?_, fun s msb lsb xlsb h0 h1 h2 => ?_⟩
  · rw [exec_dect, raw20_unwritten hcell, afterLoad_none]
  · obtain ⟨r, hr, hval⟩ := raw20_of_read h0 h1 h2
    have hexec := exec_dect s
    rw [hr, afterLoad_some] at hexec
    exact ⟨r, hexec, hval⟩

/-- Settles O26: as for the temperature, from the pressure's cells and without touching `FTV`. -/
theorem decpResult : Obligations.DecpResult := by
  refine ⟨rfl, fun s hcell => ?_, fun s msb lsb xlsb h0 h1 h2 => ?_⟩
  · rw [exec_decp, raw20_unwritten hcell, afterLoad_none]
  · obtain ⟨r, hr, hval⟩ := raw20_of_read h0 h1 h2
    have hexec := exec_decp s
    rw [hr, afterLoad_some] at hexec
    exact ⟨r, hexec, hval⟩

/-- Settles O27: a sample of two cells. -/
theorem dechResult : Obligations.DechResult := by
  refine ⟨rfl, fun s hcell => ?_, fun s msb lsb h0 h1 => ?_⟩
  · rw [exec_dech, raw16_unwritten hcell, afterLoad_none]
  · obtain ⟨r, hr, hval⟩ := raw16_of_read h0 h1
    have hexec := exec_dech s
    rw [hr, afterLoad_some] at hexec
    exact ⟨r, hexec, hval⟩

end Sys2Proof.Machine
end

section
/-! PROOFS. Every result register is written with a rounded result, a constant or 0, and no such value is a NaN other than
the canonical one (R134). -/

namespace Sys2Proof.Machine

/-- No result register of the measurer holds a NaN other than the canonical one (R134). -/
def measurerNansOk (p : Measurer) : Prop := nanCanonical p.meanR ∧ nanCanonical p.ppmR ∧ nanCanonical p.densR

theorem nanCanonical_ite {c : Prop} [Decidable c] {x y : F32} (hx : nanCanonical x) (hy : nanCanonical y) :
    nanCanonical (if c then x else y) := by
  split
  · exact hx
  · exact hy

theorem nanCanonical_getD {o : Option F32} (h : ∀ x, o = some x → nanCanonical x) : nanCanonical (o.getD 0) := by
  cases o with
  | none => exact nanCanonical_zero
  | some x => exact h x rfl

theorem nanCanonical_compensatePressure (raw : BitVec 20) (ft : F32) (c : CalP) :
    nanCanonical ((compensatePressure raw ft c).getD 0) := by
  refine nanCanonical_getD fun x hx => ?_
  simp only [compensatePressure, Option.ite_none_left_eq_some, Option.some.injEq] at hx
  rw [← hx.2]
  exact nanCanonical_round32 _

theorem nanCanonical_humClamp (z : F64) : nanCanonical (humClamp z) :=
  nanCanonical_ite (nanCanonical_round32 _) <|
    nanCanonical_ite (nanCanonical_round32 _) (nanCanonical_round32 _)

theorem nanCanonical_compensateHumidity (isSigned : Bool) (raw : BitVec 16) (ft : F32) (c : CalH) :
    nanCanonical ((compensateHumidity isSigned raw ft c).getD 0) := by
  refine nanCanonical_getD fun x hx => ?_
  simp only [compensateHumidity, Option.ite_none_left_eq_some, Option.some.injEq] at hx
  rw [← hx.2]
  exact nanCanonical_humClamp _

theorem nanCanonical_satLux : nanCanonical Config.satLux := by unfold nanCanonical; decide

/-- Every segment of the lux formula ends in a subtraction, and beyond the last one the result is +0.0 (R161). -/
theorem nanCanonical_illuminance (ch0 ch1 : BitVec 16) (t : Timing) : nanCanonical (illuminance ch0 ch1 t) :=
  nanCanonical_ite (nanCanonical_round32 _) <| nanCanonical_ite (nanCanonical_round32 _) <|
    nanCanonical_ite (nanCanonical_round32 _) <| nanCanonical_ite (nanCanonical_round32 _) nanCanonical_zero

theorem measurerNansOk_reset : measurerNansOk Measurer.reset :=
  ⟨nanCanonical_zero, nanCanonical_zero, nanCanonical_zero⟩

theorem measurerNansOk_requestStop {p : Measurer} (h : measurerNansOk p) : measurerNansOk (requestStop p) := by
  rcases requestStop_cases p with ⟨-, hp⟩ | ⟨-, -, hp⟩ | ⟨-, -, hp⟩ <;> rw [hp] <;> exact h

/-- The three reader commands that compute write a rounded result or +0.0 (R188 to R190). -/
theorem MeasurerEffect.keeps_nans {m : BitVec 4} {now : Word} {p q : Measurer} {i : Instr} {sent : Bool}
    (h : MeasurerEffect m now p i q sent) (hp : measurerNansOk p) : measurerNansOk q := by
  obtain ⟨hmean, hppm, hdens⟩ := id hp
  cases h with
  | pmopen => exact measurerNansOk_reset
  | pmclose => exact measurerNansOk_reset
  | pmstart => exact hp
  | pmstop => exact measurerNansOk_requestStop hp
  | pmrd => exact hp
  | pmavg => exact ⟨nanCanonical_ite nanCanonical_zero (nanCanonical_round32 _), hppm, hdens⟩
  | ppm => exact ⟨hmean, nanCanonical_round32 _, hdens⟩
  | dens => exact ⟨hmean, hppm, nanCanonical_ite nanCanonical_zero (nanCanonical_round32 _)⟩

/-- A background step writes none of the result registers (R208). -/
theorem measurerNansOk_observe {p : Measurer} (h : measurerNansOk p) (level : Bool) (now : Word) :
    measurerNansOk (observe level now p) := by
  rcases observe_cases level now p with ⟨-, -, hp⟩ | ⟨-, -, hp⟩ | ⟨-, hp⟩ <;> rw [hp]
  · exact h
  · cases hk : p.strat with
    | cycle => rw [recordFall_cycle now p hk]; exact h
    | epoll => rw [recordFall_epoll now p hk]; exact h
    | eirq => rw [recordFall_eirq now p hk]; exact h
  · exact h

theorem measurerNansOk_windowCheck {p : Measurer} (h : measurerNansOk p) (now : Word) :
    measurerNansOk (windowCheck now p) := by
  rcases windowCheck_cases now p with ⟨-, hp⟩ | ⟨-, hp⟩ <;> rw [hp] <;> exact h

theorem measurerNansOk_prologue {p q : Measurer} (h : measurerNansOk p) (hq : backgroundPrologue p = some q) :
    measurerNansOk q := by
  rcases backgroundPrologue_cases p with ⟨-, hp⟩ | ⟨-, -, hp⟩ | ⟨-, -, hp⟩ <;> rw [hp] at hq <;> cases hq <;> exact h

theorem MeasurerTurn.keeps_nans {m : BitVec 4} {u : State} {p q : Measurer} (h : MeasurerTurn m u p q)
    (hp : measurerNansOk p) : measurerNansOk q := by
  cases h with
  | command i q sent h => exact h.keeps_nans hp
  | poll =>
    unfold pollOnce
    split
    next q hq => exact measurerNansOk_prologue hp hq
    next =>
      split
      next => exact measurerNansOk_windowCheck (measurerNansOk_observe hp _ _) _
      next => exact measurerNansOk_observe hp _ _
      next => exact measurerNansOk_observe hp _ _
  | edge =>
    unfold edgeOnce
    split
    next q hq => exact measurerNansOk_prologue hp hq
    next => exact measurerNansOk_observe hp _ _

/-- No result register of the environment and lux sensors holds a NaN other than the canonical one (R134). -/
def blockNansOk (s : State) : Prop :=
  nanCanonical s.temp ∧ nanCanonical s.ft ∧ nanCanonical s.press ∧ nanCanonical s.hum ∧ nanCanonical s.luxR

theorem nansOk_iff (s : State) : nansOk s ↔ blockNansOk s ∧ ∀ p ∈ s.pms, measurerNansOk p := by
  unfold nansOk blockNansOk measurerNansOk
  tauto

theorem blockNansOk_resetAll (s : State) : blockNansOk (resetAll s) :=
  ⟨nanCanonical_zero, nanCanonical_zero, nanCanonical_zero, nanCanonical_zero, nanCanonical_zero⟩

theorem ExecEffect.keeps_blockNansOk {u t : State} {i : Instr} (h : ExecEffect u i t) (hu : blockNansOk u) :
    blockNansOk t := by
  obtain ⟨htemp, hft, hpress, hhum, hlux⟩ := id hu
  cases h with
  | envclose => exact ⟨nanCanonical_zero, nanCanonical_zero, nanCanonical_zero, nanCanonical_zero, hlux⟩
  | srst => exact blockNansOk_resetAll u
  | compt => exact ⟨nanCanonical_round32 _, nanCanonical_round32 _, hpress, hhum, hlux⟩
  | compp => exact ⟨htemp, hft, nanCanonical_compensatePressure _ _ _, hhum, hlux⟩
  | comph => exact ⟨htemp, hft, hpress, nanCanonical_compensateHumidity _ _ _ _, hlux⟩
  | luxSaturated => exact ⟨htemp, hft, hpress, hhum, nanCanonical_satLux⟩
  | luxDark => exact ⟨htemp, hft, hpress, hhum, nanCanonical_zero⟩
  | lux => exact ⟨htemp, hft, hpress, hhum, nanCanonical_illuminance _ _ _⟩
  | _ => exact hu

theorem TurnEffect.keeps_blockNansOk {turn : Turn} {u t : State} (h : TurnEffect turn u t) (hu : blockNansOk u) :
    blockNansOk t := by
  cases h with
  | reset => exact blockNansOk_resetAll u
  | resetRead => exact blockNansOk_resetAll u
  | command w i t ha hw h => exact h.keeps_blockNansOk hu
  | _ => exact hu

/-- Settles O57: the registers of the block by the command that writes each, those of the measurers by what a turn can
do to one measurer. -/
theorem resultNansStayCanonical : Obligations.ResultNansStayCanonical := by
  intro s t hs h
  rw [nansOk_iff] at hs ⊢
  refine step_keeps (P := fun s => blockNansOk s ∧ ∀ p ∈ s.pms, measurerNansOk p) (fun _ _ hu => hu) ?_ hs h
  rintro turn u t ⟨hblock, hpms⟩ he
  exact ⟨he.keeps_blockNansOk hblock,
    he.pms.all measurerNansOk_reset (fun m p q hp hq => hq.keeps_nans hp) hpms⟩

end Sys2Proof.Machine
end

section
/-! PROOFS. The numbers of a binary format in their order (R11): counted by their magnitude bits they rise strictly, and
above the subnormals each binade has the spacing of its last place. -/

namespace Sys2Proof.Machine

/-- How many binades the magnitude bits `k` lie above the lowest spacing. -/
def binade (f : FloatFormat) (k : Nat) : Nat := k / 2 ^ f.fracBits - 1

/-- The number that the magnitude bits `k` stand for, were the exponent field unbounded. -/
def magnitudeValue (f : FloatFormat) (k : Nat) : ℚ :=
  ((k - binade f k * 2 ^ f.fracBits : Nat) : ℚ) * 2 ^ (minExp f + binade f k)

/-- `r` units of binade `c`, a carry into the next binade included. -/
theorem magnitudeValue_pack (f : FloatFormat) {c r : Nat} (hr : r ≤ 2 * 2 ^ f.fracBits)
    (hc : c = 0 ∨ 2 ^ f.fracBits ≤ r) :
    magnitudeValue f (c * 2 ^ f.fracBits + r) = r * 2 ^ (minExp f + c) := by
  have hpos : 0 < 2 ^ f.fracBits := by positivity
  unfold magnitudeValue binade
  generalize 2 ^ f.fracBits = P at *
  have hdiv : (c * P + r) / P = c + r / P := by rw [Nat.add_comm, Nat.add_mul_div_right _ _ hpos, Nat.add_comm]
  rw [hdiv]
  rcases lt_or_ge r P with hlow | hge
  · obtain rfl : c = 0 := by omega
    simp [Nat.div_eq_of_lt hlow]
  · rcases lt_or_ge r (2 * P) with hlt | htop
    · have : r / P = 1 := Nat.div_eq_of_lt_le (by omega) (by omega)
      simp [this]
    · obtain rfl : r = 2 * P := by omega
      have : 2 * P / P = 2 := Nat.mul_div_cancel 2 hpos
      rw [this, show c + 2 - 1 = c + 1 by omega, show c * P + 2 * P - (c + 1) * P = P by
        rw [← Nat.add_mul, ← Nat.sub_mul]; simp]
      push_cast
      rw [← add_assoc, zpow_add_one₀ (by norm_num)]
      ring

/-- Every count of magnitude bits is a number of units of its binade. -/
theorem exists_pack (f : FloatFormat) (k : Nat) :
    ∃ c r, k = c * 2 ^ f.fracBits + r ∧ r < 2 * 2 ^ f.fracBits ∧ (c = 0 ∨ 2 ^ f.fracBits ≤ r) := by
  have hpos : 0 < 2 ^ f.fracBits := by positivity
  generalize 2 ^ f.fracBits = P at *
  have hk := Nat.div_add_mod' k P
  have hm := Nat.mod_lt k hpos
  cases hq : k / P with
  | zero => exact ⟨0, k, by omega, by rw [hq] at hk; omega, .inl rfl⟩
  | succ c =>
    rw [hq, Nat.succ_mul] at hk
    exact ⟨c, P + k % P, by omega, by omega, .inr (by omega)⟩

theorem magnitudeValue_lt_succ (f : FloatFormat) (k : Nat) : magnitudeValue f k < magnitudeValue f (k + 1) := by
  obtain ⟨c, r, rfl, hr, hc⟩ := exists_pack f k
  rw [Nat.add_assoc, magnitudeValue_pack f hr.le hc, magnitudeValue_pack f hr (by omega)]
  have : (0 : ℚ) < 2 ^ (minExp f + c) := by positivity
  push_cast
  nlinarith

theorem magnitudeValue_strictMono (f : FloatFormat) : StrictMono (magnitudeValue f) :=
  strictMono_nat_of_lt_succ (magnitudeValue_lt_succ f)

@[simp] theorem magnitudeValue_zero (f : FloatFormat) : magnitudeValue f 0 = 0 := by simp [magnitudeValue, binade]

theorem magnitudeValue_nonneg (f : FloatFormat) (k : Nat) : 0 ≤ magnitudeValue f k := by
  unfold magnitudeValue
  positivity

theorem magnitudeValue_eq_zero (f : FloatFormat) {k : Nat} : magnitudeValue f k = 0 ↔ k = 0 := by
  rw [← magnitudeValue_zero f, (magnitudeValue_strictMono f).injective.eq_iff]

/-- A number of at most `fracBits + 1` bits in a place that is not below the lowest is a number of the format. -/
theorem exists_magnitude (f : FloatFormat) (c : Nat) : ∀ n : Nat, n ≤ 2 * 2 ^ f.fracBits →
    ∃ k, magnitudeValue f k = n * 2 ^ (minExp f + c) := by
  induction c with
  | zero =>
    intro n hn
    exact ⟨n, by simpa using magnitudeValue_pack f (c := 0) hn (.inl rfl)⟩
  | succ c ih =>
    intro n hn
    rcases Nat.le_or_ge (2 ^ f.fracBits) n with hge | hle
    · exact ⟨_, magnitudeValue_pack f (c := c + 1) hn (.inr hge)⟩
    · obtain ⟨k, hk⟩ := ih (2 * n) (by omega)
      refine ⟨k, hk.trans ?_⟩
      push_cast
      rw [← add_assoc, zpow_add_one₀ (by norm_num)]
      ring

end Sys2Proof.Machine
end

section
/-! PROOFS. One rounding is a nearest number, ties to even (R131): the integer logarithm finds the last place, the count of
half units there says on which side of the middle the exact value lies. -/

namespace Sys2Proof.Machine

theorem scaleBy_pos (n : Nat) {d : Nat} (k : Int) (hd : d ≠ 0) : 0 < (scaleBy n d k).2 := by
  have := Nat.pos_of_ne_zero hd
  unfold scaleBy
  split <;> simp only <;> positivity

theorem scaleBy_ratio (n d : Nat) (k : Int) :
    ((scaleBy n d k).1 : ℚ) / (scaleBy n d k).2 = (n : ℚ) / d * 2 ^ k := by
  unfold scaleBy
  split
  next hk =>
    lift k to ℕ using hk
    simp only [Int.toNat_natCast, zpow_natCast]
    push_cast
    ring
  next hk =>
    obtain ⟨j, hj⟩ := Int.eq_ofNat_of_zero_le (a := -k) (by omega)
    obtain rfl : k = -j := by omega
    simp only [neg_neg, Int.toNat_natCast, zpow_neg, zpow_natCast]
    push_cast
    rw [div_mul_eq_div_div, div_eq_mul_inv _ ((2 : ℚ) ^ j)]

theorem scaleBy_neg_le_iff {n d : Nat} {l : Int} (hd : d ≠ 0) :
    (scaleBy n d (-l)).2 ≤ (scaleBy n d (-l)).1 ↔ (2 : ℚ) ^ l ≤ n / d := by
  have hpos : (0 : ℚ) < (scaleBy n d (-l)).2 := by exact_mod_cast scaleBy_pos n (-l) hd
  have htwo : (0 : ℚ) < 2 ^ l := by positivity
  rw [← Nat.cast_le (α := ℚ), ← one_le_div hpos, scaleBy_ratio, zpow_neg, ← div_eq_mul_inv, one_le_div htwo]

theorem log2_bounds {n : Nat} (hn : n ≠ 0) :
    (2 : ℚ) ^ (Nat.log2 n : Int) ≤ n ∧ (n : ℚ) < 2 ^ (Nat.log2 n + 1 : Int) := by
  have hle := Nat.log2_self_le hn
  have hlt := Nat.lt_log2_self (n := n)
  constructor
  · rw [zpow_natCast]; exact_mod_cast hle
  · rw [← Nat.cast_succ, zpow_natCast]; exact_mod_cast hlt

theorem floorLog2_bounds {n d : Nat} (hn : n ≠ 0) (hd : d ≠ 0) :
    (2 : ℚ) ^ floorLog2 n d ≤ n / d ∧ (n : ℚ) / d < 2 ^ (floorLog2 n d + 1) := by
  obtain ⟨hnlo, hnhi⟩ := log2_bounds hn
  obtain ⟨hdlo, hdhi⟩ := log2_bounds hd
  have hdpos : (0 : ℚ) < d := by exact_mod_cast Nat.pos_of_ne_zero hd
  have hupper : (n : ℚ) / d < 2 ^ ((Nat.log2 n : Int) - Nat.log2 d + 1) := by
    rw [div_lt_iff₀ hdpos]
    calc (n : ℚ) < 2 ^ (Nat.log2 n + 1 : Int) := hnhi
      _ = 2 ^ ((Nat.log2 n : Int) - Nat.log2 d + 1) * 2 ^ (Nat.log2 d : Int) := by
        rw [← zpow_add₀ (by norm_num)]; congr 1; ring
      _ ≤ _ := by gcongr
  have hlower : (2 : ℚ) ^ ((Nat.log2 n : Int) - Nat.log2 d - 1) ≤ n / d := by
    rw [le_div_iff₀ hdpos]
    calc (2 : ℚ) ^ ((Nat.log2 n : Int) - Nat.log2 d - 1) * d
        ≤ 2 ^ ((Nat.log2 n : Int) - Nat.log2 d - 1) * 2 ^ (Nat.log2 d + 1 : Int) := by gcongr
      _ = 2 ^ (Nat.log2 n : Int) := by rw [← zpow_add₀ (by norm_num)]; congr 1; ring
      _ ≤ n := hnlo
  unfold floorLog2
  dsimp only
  split
  next h => exact ⟨(scaleBy_neg_le_iff hd).mp h, hupper⟩
  next h => exact ⟨hlower, by simpa using lt_of_not_ge (mt (scaleBy_neg_le_iff hd).mpr h)⟩

/-- `k` are the magnitude bits of the number nearest to `x`, ties to even, were the exponent field unbounded. -/
def nearestMagnitude (f : FloatFormat) (x : ℚ) (k : Nat) : Prop :=
  ∀ j, |magnitudeValue f k - x| ≤ |magnitudeValue f j - x| ∧
    (|magnitudeValue f k - x| = |magnitudeValue f j - x| → j = k ∨ k % 2 = 0)

/-- Between two neighbours the side of the middle decides. -/
theorem nearestMagnitude_of_neighbours {f : FloatFormat} {x : ℚ} {k a : Nat} (hlo : magnitudeValue f a ≤ x)
    (hhi : x ≤ magnitudeValue f (a + 1))
    (h : (k = a ∧ 2 * x ≤ magnitudeValue f a + magnitudeValue f (a + 1) ∧
          (2 * x = magnitudeValue f a + magnitudeValue f (a + 1) → k % 2 = 0)) ∨
        (k = a + 1 ∧ magnitudeValue f a + magnitudeValue f (a + 1) ≤ 2 * x ∧
          (2 * x = magnitudeValue f a + magnitudeValue f (a + 1) → k % 2 = 0))) :
    nearestMagnitude f x k := by
  have hmono := magnitudeValue_strictMono f
  have habs (j : Nat) : (j < a ∧ |magnitudeValue f j - x| > x - magnitudeValue f a) ∨
      (j = a ∧ |magnitudeValue f j - x| = x - magnitudeValue f a) ∨
      (j = a + 1 ∧ |magnitudeValue f j - x| = magnitudeValue f (a + 1) - x) ∨
      (a + 1 < j ∧ |magnitudeValue f j - x| > magnitudeValue f (a + 1) - x) := by
    rcases lt_trichotomy j a with hj | rfl | hj
    · have := hmono hj
      exact .inl ⟨hj, by rw [abs_of_neg (by linarith)]; linarith⟩
    · exact .inr (.inl ⟨rfl, by rw [abs_of_nonpos (by linarith)]; ring⟩)
    · rcases Nat.eq_or_lt_of_le hj with rfl | hj
      · exact .inr (.inr (.inl ⟨rfl, abs_of_nonneg (by linarith)⟩))
      · have := hmono hj
        rw [Nat.succ_eq_add_one] at this
        exact .inr (.inr (.inr ⟨hj, by rw [abs_of_pos (by linarith)]; linarith⟩))
  intro j
  rcases h with ⟨rfl, hmid, htie⟩ | ⟨rfl, hmid, htie⟩
  · have hk : |magnitudeValue f k - x| = x - magnitudeValue f k := by rw [abs_of_nonpos (by linarith)]; ring
    rw [hk]
    rcases habs j with ⟨-, hj⟩ | ⟨rfl, hj⟩ | ⟨rfl, hj⟩ | ⟨-, hj⟩
    · exact ⟨hj.le, fun h => absurd h (by linarith)⟩
    · exact ⟨hj.ge, fun _ => .inl rfl⟩
    · rw [hj]
      exact ⟨by linarith, fun h => .inr (htie (by linarith))⟩
    · exact ⟨by linarith, fun h => absurd h (by linarith)⟩
  · have hk : |magnitudeValue f (a + 1) - x| = magnitudeValue f (a + 1) - x := abs_of_nonneg (by linarith)
    rw [hk]
    rcases habs j with ⟨-, hj⟩ | ⟨rfl, hj⟩ | ⟨rfl, hj⟩ | ⟨-, hj⟩
    · exact ⟨by linarith, fun h => absurd h (by linarith)⟩
    · rw [hj]
      exact ⟨by linarith, fun h => .inr (htie (by linarith))⟩
    · exact ⟨hj.ge, fun _ => .inl rfl⟩
    · exact ⟨hj.le, fun h => absurd h (by linarith)⟩

/-- `n / d` half units rounded to whole units: the whole part or the next, on the right side of the middle, and even in
the middle. -/
theorem roundHalfEven_cases {n d : Nat} (hd : 0 < d) :
    (roundHalfEven (n / d) (n % d != 0) = n / d / 2 ∧ (n : ℚ) / d ≤ 2 * ((n / d / 2 : Nat) : ℚ) + 1 ∧
        ((n : ℚ) / d = 2 * ((n / d / 2 : Nat) : ℚ) + 1 → roundHalfEven (n / d) (n % d != 0) % 2 = 0)) ∨
    (roundHalfEven (n / d) (n % d != 0) = n / d / 2 + 1 ∧ 2 * ((n / d / 2 : Nat) : ℚ) + 1 ≤ (n : ℚ) / d ∧
        ((n : ℚ) / d = 2 * ((n / d / 2 : Nat) : ℚ) + 1 → roundHalfEven (n / d) (n % d != 0) % 2 = 0)) := by
  have hq : (0 : ℚ) < d := by exact_mod_cast hd
  have hn : (n : ℚ) / d = (n / d : Nat) + (n % d : Nat) / (d : ℚ) := by
    rw [div_eq_iff hq.ne', add_mul, div_mul_cancel₀ _ hq.ne']
    exact_mod_cast (Nat.div_add_mod' n d).symm
  have hrest : (0 : ℚ) ≤ (n % d : Nat) / (d : ℚ) := by positivity
  have hrest' : ((n % d : Nat) : ℚ) / (d : ℚ) < 1 := by
    rw [div_lt_one hq]; exact_mod_cast Nat.mod_lt n hd
  have hzero : ((n % d : Nat) : ℚ) / (d : ℚ) = 0 ↔ n % d = 0 := by
    rw [div_eq_zero_iff, Nat.cast_eq_zero]; simp [hq.ne']
  rw [hn]
  generalize ((n % d : Nat) : ℚ) / (d : ℚ) = ρ at *
  generalize n % d = m at *
  generalize n / d = t at *
  unfold roundHalfEven
  rcases Nat.even_or_odd' t with ⟨h, rfl | rfl⟩
  · left
    have hh : 2 * h / 2 = h := by omega
    rw [if_neg (by omega), hh]
    push_cast
    exact ⟨rfl, by linarith, fun he => absurd he (by linarith)⟩
  · have hh : (2 * h + 1) / 2 = h := by omega
    rw [hh]
    push_cast
    by_cases hm : m = 0
    · have hρ := hzero.mpr hm
      rcases Nat.mod_two_eq_zero_or_one h with he | ho
      · left
        rw [if_neg (by simp [hm, he])]
        exact ⟨rfl, by linarith, fun _ => he⟩
      · right
        rw [if_pos ⟨by omega, .inr ho⟩]
        exact ⟨rfl, by linarith, fun _ => by omega⟩
    · right
      have hρ : ρ ≠ 0 := mt hzero.mp hm
      have hpos : 0 < ρ := lt_of_le_of_ne hrest (Ne.symm hρ)
      rw [if_pos ⟨by omega, .inl (by simpa using hm)⟩]
      exact ⟨rfl, by linarith, fun he => absurd he (by linarith)⟩

/-- Half units counted in the place `c` binades above the lowest, and rounded, give the nearest number. -/
theorem nearestMagnitude_units {f : FloatFormat} (hfrac : 0 < f.fracBits) {c n d : Nat} (hd : 0 < d)
    (hlt : n / d < 4 * 2 ^ f.fracBits) (hge : c = 0 ∨ 2 * 2 ^ f.fracBits ≤ n / d) :
    nearestMagnitude f ((n : ℚ) / d / 2 * 2 ^ (minExp f + c))
      (c * 2 ^ f.fracBits + roundHalfEven (n / d) (n % d != 0)) := by
  have hunit : (0 : ℚ) < 2 ^ (minExp f + c) := by positivity
  have heven : 2 ^ f.fracBits % 2 = 0 := Nat.mod_eq_zero_of_dvd (dvd_pow_self 2 hfrac.ne')
  have hceven : c * 2 ^ f.fracBits % 2 = 0 := by rw [Nat.mul_mod, heven]; simp
  have hlo := magnitudeValue_pack f (c := c) (r := n / d / 2) (by omega) (by omega)
  have hhi := magnitudeValue_pack f (c := c) (r := n / d / 2 + 1) (by omega) (by omega)
  have hfloor : 2 * ((n / d / 2 : Nat) : ℚ) ≤ (n : ℚ) / d ∧ (n : ℚ) / d < 2 * ((n / d / 2 : Nat) : ℚ) + 2 := by
    have hq : (0 : ℚ) < d := by exact_mod_cast hd
    rw [le_div_iff₀ hq, div_lt_iff₀ hq]
    have h1 : 2 * (n / d / 2) * d ≤ n := (Nat.mul_le_mul_right d (by omega)).trans (Nat.div_mul_le_self n d)
    have h2 : n < (2 * (n / d / 2) + 2) * d :=
      (Nat.lt_mul_of_div_lt (Nat.lt_succ_self _) hd).trans_le (Nat.mul_le_mul_right d (by omega))
    exact ⟨by exact_mod_cast h1, by exact_mod_cast h2⟩
  have hround := roundHalfEven_cases (n := n) hd
  generalize roundHalfEven (n / d) (n % d != 0) = r at *
  generalize n / d / 2 = h at *
  generalize (n : ℚ) / d = y at *
  generalize (2 : ℚ) ^ (minExp f + c) = w at *
  rw [← Nat.add_assoc] at hhi
  push_cast at hhi
  refine nearestMagnitude_of_neighbours (a := c * 2 ^ f.fracBits + h) ?_ ?_ ?_
  · rw [hlo]; nlinarith
  · rw [hhi]; nlinarith
  · have hmid : 2 * (y / 2 * w) = h * w + (h + 1) * w ↔ y = 2 * h + 1 := by
      rw [← mul_left_inj' hunit.ne' (a := y)]
      constructor <;> intro <;> linarith
    rw [hlo, hhi, hmid]
    rcases hround with ⟨rfl, hside, htie⟩ | ⟨rfl, hside, htie⟩
    · exact .inl ⟨rfl, by nlinarith, fun hy => by have := htie hy; omega⟩
    · exact .inr ⟨rfl, by nlinarith, fun hy => by have := htie hy; omega⟩

/-- The magnitude bits that rounding gives are those of the nearest number, or an infinity's where these lie beyond. -/
theorem roundMagnitude_nearest {f : FloatFormat} (hfrac : 0 < f.fracBits) (n : Nat) {d : Nat} (e : Int) (hd : d ≠ 0) :
    ∃ k, nearestMagnitude f ((n : ℚ) / d * 2 ^ e) k ∧ roundMagnitude f n d e = min k (infBits f) := by
  unfold roundMagnitude
  split
  next hn =>
    subst hn
    refine ⟨0, fun j => ⟨by simp, fun h => .inl ?_⟩, by simp⟩
    have hj : |magnitudeValue f j| = 0 := by simpa using h.symm
    exact (magnitudeValue_eq_zero f).mp (abs_eq_zero.mp hj)
  next hn =>
    dsimp only
    obtain ⟨hlo, hhi⟩ := floorLog2_bounds hn hd
    set u := lastPlace f (floorLog2 n d + e) with hu
    have hmin : minExp f ≤ u := le_max_right _ _
    have hlog : floorLog2 n d + e - f.fracBits ≤ u := le_max_left _ _
    have hplace : u = floorLog2 n d + e - f.fracBits ∨ u = minExp f := max_choice _ _
    obtain ⟨c, hc⟩ := Int.eq_ofNat_of_zero_le (Int.sub_nonneg.mpr hmin)
    have huc : u = minExp f + c := by omega
    have hspos := scaleBy_pos n (e - (u - 1)) hd
    have hratio := scaleBy_ratio n d (e - (u - 1))
    generalize scaleBy n d (e - (u - 1)) = s at *
    have hq : (0 : ℚ) < s.2 := by exact_mod_cast hspos
    have hscale : (0 : ℚ) < 2 ^ (e - (u - 1)) := by positivity
    have hlt : s.1 / s.2 < 4 * 2 ^ f.fracBits := by
      rw [Nat.div_lt_iff_lt_mul hspos, ← Nat.cast_lt (α := ℚ), Nat.cast_mul, ← div_lt_iff₀ hq, hratio]
      calc (n : ℚ) / d * 2 ^ (e - (u - 1)) < 2 ^ (floorLog2 n d + 1) * 2 ^ (e - (u - 1)) := by gcongr
        _ = 2 ^ (floorLog2 n d + 1 + (e - (u - 1))) := (zpow_add₀ (by norm_num) _ _).symm
        _ ≤ 2 ^ ((f.fracBits + 2 : Nat) : Int) := zpow_le_zpow_right₀ (by norm_num) (by omega)
        _ = _ := by rw [zpow_natCast, pow_add]; push_cast; ring
    have hge : c = 0 ∨ 2 * 2 ^ f.fracBits ≤ s.1 / s.2 := by
      rcases hplace with hnormal | hlowest
      · right
        rw [Nat.le_div_iff_mul_le hspos, ← Nat.cast_le (α := ℚ), Nat.cast_mul, ← le_div_iff₀ hq, hratio]
        calc ((2 * 2 ^ f.fracBits : Nat) : ℚ) = 2 ^ ((f.fracBits + 1 : Nat) : Int) := by
              rw [zpow_natCast, pow_add]; push_cast; ring
          _ = 2 ^ (floorLog2 n d + (e - (u - 1))) := by congr 1; omega
          _ = 2 ^ floorLog2 n d * 2 ^ (e - (u - 1)) := zpow_add₀ (by norm_num) _ _
          _ ≤ _ := by gcongr
      · exact .inl (by omega)
    have hx : (n : ℚ) / d * 2 ^ e = (s.1 : ℚ) / s.2 / 2 * 2 ^ (minExp f + c) := by
      rw [hratio, ← huc, show e = (e - (u - 1)) + (u - 1) by ring, zpow_add₀ (by norm_num),
        zpow_sub_one₀ (by norm_num)]
      ring_nf
    rw [hx]
    refine ⟨_, nearestMagnitude_units hfrac hspos hlt hge, ?_⟩
    rw [packMagnitude, hc, Int.toNat_natCast]

end Sys2Proof.Machine
end

section
/-! PROOFS. What an encoding stands for, by its sign bit and its magnitude bits, and one rounding of an exact number
(R11, R131). -/

namespace Sys2Proof.Machine

theorem signWeight_eq (f : FloatFormat) : signWeight f = 2 ^ f.expBits * 2 ^ f.fracBits := by
  rw [signWeight, Nat.add_comm, pow_add]

theorem infBits_lt_signWeight (f : FloatFormat) : infBits f < signWeight f := by
  rw [signWeight_eq, infBits]
  exact Nat.mul_lt_mul_of_pos_right (Nat.sub_lt (by positivity) one_pos) (by positivity)

theorem infBits_pos {f : FloatFormat} (hexp : 1 < f.expBits) : 0 < infBits f :=
  Nat.mul_pos (Nat.sub_pos_of_lt (Nat.one_lt_two_pow (by omega))) (by positivity)

/-- The sign that the top bit of an encoding says. -/
def signBit (f : FloatFormat) (bits : Nat) : Bool := bits / signWeight f % 2 == 1

/-- An encoding's magnitude bits place it: below those of an infinity it is their number with the sign, above them a NaN
(R11). -/
theorem unpack_magnitude (f : FloatFormat) (bits : Nat) :
    (bits % signWeight f < infBits f ∧ exactValue (unpack f bits) =
      some ((if signBit f bits then -1 else 1) * magnitudeValue f (bits % signWeight f))) ∨
    (bits % signWeight f = infBits f ∧ unpack f bits = .inf (signBit f bits)) ∨
    (infBits f < bits % signWeight f ∧ unpack f bits = .nan) := by
  have hP : 0 < 2 ^ f.fracBits := by positivity
  have hex : bits / 2 ^ f.fracBits % 2 ^ f.expBits = bits % signWeight f / 2 ^ f.fracBits := by
    rw [signWeight_eq, Nat.mul_comm, Nat.mod_mul_right_div_self]
  have hfr : bits % 2 ^ f.fracBits = bits % signWeight f % 2 ^ f.fracBits := by
    rw [signWeight_eq, Nat.mod_mul_left_mod]
  have hQ : bits % signWeight f / 2 ^ f.fracBits ≤ 2 ^ f.expBits - 1 := by
    have := Nat.mod_lt (bits / 2 ^ f.fracBits) (show 0 < 2 ^ f.expBits by positivity)
    omega
  unfold unpack
  dsimp only
  rw [hex, hfr, ← signBit, infBits]
  generalize bits % signWeight f = k at *
  have hk := Nat.div_add_mod' k (2 ^ f.fracBits)
  have hm := Nat.mod_lt k hP
  split
  next htop =>
    right
    rw [htop] at hk
    split
    next h0 => exact .inl ⟨by omega, rfl⟩
    next h0 => exact .inr ⟨by omega, rfl⟩
  next hfin =>
    left
    have hlt : k < (2 ^ f.expBits - 1) * 2 ^ f.fracBits := (Nat.div_lt_iff_lt_mul hP).mp (by omega)
    split
    next h0 =>
      have hv := magnitudeValue_pack f (c := 0) (r := k % 2 ^ f.fracBits) (by omega) (.inl rfl)
      rw [h0] at hk
      rw [hk] at hv
      refine ⟨hlt, ?_⟩
      simp only [Nat.cast_zero, add_zero] at hv
      rw [hv, exactValue, Nat.cast_one, div_one, mul_assoc]
    next h0 =>
      obtain ⟨c, hc⟩ : ∃ c, k / 2 ^ f.fracBits = c + 1 := ⟨_, (Nat.sub_one_add_one h0).symm⟩
      have hv := magnitudeValue_pack f (c := c) (r := k % 2 ^ f.fracBits + 2 ^ f.fracBits) (by omega) (.inr (by omega))
      rw [hc, Nat.succ_mul] at hk
      rw [show c * 2 ^ f.fracBits + (k % 2 ^ f.fracBits + 2 ^ f.fracBits) = k by omega] at hv
      refine ⟨hlt, ?_⟩
      rw [hv, hc, Nat.add_sub_cancel, exactValue, Nat.cast_one, div_one, mul_assoc]

theorem unpack_of_magnitude_lt {f : FloatFormat} {bits : Nat} (h : bits % signWeight f < infBits f) :
    exactValue (unpack f bits) =
      some ((if signBit f bits then -1 else 1) * magnitudeValue f (bits % signWeight f)) := by
  rcases unpack_magnitude f bits with ⟨-, hv⟩ | ⟨hk, -⟩ | ⟨hk, -⟩
  · exact hv
  · omega
  · omega

theorem unpack_of_magnitude_eq {f : FloatFormat} {bits : Nat} (h : bits % signWeight f = infBits f) :
    unpack f bits = .inf (signBit f bits) := by
  rcases unpack_magnitude f bits with ⟨hk, -⟩ | ⟨-, hv⟩ | ⟨hk, -⟩
  · omega
  · exact hv
  · omega

/-- An encoding that has a value has finite magnitude bits, and they are its value's. -/
theorem magnitude_of_value {f : FloatFormat} {bits : Nat} {q : ℚ} (h : exactValue (unpack f bits) = some q) :
    bits % signWeight f < infBits f ∧
      q = (if signBit f bits then -1 else 1) * magnitudeValue f (bits % signWeight f) := by
  rcases unpack_magnitude f bits with ⟨hk, hv⟩ | ⟨-, hv⟩ | ⟨-, hv⟩ <;> rw [hv] at h <;> cases h
  exact ⟨hk, rfl⟩

/-- A format with the width of its encodings, and what Laws/Float proves of each of the two: rounding NaNs and
infinities, and the sign bit. -/
structure Interchange (f : FloatFormat) (w : Nat) : Prop where
  width : 2 ^ w = 2 * signWeight f
  fracPos : 0 < f.fracBits
  expPos : 1 < f.expBits
  sign {x : BitVec w} : unpack f x.toNat ≠ .nan → signOf (unpack f x.toNat) = x.msb
  num {x : BitVec w} {q : ℚ} : exactValue (unpack f x.toNat) = some q → ∃ n e, unpack f x.toNat = .num x.msb n 1 e
  round_msb {x : Exact} : x ≠ .nan → (BitVec.ofNat w (roundTo f x)).msb = signOf x
  round_nan : unpack f (BitVec.ofNat w (roundTo f .nan)).toNat = .nan
  round_inf (s : Bool) : unpack f (BitVec.ofNat w (roundTo f (.inf s))).toNat = .inf s

theorem interchange32 : Interchange binary32 32 :=
  ⟨by decide, by decide, by decide, unpack32_sign, unpack32_num, round32_msb, unpack32_round_nan, unpack32_round_inf⟩

theorem interchange64 : Interchange binary64 64 :=
  ⟨by decide, by decide, by decide, unpack64_sign, unpack64_num, round64_msb, unpack64_round_nan, unpack64_round_inf⟩

/-- The number that an encoding of the format stands for; none for an infinity or a NaN. -/
def numberOf (f : FloatFormat) {w : Nat} (x : BitVec w) : Option ℚ := exactValue (unpack f x.toNat)

/-- An exact value rounded once to the format. -/
def roundBits (f : FloatFormat) (w : Nat) (x : Exact) : BitVec w := BitVec.ofNat w (roundTo f x)

/-- `nearestEven32` and `nearestEven64` for any format. -/
def nearestEven (f : FloatFormat) {w : Nat} (q : ℚ) (x : BitVec w) : Prop :=
  ∃ v, numberOf f x = some v ∧
    ∀ (y : BitVec w) u, numberOf f y = some u →
      |v - q| ≤ |u - q| ∧ (|v - q| = |u - q| → u = v ∨ x.toNat % 2 = 0)

/-- The middle between the greatest number and the next one that an unbounded exponent field would give. -/
def overflowBound (f : FloatFormat) : ℚ := (magnitudeValue f (infBits f - 1) + magnitudeValue f (infBits f)) / 2

/-- `correctlyRounded32` and `correctlyRounded64` for any format. -/
def correctlyRounded (f : FloatFormat) {w : Nat} (q : ℚ) (x : BitVec w) : Prop :=
  (|q| < overflowBound f → nearestEven f q x) ∧
  (overflowBound f ≤ |q| → unpack f x.toNat = .inf (decide (q < 0)))

theorem overflowBound_pos {f : FloatFormat} (hexp : 1 < f.expBits) : 0 < overflowBound f := by
  have hinf := infBits_pos hexp
  have hpos := magnitudeValue_strictMono f hinf
  have := magnitudeValue_nonneg f (infBits f - 1)
  rw [magnitudeValue_zero] at hpos
  unfold overflowBound
  linarith

theorem overflowBound_eq (f : FloatFormat) (hexp : 1 < f.expBits) :
    overflowBound f = (4 * 2 ^ f.fracBits - 1) * 2 ^ (minExp f + (2 ^ f.expBits - 4 : Nat)) := by
  obtain ⟨c, hc⟩ : ∃ c, 2 ^ f.expBits = c + 4 :=
    ⟨_, (Nat.sub_add_cancel (Nat.pow_le_pow_right (n := 2) (by decide) hexp)).symm⟩
  have hP : 0 < 2 ^ f.fracBits := by positivity
  have hinf : infBits f = (c + 1) * 2 ^ f.fracBits + 2 * 2 ^ f.fracBits := by
    rw [infBits, hc, ← Nat.add_mul]; rfl
  have hpred : infBits f - 1 = (c + 1) * 2 ^ f.fracBits + (2 * 2 ^ f.fracBits - 1) := by omega
  rw [overflowBound, hpred, hinf, magnitudeValue_pack f (by omega) (.inr (by omega)),
    magnitudeValue_pack f le_rfl (.inr (by omega)), hc, Nat.add_sub_cancel,
    Nat.cast_sub (by omega)]
  push_cast
  rw [← add_assoc, zpow_add_one₀ (by norm_num)]
  ring

/-- The exponent of the greatest power of two of the format. -/
def topExp (f : FloatFormat) : Nat := 2 ^ (f.expBits - 1) - 1

theorem two_zpow_lt_overflowBound {f : FloatFormat} (hexp : 1 < f.expBits) {k : Int} (hk : k ≤ topExp f) :
    (2 : ℚ) ^ k < overflowBound f := by
  have hhalf : 2 ≤ 2 ^ (f.expBits - 1) := Nat.le_self_pow (by omega) 2
  have hdouble : 2 ^ f.expBits = 2 * 2 ^ (f.expBits - 1) := by rw [← pow_succ', Nat.sub_add_cancel (by omega)]
  have htop : (topExp f : Int) = minExp f + (2 ^ f.expBits - 4 : Nat) + (f.fracBits + 1 : Nat) := by
    rw [topExp, minExp]
    omega
  have hunit : (0 : ℚ) < 2 ^ (minExp f + (2 ^ f.expBits - 4 : Nat)) := by positivity
  have hP : (1 : ℚ) ≤ 2 ^ f.fracBits := one_le_pow₀ (by norm_num)
  calc (2 : ℚ) ^ k ≤ 2 ^ (topExp f : Int) := zpow_le_zpow_right₀ (by norm_num) hk
    _ = 2 * 2 ^ f.fracBits * 2 ^ (minExp f + (2 ^ f.expBits - 4 : Nat)) := by
      rw [htop, zpow_add₀ (by norm_num) _ ((f.fracBits + 1 : Nat) : Int), zpow_natCast, pow_succ]
      ring
    _ < (4 * 2 ^ f.fracBits - 1) * 2 ^ (minExp f + (2 ^ f.expBits - 4 : Nat)) := by gcongr; linarith
    _ = overflowBound f := (overflowBound_eq f hexp).symm

theorem overflowBound_binary32 : overflowBound binary32 = 2 ^ 128 - 2 ^ 103 := by
  rw [overflowBound_eq binary32 (by decide)]
  norm_num [binary32, minExp]

theorem overflowBound_binary64 : overflowBound binary64 = 2 ^ 1024 - 2 ^ 970 := by
  rw [overflowBound_eq binary64 (by decide),
    show minExp binary64 + (2 ^ binary64.expBits - 4 : Nat) = (970 : Nat) by rfl, zpow_natCast, show (2 : ℚ) ^ 1024 = 2 ^ 54 * 2 ^ 970 by rw [← pow_add], binary64]
  generalize (2 : ℚ) ^ 970 = u
  norm_num
  ring

theorem correctlyRounded32_iff (q : ℚ) (x : F32) : correctlyRounded32 q x ↔ correctlyRounded binary32 q x := by
  rw [correctlyRounded32, correctlyRounded, overflowBound_binary32]
  rfl

theorem correctlyRounded64_iff (q : ℚ) (x : F64) : correctlyRounded64 q x ↔ correctlyRounded binary64 q x := by
  rw [correctlyRounded64, correctlyRounded, overflowBound_binary64]
  rfl

/-- The nearest number lies beyond the format exactly from the overflow bound on: in the middle the greatest number is
the odd one. -/
theorem nearestMagnitude_lt_infBits {f : FloatFormat} (hfrac : 0 < f.fracBits) (hexp : 1 < f.expBits) {x : ℚ} {k : Nat}
    (h : nearestMagnitude f x k) : k < infBits f ↔ x < overflowBound f := by
  have hmono := magnitudeValue_strictMono f
  have hinf := infBits_pos hexp
  have heven : infBits f % 2 = 0 :=
    Nat.mod_eq_zero_of_dvd (dvd_mul_of_dvd_right (dvd_pow_self 2 hfrac.ne') _)
  have hnext := hmono (Nat.sub_lt hinf one_pos)
  have hgreatest := h (infBits f - 1)
  have hbeyond := h (infBits f)
  unfold overflowBound
  constructor
  · intro hk
    by_contra hx
    rw [not_lt] at hx
    have hle := hmono.monotone (show k ≤ infBits f - 1 by omega)
    have hsub := neg_abs_le (magnitudeValue f k - x)
    have hB : |magnitudeValue f (infBits f) - x| ≤ x - magnitudeValue f (infBits f - 1) :=
      abs_le.mpr ⟨by linarith, by linarith⟩
    have hsame : magnitudeValue f k = magnitudeValue f (infBits f - 1) := by linarith [hbeyond.1]
    obtain hj | hj := hbeyond.2 (by linarith [hbeyond.1])
    · omega
    · have := hmono.injective hsame
      omega
  · intro hx
    by_contra hk
    have hle := hmono.monotone (show infBits f ≤ k by omega)
    have hsub := le_abs_self (magnitudeValue f k - x)
    have hA : |magnitudeValue f (infBits f - 1) - x| < magnitudeValue f (infBits f) - x :=
      abs_lt.mpr ⟨by linarith, by linarith⟩
    linarith [hgreatest.1]

/-- The numbers of either sign are no nearer than the nearest magnitude. -/
theorem nearestMagnitude_signed {f : FloatFormat} {x u : ℚ} {k j : Nat} (hx : 0 ≤ x) (h : nearestMagnitude f x k)
    (hu : |u| = magnitudeValue f j) :
    |magnitudeValue f k - x| ≤ |u - x| ∧
      (|magnitudeValue f k - x| = |u - x| → u = magnitudeValue f k ∨ k % 2 = 0) := by
  obtain ⟨hle, htie⟩ := h j
  rcases abs_choice u with hpos | hneg
  · rw [← hpos, hu]
    exact ⟨hle, fun ht => (htie ht).imp_left fun hj => by rw [hj]⟩
  · obtain rfl : u = -magnitudeValue f j := by linarith
    have hj := magnitudeValue_nonneg f j
    have hdist : |-magnitudeValue f j - x| = magnitudeValue f j + x := by rw [abs_of_nonpos (by linarith)]; ring
    have hbound : |magnitudeValue f j - x| ≤ magnitudeValue f j + x := abs_le.mpr ⟨by linarith, by linarith⟩
    rw [hdist]
    refine ⟨hle.trans hbound, fun ht => (htie (by linarith)).imp_left fun hjk => ?_⟩
    subst hjk
    have hzero : magnitudeValue f j = 0 := by
      rcases abs_choice (magnitudeValue f j - x) with hs | hs
      · have h0 := (h 0).1
        rw [show x = 0 by linarith, magnitudeValue_zero, sub_zero, sub_zero, abs_zero, abs_of_nonneg hj] at h0
        linarith
      · linarith
    rw [hzero, neg_zero]

theorem abs_signum (s : Bool) : |(if s then -1 else 1 : ℚ)| = 1 := by cases s <;> simp

theorem signum_mul_self (s : Bool) : (if s then -1 else 1 : ℚ) * (if s then -1 else 1) = 1 := by cases s <;> simp

/-- A sign can be moved across a distance. -/
theorem abs_signum_mul_sub (s : Bool) (u x : ℚ) :
    |(if s then -1 else 1) * u - x| = |u - (if s then -1 else 1) * x| := by
  cases s
  · simp
  · rw [← abs_neg]; simp [add_comm]

section
variable {f : FloatFormat} {w : Nat} (I : Interchange f w)
include I

/-- The encoding that a rounded number gets: its sign and its magnitude bits, and nothing else. -/
theorem Interchange.roundBits_num (s : Bool) (n d : Nat) (e : Int) :
    (roundBits f w (.num s n d e)).toNat % signWeight f = roundMagnitude f n d e ∧
      signBit f (roundBits f w (.num s n d e)).toNat = s := by
  have hm := (roundMagnitude_le f n d e).trans_lt (infBits_lt_signWeight f)
  have hlt : (if s then signWeight f else 0) + roundMagnitude f n d e < 2 ^ w := by
    rw [I.width]
    split <;> omega
  rw [roundBits, roundTo, BitVec.toNat_ofNat, Nat.mod_eq_of_lt hlt, signBit]
  cases s
  · simp [Nat.mod_eq_of_lt hm, Nat.div_eq_of_lt hm]
  · have hdiv : (signWeight f + roundMagnitude f n d e) / signWeight f = 1 := Nat.div_eq_of_lt_le (by omega) (by omega)
    simp [Nat.mod_eq_of_lt hm, hdiv]

/-- A number rounded once, at the level of magnitude bits: the nearest, or an infinity from the overflow bound on. -/
theorem Interchange.round_num (s : Bool) (n : Nat) {d : Nat} (e : Int) (hd : d ≠ 0) :
    ∃ k, nearestMagnitude f ((n : ℚ) / d * 2 ^ e) k ∧
      ((n : ℚ) / d * 2 ^ e < overflowBound f →
        numberOf f (roundBits f w (.num s n d e)) = some ((if s then -1 else 1) * magnitudeValue f k) ∧
        (roundBits f w (.num s n d e)).toNat % 2 = k % 2) ∧
      (overflowBound f ≤ (n : ℚ) / d * 2 ^ e → unpack f (roundBits f w (.num s n d e)).toNat = .inf s) := by
  obtain ⟨k, hk, hbits⟩ := roundMagnitude_nearest I.fracPos n e hd
  obtain ⟨hmag, hsign⟩ := I.roundBits_num s n d e
  have hfinite := nearestMagnitude_lt_infBits I.fracPos I.expPos hk
  rw [hbits] at hmag
  refine ⟨k, hk, fun hlt => ?_, fun hge => ?_⟩
  · have hkinf := hfinite.mpr hlt
    rw [Nat.min_eq_left hkinf.le] at hmag
    have hvalue := unpack_of_magnitude_lt (hmag.trans_lt hkinf)
    rw [hsign, hmag] at hvalue
    refine ⟨hvalue, ?_⟩
    rw [← hmag, Nat.mod_mod_of_dvd _ (show 2 ∣ signWeight f from dvd_pow_self 2 (by have := I.fracPos; omega))]
  · have hkinf := not_lt.mp (mt hfinite.mp hge.not_gt)
    rw [Nat.min_eq_right hkinf] at hmag
    rw [unpack_of_magnitude_eq hmag, hsign]

/-- One rounding is correct (R131). -/
theorem Interchange.correctlyRounded_num (s : Bool) (n : Nat) {d : Nat} (e : Int) (hd : d ≠ 0) :
    correctlyRounded f ((if s then -1 else 1) * ((n : ℚ) / d) * 2 ^ e) (roundBits f w (.num s n d e)) := by
  obtain ⟨k, hk, hfinite, hbeyond⟩ := I.round_num s n e hd
  rw [mul_assoc]
  set x : ℚ := (n : ℚ) / d * 2 ^ e with hx
  have hx0 : 0 ≤ x := by positivity
  have habs : |(if s then -1 else 1) * x| = x := by rw [abs_mul, abs_signum, one_mul, abs_of_nonneg hx0]
  rw [correctlyRounded, habs]
  constructor
  · intro hlt
    obtain ⟨hvalue, hparity⟩ := hfinite hlt
    refine ⟨_, hvalue, fun y u hu => ?_⟩
    obtain ⟨-, hmagnitude⟩ := magnitude_of_value hu
    have habsu : |(if s then -1 else 1) * u| = magnitudeValue f (y.toNat % signWeight f) := by
      rw [hmagnitude, abs_mul, abs_mul, abs_signum, abs_signum, one_mul, one_mul,
        abs_of_nonneg (magnitudeValue_nonneg f _)]
    obtain ⟨hle, htie⟩ := nearestMagnitude_signed hx0 hk habsu
    rw [hparity, ← abs_signum_mul_sub s u, ← mul_sub, abs_mul, abs_signum, one_mul]
    exact ⟨hle, fun ht => (htie ht).imp_left fun hu => by rw [← hu, ← mul_assoc, signum_mul_self, one_mul]⟩
  · intro hge
    have hpos := (overflowBound_pos I.expPos).trans_le hge
    rw [hbeyond hge]
    cases s
    · simp [hx0]
    · simp [hpos]

end

end Sys2Proof.Machine
end

section
/-! PROOFS. The operations on numbers: the exact value of each, and what one rounding makes of a value (R131, R133). -/

namespace Sys2Proof.Machine

/-- The exact value `x` is the number `q`, with a denominator that is not 0. -/
def isNumber (x : Exact) (q : ℚ) : Prop := exactValue x = some q ∧ ∃ s n d e, x = .num s n d e ∧ d ≠ 0

theorem isNumber_num (s : Bool) (n : Nat) {d : Nat} (e : Int) (hd : d ≠ 0) :
    isNumber (.num s n d e) ((if s then -1 else 1) * ((n : ℚ) / d) * 2 ^ e) := ⟨rfl, s, n, d, e, rfl, hd⟩

theorem isNumber_exactInt (n : Int) : isNumber (exactInt n) n := by
  refine ⟨?_, _, _, _, _, rfl, one_ne_zero⟩
  rcases lt_or_ge n 0 with h | h
  · simp [exactInt, exactValue, h, abs_of_neg]
  · simp [exactInt, exactValue, not_lt.mpr h, abs_of_nonneg h]

theorem isNumber_zero (s : Bool) : isNumber (.num s 0 1 0) 0 := ⟨by simp [exactValue], s, 0, 1, 0, rfl, one_ne_zero⟩

section
variable {f : FloatFormat} {w : Nat} (I : Interchange f w)
include I

/-- A number's encoding: its top bit, and an integer at some place. -/
theorem Interchange.unpack_number {x : BitVec w} {q : ℚ} (h : numberOf f x = some q) :
    ∃ n e, unpack f x.toNat = .num x.msb n 1 e ∧ q = (if x.msb then -1 else 1) * ((n : ℚ) / (1 : ℕ)) * 2 ^ e ∧
      (q = 0 ↔ n = 0) := by
  obtain ⟨n, e, hx⟩ := I.num h
  rw [numberOf, hx] at h
  refine ⟨n, e, hx, (Option.some.inj h).symm, ?_⟩
  rw [← exactValue_num_zero x.msb n e, h, Option.some.injEq]

theorem Interchange.isNumber_unpack {x : BitVec w} {q : ℚ} (h : numberOf f x = some q) :
    isNumber (unpack f x.toNat) q := by
  obtain ⟨n, e, hx, rfl, -⟩ := I.unpack_number h
  rw [hx]
  exact isNumber_num _ _ _ one_ne_zero

variable {a b : BitVec w} {p q : ℚ} (ha : numberOf f a = some p) (hb : numberOf f b = some q)
include ha hb

theorem Interchange.isNumber_add : isNumber (exactAdd (unpack f a.toNat) (unpack f b.toNat)) (p + q) := by
  obtain ⟨n₁, e₁, h₁, rfl, -⟩ := I.unpack_number ha
  obtain ⟨n₂, e₂, h₂, rfl, -⟩ := I.unpack_number hb
  rw [h₁, h₂]
  exact ⟨exactAdd_value .., _, _, _, _, rfl, by decide⟩

theorem Interchange.isNumber_sub : isNumber (exactAdd (unpack f a.toNat) (exactNeg (unpack f b.toNat))) (p - q) := by
  obtain ⟨n₁, e₁, h₁, rfl, -⟩ := I.unpack_number ha
  obtain ⟨n₂, e₂, h₂, rfl, -⟩ := I.unpack_number hb
  rw [h₁, h₂]
  refine ⟨(exactAdd_value ..).trans ?_, _, _, _, _, rfl, by decide⟩
  cases b.msb <;> simp
  ring

theorem Interchange.isNumber_mul : isNumber (exactMul (unpack f a.toNat) (unpack f b.toNat)) (p * q) := by
  obtain ⟨n₁, e₁, h₁, rfl, -⟩ := I.unpack_number ha
  obtain ⟨n₂, e₂, h₂, rfl, -⟩ := I.unpack_number hb
  rw [h₁, h₂]
  exact ⟨exactValue_mul .., _, _, _, _, rfl, by decide⟩

theorem Interchange.isNumber_div (hq : q ≠ 0) :
    isNumber (exactDiv (unpack f a.toNat) (unpack f b.toNat)) (p / q) := by
  obtain ⟨n₁, e₁, h₁, rfl, -⟩ := I.unpack_number ha
  obtain ⟨n₂, e₂, h₂, rfl, hzero⟩ := I.unpack_number hb
  have hn₂ : n₂ ≠ 0 := mt hzero.mpr hq
  rw [h₁, h₂, exactDiv, if_neg hn₂]
  refine ⟨?_, _, _, _, _, rfl, by simpa using hn₂⟩
  rw [exactValue, zpow_sub₀ (by norm_num)]
  cases a.msb <;> cases b.msb <;> simp <;> field_simp

end

section
variable {f : FloatFormat} {w : Nat} (I : Interchange f w) {x : Exact} {q : ℚ} (hx : isNumber x q)
include I hx

theorem Interchange.correctlyRounded_round : correctlyRounded f q (roundBits f w x) := by
  obtain ⟨hq, s, n, d, e, rfl, hd⟩ := hx
  rw [← Option.some.inj hq]
  exact I.correctlyRounded_num s n e hd

/-- A value below the overflow bound keeps its sign, and its magnitude goes to the nearest. -/
theorem Interchange.round_value (hlt : |q| < overflowBound f) :
    ∃ (s : Bool) (k : Nat), q = (if s then -1 else 1) * |q| ∧ nearestMagnitude f |q| k ∧
      numberOf f (roundBits f w x) = some ((if s then -1 else 1) * magnitudeValue f k) := by
  obtain ⟨hq, s, n, d, e, rfl, hd⟩ := hx
  obtain ⟨k, hk, hfinite, -⟩ := I.round_num s n e hd
  obtain rfl := Option.some.inj hq
  have hx0 : 0 ≤ (n : ℚ) / d * 2 ^ e := by positivity
  have habs : |(if s then -1 else 1) * ((n : ℚ) / d) * 2 ^ e| = (n : ℚ) / d * 2 ^ e := by
    rw [mul_assoc, abs_mul, abs_signum, one_mul, abs_of_nonneg hx0]
  rw [habs] at hlt ⊢
  exact ⟨s, k, mul_assoc _ _ _, hk, (hfinite hlt).1⟩

/-- A value that is a number of the format is not rounded. -/
theorem Interchange.round_exact {r c : Nat} (hr : r ≤ 2 * 2 ^ f.fracBits) (hq : |q| = r * 2 ^ (minExp f + c))
    (hlt : |q| < overflowBound f) : numberOf f (roundBits f w x) = some q := by
  obtain ⟨s, k, hsign, hk, hvalue⟩ := I.round_value hx hlt
  obtain ⟨j, hj⟩ := exists_magnitude f c r hr
  have hdist := (hk j).1
  rw [hj, ← hq, sub_self, abs_zero] at hdist
  rw [hvalue, sub_eq_zero.mp (abs_nonpos_iff.mp hdist), ← hsign]

end

theorem nearestMagnitude_le {f : FloatFormat} {x : ℚ} {k j : Nat} (hk : nearestMagnitude f x k)
    (hx : x ≤ magnitudeValue f j) : magnitudeValue f k ≤ magnitudeValue f j := by
  by_contra hlt
  have hdist := (hk j).1
  rw [abs_of_nonneg (by linarith), abs_of_nonneg (by linarith)] at hdist
  linarith

theorem le_nearestMagnitude {f : FloatFormat} {x : ℚ} {k j : Nat} (hk : nearestMagnitude f x k)
    (hx : magnitudeValue f j ≤ x) : magnitudeValue f j ≤ magnitudeValue f k := by
  by_contra hlt
  have hdist := (hk j).1
  rw [abs_of_nonpos (by linarith), abs_of_nonpos (by linarith)] at hdist
  linarith

end Sys2Proof.Machine
end

section
/-! PROOFS. How each format reads its encodings (R11), what the operations answer where no number is the result, and
what the comparisons compare (R134). -/

namespace Sys2Proof.Machine

section
variable {f : FloatFormat} {bits : Nat}

theorem unpack_top_zero (he : bits / 2 ^ f.fracBits % 2 ^ f.expBits = 2 ^ f.expBits - 1)
    (hf : bits % 2 ^ f.fracBits = 0) : unpack f bits = .inf (signBit f bits) :=
  (if_pos he).trans (if_pos hf)

theorem unpack_top_nonzero (he : bits / 2 ^ f.fracBits % 2 ^ f.expBits = 2 ^ f.expBits - 1)
    (hf : bits % 2 ^ f.fracBits ≠ 0) : unpack f bits = .nan :=
  (if_pos he).trans (if_neg hf)

theorem unpack_subnormal (hexp : 1 < f.expBits) (he : bits / 2 ^ f.fracBits % 2 ^ f.expBits = 0) :
    unpack f bits = .num (signBit f bits) (bits % 2 ^ f.fracBits) 1 (minExp f) := by
  have htop : 0 < 2 ^ f.expBits - 1 := Nat.sub_pos_of_lt (Nat.one_lt_two_pow (by omega))
  exact (if_neg (by omega)).trans (if_pos he)

theorem unpack_normal (h0 : 0 < bits / 2 ^ f.fracBits % 2 ^ f.expBits)
    (htop : bits / 2 ^ f.fracBits % 2 ^ f.expBits < 2 ^ f.expBits - 1) :
    unpack f bits = .num (signBit f bits) (bits % 2 ^ f.fracBits + 2 ^ f.fracBits) 1
      (minExp f + ((bits / 2 ^ f.fracBits % 2 ^ f.expBits - 1 : Nat) : Int)) :=
  (if_neg htop.ne).trans (if_neg h0.ne')

end

/-- A NaN on the right makes a NaN, as one on the left does by definition (R134). -/
theorem exactAdd_nan (x : Exact) : exactAdd x .nan = .nan := by cases x <;> rfl

theorem exactMul_nan (x : Exact) : exactMul x .nan = .nan := by cases x <;> rfl

theorem exactDiv_nan (x : Exact) : exactDiv x .nan = .nan := by cases x <;> rfl

section
variable {f : FloatFormat} {w : Nat} (I : Interchange f w)
include I

/-- R11: sign, exponent and fraction fields, with the bias that puts the last place of the subnormals at `minExp`. -/
theorem Interchange.reads {bias : Int} (hbias : minExp f = 1 - bias - f.fracBits) :
    readsEncodings f.fracBits f.expBits bias (fun x : BitVec w => unpack f x.toNat) := by
  intro x
  have hex : (x.extractLsb' f.fracBits f.expBits).toNat = x.toNat / 2 ^ f.fracBits % 2 ^ f.expBits := by
    rw [BitVec.extractLsb'_toNat, Nat.shiftRight_eq_div_pow]
  have hfr : (x.extractLsb' 0 f.fracBits).toNat = x.toNat % 2 ^ f.fracBits := by
    rw [BitVec.extractLsb'_toNat, Nat.shiftRight_zero]
  have hmsb (h : unpack f x.toNat ≠ .nan) : signOf (unpack f x.toNat) = x.msb := I.sign h
  have hunit : (2 : ℚ) ^ (f.fracBits : Int) = 2 ^ f.fracBits := zpow_natCast _ _
  dsimp only
  rw [hex, hfr]
  refine ⟨fun he hf => ?_, fun he hf => unpack_top_nonzero he hf, fun he => ?_, fun h0 htop => ?_⟩
  · rw [unpack_top_zero he hf] at hmsb ⊢
    rw [← hmsb (by simp), signOf]
  · rw [unpack_subnormal I.expPos he] at hmsb ⊢
    rw [← hmsb (by simp), signOf, exactValue, show 1 - bias = minExp f + f.fracBits by omega,
      zpow_add₀ (by norm_num), hunit]
    field_simp
    simp
  · rw [unpack_normal h0 htop] at hmsb ⊢
    rw [← hmsb (by simp), signOf, exactValue]
    generalize x.toNat / 2 ^ f.fracBits % 2 ^ f.expBits = ex at *
    rw [show (ex : Int) - bias = minExp f + ((ex - 1 : Nat) : Int) + f.fracBits by omega,
      zpow_add₀ (by norm_num) _ (f.fracBits : Int), hunit]
    have hP : (2 : ℚ) ^ f.fracBits ≠ 0 := by positivity
    generalize (2 : ℚ) ^ (minExp f + ((ex - 1 : Nat) : Int)) = u
    push_cast
    generalize (2 : ℚ) ^ f.fracBits = P at *
    rw [Option.some.injEq]
    field_simp
    ring

/-- A rounded value that is 0 is 0. -/
theorem Interchange.round_isZero {x : Exact} (hx : isNumber x 0) : numberOf f (roundBits f w x) = some 0 :=
  I.round_exact hx (r := 0) (c := 0) (Nat.zero_le _) (by simp) (by rw [abs_zero]; exact overflowBound_pos I.expPos)

/-- A NaN operand; two infinities; an infinity and a number; two numbers with the answers that depend on a zero. -/
theorem Interchange.special :
    specialResults (fun x : BitVec w => unpack f x.toNat)
      (fun a b => roundBits f w (exactAdd (unpack f a.toNat) (unpack f b.toNat)))
      (fun a b => roundBits f w (exactAdd (unpack f a.toNat) (exactNeg (unpack f b.toNat))))
      (fun a b => roundBits f w (exactMul (unpack f a.toNat) (unpack f b.toNat)))
      (fun a b => roundBits f w (exactDiv (unpack f a.toNat) (unpack f b.toNat))) := by
  have round_nan : unpack f (roundBits f w .nan).toNat = .nan := I.round_nan
  have round_inf (s : Bool) : unpack f (roundBits f w (.inf s)).toNat = .inf s := I.round_inf s
  have round_msb (s : Bool) (n d : Nat) (e : Int) : (roundBits f w (.num s n d e)).msb = s := I.round_msb (by simp)
  refine ⟨fun a b h => ?_, fun a b s t ha hb => ?_, fun a b s q ha hb => ?_, fun a b p q ha hb => ?_⟩ <;>
    dsimp only at *
  · rcases h with h | h <;> rw [h]
    · exact ⟨round_nan, round_nan, round_nan, round_nan⟩
    · rw [exactNeg, exactAdd_nan, exactMul_nan, exactDiv_nan]
      exact ⟨round_nan, round_nan, round_nan, round_nan⟩
  · rw [ha, hb]
    refine ⟨?_, ?_, round_inf _, round_nan⟩
    · rw [exactAdd]
      split
      · exact round_inf s
      · exact round_nan
    · rw [exactNeg, exactAdd]
      cases s <;> cases t
      · exact round_nan
      · exact round_inf false
      · exact round_inf true
      · exact round_nan
  · obtain ⟨n, e, hb', -, hzero⟩ := I.unpack_number hb
    rw [ha, hb']
    simp only [ne_eq, hzero]
    refine ⟨round_inf s, round_inf s, round_inf s, round_inf !s, fun h => ?_, fun h => ?_, round_inf _,
      I.round_isZero (isNumber_zero _), ?_⟩
    · rw [exactMul, exactMul, if_pos h, if_pos h]
      exact ⟨round_nan, round_nan⟩
    · rw [exactMul, exactMul, if_neg h, if_neg h, bne_comm (a := b.msb)]
      exact ⟨round_inf _, round_inf _⟩
    · rw [exactDiv, round_msb, bne_comm]
  · have hsum := I.isNumber_add ha hb
    have hdiff := I.isNumber_sub ha hb
    obtain ⟨n₁, e₁, ha', -, hzero₁⟩ := I.unpack_number ha
    obtain ⟨n₂, e₂, hb', -, hzero₂⟩ := I.unpack_number hb
    rw [ha', hb'] at hsum hdiff ⊢
    simp only [ne_eq, hzero₁, hzero₂]
    refine ⟨fun h₁ h₂ => ?_, fun h₁ h₂ => ?_, fun h₂ => ?_, round_msb _ _ _ _, fun h => ?_, fun h => ?_⟩
    · rw [exactDiv, if_pos h₂, if_pos h₁]
      exact round_nan
    · rw [exactDiv, if_pos h₂, if_neg h₁]
      exact round_inf _
    · rw [exactDiv, if_neg h₂, round_msb]
    · rw [h] at hsum
      exact (round_msb _ _ _ _).trans (exactAdd_sign _ _ _ _ _ _ hsum.1)
    · rw [h] at hdiff
      exact (round_msb _ _ _ _).trans (exactAdd_sign _ _ _ _ _ _ hdiff.1)

/-- R134: the order of the values, infinities at its ends. -/
theorem Interchange.compares_lt :
    comparesLt (fun x : BitVec w => unpack f x.toNat) (fun a b => exactLt (unpack f a.toNat) (unpack f b.toNat)) := by
  intro a b
  dsimp only
  refine ⟨fun h => ?_, fun p q ha hb => ?_, fun s ha hb => ?_, fun t ha hb => ?_⟩
  · rcases h with h | h <;> rw [h]
    · rfl
    · cases unpack f a.toNat <;> rfl
  · obtain ⟨n₁, e₁, ha', rfl, -⟩ := I.unpack_number ha
    obtain ⟨n₂, e₂, hb', rfl, -⟩ := I.unpack_number hb
    rw [ha', hb']
    exact exactLt_value _ _ _ _ _ _
  · rw [ha]
    cases hx : unpack f b.toNat with
    | nan => exact absurd hx hb
    | inf t => cases s <;> cases t <;> simp [exactLt]
    | num => simp [exactLt]
  · rw [hb]
    cases hx : unpack f a.toNat with
    | nan => exact absurd hx ha
    | inf s => cases s <;> cases t <;> simp [exactLt]
    | num => simp [exactLt]

theorem Interchange.compares_le :
    comparesLe (fun x : BitVec w => unpack f x.toNat)
      (fun a b => exactLt (unpack f a.toNat) (unpack f b.toNat) || exactEq (unpack f a.toNat) (unpack f b.toNat)) := by
  intro a b
  dsimp only
  refine ⟨fun h => ?_, fun p q ha hb => ?_, fun s ha hb => ?_, fun t ha hb => ?_⟩
  · rcases h with h | h <;> rw [h]
    · rfl
    · cases unpack f a.toNat <;> rfl
  · obtain ⟨n₁, e₁, ha', rfl, -⟩ := I.unpack_number ha
    obtain ⟨n₂, e₂, hb', rfl, -⟩ := I.unpack_number hb
    rw [ha', hb', Bool.or_eq_true, exactLt_value, exactEq_value, le_iff_lt_or_eq]
  · rw [ha]
    cases hx : unpack f b.toNat with
    | nan => exact absurd hx hb
    | inf t => cases s <;> cases t <;> simp [exactLt, exactEq]
    | num => simp [exactLt, exactEq]
  · rw [hb]
    cases hx : unpack f a.toNat with
    | nan => exact absurd hx ha
    | inf s => cases s <;> cases t <;> simp [exactLt, exactEq]
    | num => simp [exactLt, exactEq]

end
end Sys2Proof.Machine
end

section
/-! PROOFS. The arithmetic of the two widths (R11, R131, R133 to R135), from the facts of one format. -/

namespace Sys2Proof.Machine

theorem abs_of_value {f : FloatFormat} {bits : Nat} {q : ℚ} (h : exactValue (unpack f bits) = some q) :
    |q| = magnitudeValue f (bits % signWeight f) := by
  obtain ⟨-, hq⟩ := magnitude_of_value h
  rw [hq, abs_mul, abs_signum, one_mul, abs_of_nonneg (magnitudeValue_nonneg _ _)]

theorem abs_lt_of_value32 {a : F32} {p : ℚ} (h : value32 a = some p) : |p| < 2 ^ 128 := by
  have hmax : magnitudeValue binary32 (infBits binary32) = 2 ^ 128 := by
    norm_num [magnitudeValue, binade, infBits, binary32, minExp]
  rw [abs_of_value h, ← hmax]
  exact magnitudeValue_strictMono binary32 (magnitude_of_value h).1

/-- Every binary32 number is a binary64 number (R11): the widening is exact. -/
theorem value64_f32to64 {a : F32} {p : ℚ} (h : value32 a = some p) : value64 (f32to64 a) = some p := by
  have habs := abs_of_value h
  obtain ⟨c, r, hcr, hr, hc⟩ := exists_pack binary32 (a.toNat % signWeight binary32)
  rw [hcr, magnitudeValue_pack binary32 hr.le hc] at habs
  refine interchange64.round_exact (interchange32.isNumber_unpack h) (r := r) (c := c + 925) ?_ ?_ ?_
  · exact hr.le.trans (by decide)
  · rw [habs, show minExp binary64 + ((c + 925 : Nat) : Int) = minExp binary32 + c by
      simp only [minExp, binary32, binary64]; push_cast; ring]
  · exact (abs_lt_of_value32 h).trans
      (by exact_mod_cast two_zpow_lt_overflowBound (f := binary64) (k := 128) (by decide) (by decide))

/-- A number is 0 exactly if its magnitude bits are (R11). -/
theorem numberOf_eq_zero {f : FloatFormat} {w : Nat} (I : Interchange f w) (x : BitVec w) :
    numberOf f x = some 0 ↔ x.toNat % signWeight f = 0 := by
  constructor
  · intro h
    obtain ⟨-, hq⟩ := magnitude_of_value h
    rw [eq_comm, mul_eq_zero, magnitudeValue_eq_zero] at hq
    exact hq.resolve_left fun h => by have := abs_signum (signBit f x.toNat); rw [h] at this; simp at this
  · intro h
    rw [numberOf, unpack_of_magnitude_lt (by rw [h]; exact infBits_pos I.expPos), h, magnitudeValue_zero, mul_zero]

/-- The model's test for zero holds of the two zeros' value and of nothing else (R134). -/
theorem exactEq_zero_iff_value (f : FloatFormat) (bits : Nat) :
    exactEq (unpack f bits) (exactInt 0) = true ↔ exactValue (unpack f bits) = some 0 := by
  rcases unpack_cases f bits with h | ⟨neg, h⟩ | ⟨neg, n, e, h⟩ <;> rw [h]
  · simp [exactEq, exactValue]
  · simp [exactEq, exactValue, exactInt]
  · rw [exactEq_zero, exactValue_num_zero]

theorem isZero32_iff_value (x : F32) : isZero32 x = true ↔ value32 x = some 0 := exactEq_zero_iff_value _ _

theorem isZero64_iff_value (x : F64) : isZero64 x = true ↔ value64 x = some 0 := exactEq_zero_iff_value _ _

theorem isZero32_iff (a : F32) : isZero32 a = true ↔ a = 0x00000000#32 ∨ a = 0x80000000#32 := by
  have hzero := numberOf_eq_zero interchange32 a
  rw [show signWeight binary32 = 2147483648 by decide] at hzero
  rw [isZero32_iff_value, show value32 a = some 0 ↔ _ from hzero, BitVec.toNat_eq, BitVec.toNat_eq]
  have := a.isLt
  simp only [BitVec.toNat_ofNat]
  omega

theorem isZero64_iff (a : F64) : isZero64 a = true ↔ a = 0x0000000000000000#64 ∨ a = 0x8000000000000000#64 := by
  have hzero := numberOf_eq_zero interchange64 a
  rw [show signWeight binary64 = 9223372036854775808 by decide] at hzero
  rw [isZero64_iff_value, show value64 a = some 0 ↔ _ from hzero, BitVec.toNat_eq, BitVec.toNat_eq]
  have := a.isLt
  simp only [BitVec.toNat_ofNat]
  omega

theorem flt64_iff_lt {a b : F64} {p q : ℚ} (ha : value64 a = some p) (hb : value64 b = some q) :
    flt64 a b = true ↔ p < q := by
  obtain ⟨-, hnumbers, -⟩ := interchange64.compares_lt a b
  exact hnumbers p q ha hb

/-- Settles O34: what the two formats have in common is proved for an `Interchange` format once, and read off at each
width. -/
theorem arithmeticCorrectlyRounded : Obligations.ArithmeticCorrectlyRounded := by
  have I := interchange32
  have J := interchange64
  refine ⟨I.reads (by decide), J.reads (by decide), fun a b p q ha hb => ?_, fun a b p q ha hb => ?_, fun n => ?_,
    fun a p => value64_f32to64, I.special, J.special, fun a => ⟨fun h => ?_, fun s h => ?_, fun h => ?_⟩,
    fun a => ⟨fun h => ?_, fun s h => ?_, fun h => ?_⟩,
    fun n => ⟨round32_msb (by simp [exactInt]), round64_msb (by simp [exactInt])⟩,
    fun a b => ⟨nanCanonical_round32 _, nanCanonical_round32 _, nanCanonical_round32 _, nanCanonical_round32 _⟩,
    isZero32_iff, isZero64_iff, I.compares_le, J.compares_lt⟩
  · simp only [correctlyRounded32_iff]
    exact ⟨I.correctlyRounded_round (I.isNumber_add ha hb), I.correctlyRounded_round (I.isNumber_sub ha hb),
      I.correctlyRounded_round (I.isNumber_mul ha hb),
      fun hq => I.correctlyRounded_round (I.isNumber_div ha hb hq)⟩
  · simp only [correctlyRounded32_iff, correctlyRounded64_iff]
    exact ⟨J.correctlyRounded_round (J.isNumber_add ha hb), J.correctlyRounded_round (J.isNumber_sub ha hb),
      J.correctlyRounded_round (J.isNumber_mul ha hb),
      fun hq => J.correctlyRounded_round (J.isNumber_div ha hb hq),
      I.correctlyRounded_round (J.isNumber_unpack ha)⟩
  · rw [correctlyRounded32_iff, correctlyRounded64_iff]
    exact ⟨I.correctlyRounded_round (isNumber_exactInt n), J.correctlyRounded_round (isNumber_exactInt n)⟩
  · rw [f32to64, h, unpack64_round_nan]
  · rw [f32to64, h, unpack64_round_inf]
  · rw [f32to64, round64_msb h, unpack32_sign h]
  · rw [f64to32, h]; decide
  · rw [f64to32, h, unpack32_round_inf]
  · rw [f64to32, round32_msb h, unpack64_sign h]

end Sys2Proof.Machine
end

section
/-! PROOFS. Bounds through a formula: what a rounded operation keeps of a bound that is a power of two, and the numbers
that a formula holds exactly. -/

namespace Sys2Proof.Machine

theorem minExp_nonpos {f : FloatFormat} (hexp : 1 < f.expBits) : minExp f ≤ 0 := by
  have hhalf : 2 ≤ 2 ^ (f.expBits - 1) := Nat.le_self_pow (by omega) 2
  unfold minExp
  omega

theorem exists_magnitude_natCast {f : FloatFormat} (hexp : 1 < f.expBits) {r : Nat} (hr : r ≤ 2 * 2 ^ f.fracBits)
    (k : Nat) : ∃ j, magnitudeValue f j = r * 2 ^ k := by
  have hmin := minExp_nonpos hexp
  obtain ⟨j, hj⟩ := exists_magnitude f (k - minExp f).toNat r hr
  refine ⟨j, hj.trans ?_⟩
  rw [Int.toNat_of_nonneg (by omega), add_sub_cancel, zpow_natCast]

theorem two_pow_add_le {j k m : Nat} {x y : ℚ} (hj : j < m) (hk : k < m) (hx : x ≤ 2 ^ j) (hy : y ≤ 2 ^ k) :
    x + y ≤ 2 ^ m := by
  obtain ⟨m, rfl⟩ : ∃ l, m = l + 1 := ⟨m - 1, by omega⟩
  have hj' : (2 : ℚ) ^ j ≤ 2 ^ m := pow_le_pow_right₀ (by norm_num) (by omega)
  have hk' : (2 : ℚ) ^ k ≤ 2 ^ m := pow_le_pow_right₀ (by norm_num) (by omega)
  rw [pow_succ]
  linarith

/-- The encoding's number is at most `2 ^ k` in magnitude. -/
def within (f : FloatFormat) {w : Nat} (x : BitVec w) (k : Nat) : Prop :=
  ∃ v, numberOf f x = some v ∧ |v| ≤ 2 ^ k

section
variable {f : FloatFormat} {w : Nat} (I : Interchange f w)
include I

theorem Interchange.abs_lt_overflowBound {q : ℚ} {k : Nat} (hq : |q| ≤ 2 ^ k) (hk : k ≤ topExp f) :
    |q| < overflowBound f :=
  hq.trans_lt (by exact_mod_cast two_zpow_lt_overflowBound (f := f) (k := k) I.expPos (by exact_mod_cast hk))

theorem Interchange.round_within {x : Exact} {q : ℚ} (hx : isNumber x q) {k : Nat} (hq : |q| ≤ 2 ^ k)
    (hk : k ≤ topExp f) : within f (roundBits f w x) k := by
  obtain ⟨s, m, -, hm, hvalue⟩ := I.round_value hx (I.abs_lt_overflowBound hq hk)
  obtain ⟨j, hj⟩ := exists_magnitude_natCast I.expPos (r := 1) (Nat.mul_pos (by decide) (by positivity)) k
  rw [Nat.cast_one, one_mul] at hj
  refine ⟨_, hvalue, ?_⟩
  rw [abs_mul, abs_signum, one_mul, abs_of_nonneg (magnitudeValue_nonneg f m), ← hj]
  exact nearestMagnitude_le hm (hq.trans_eq hj.symm)

/-- A number of the format between 0 and a small integer stays there when it is narrowed to it. -/
theorem Interchange.round_between {x : Exact} {q : ℚ} (hx : isNumber x q) {r : Nat} (hr : r ≤ 2 * 2 ^ f.fracBits)
    (hlt : (r : ℚ) < overflowBound f) (h0 : 0 ≤ q) (hq : q ≤ r) :
    ∃ v, numberOf f (roundBits f w x) = some v ∧ 0 ≤ v ∧ v ≤ r := by
  have habs := abs_of_nonneg h0
  obtain ⟨s, m, hsign, hm, hvalue⟩ := I.round_value hx (by rw [habs]; exact hq.trans_lt hlt)
  rw [habs] at hsign hm
  obtain ⟨j, hj⟩ := exists_magnitude_natCast I.expPos hr 0
  rw [pow_zero, mul_one] at hj
  have hm0 := magnitudeValue_nonneg f m
  have hle : magnitudeValue f m ≤ r := by rw [← hj]; exact nearestMagnitude_le hm (hj ▸ hq)
  refine ⟨_, hvalue, ?_⟩
  cases s
  · simpa using ⟨hm0, hle⟩
  · have hq0 : q = 0 := by simp at hsign; linarith
    have := nearestMagnitude_le hm (j := 0) (by simp [hq0])
    rw [magnitudeValue_zero] at this
    rw [le_antisymm this hm0]
    simp

variable {a b : BitVec w} {j k m : Nat}

theorem Interchange.within_add (ha : within f a j) (hb : within f b k) (hj : j < m) (hk : k < m) (hm : m ≤ topExp f) :
    within f (roundBits f w (exactAdd (unpack f a.toNat) (unpack f b.toNat))) m := by
  obtain ⟨p, ha, hp⟩ := ha
  obtain ⟨q, hb, hq⟩ := hb
  refine I.round_within (I.isNumber_add ha hb) ((abs_add_le p q).trans (two_pow_add_le hj hk hp hq)) hm

theorem Interchange.within_sub (ha : within f a j) (hb : within f b k) (hj : j < m) (hk : k < m) (hm : m ≤ topExp f) :
    within f (roundBits f w (exactAdd (unpack f a.toNat) (exactNeg (unpack f b.toNat)))) m := by
  obtain ⟨p, ha, hp⟩ := ha
  obtain ⟨q, hb, hq⟩ := hb
  refine I.round_within (I.isNumber_sub ha hb) ((abs_sub p q).trans (two_pow_add_le hj hk hp hq)) hm

theorem Interchange.within_mul (ha : within f a j) (hb : within f b k) (hjk : j + k ≤ m) (hm : m ≤ topExp f) :
    within f (roundBits f w (exactMul (unpack f a.toNat) (unpack f b.toNat))) m := by
  obtain ⟨p, ha, hp⟩ := ha
  obtain ⟨q, hb, hq⟩ := hb
  refine I.round_within (I.isNumber_mul ha hb) ?_ hm
  calc |p * q| = |p| * |q| := abs_mul p q
    _ ≤ 2 ^ j * 2 ^ k := by gcongr
    _ = 2 ^ (j + k) := (pow_add 2 j k).symm
    _ ≤ 2 ^ m := pow_le_pow_right₀ (by norm_num) hjk

/-- Integers of at most `fracBits + 1` bits are exact (R133). -/
theorem Interchange.exactInt_exact {n : Int} (hn : n.natAbs ≤ 2 * 2 ^ f.fracBits) (hfrac : f.fracBits + 1 ≤ topExp f) :
    numberOf f (roundBits f w (exactInt n)) = some (n : ℚ) := by
  have hmin := minExp_nonpos I.expPos
  have habs : |(n : ℚ)| = n.natAbs := by rw [Nat.cast_natAbs, Int.cast_abs]
  have hle : |(n : ℚ)| ≤ 2 ^ (f.fracBits + 1) := by rw [habs, pow_succ']; exact_mod_cast hn
  refine I.round_exact (isNumber_exactInt n) (r := n.natAbs) (c := (-minExp f).toNat) hn ?_
    (I.abs_lt_overflowBound hle hfrac)
  rw [Int.toNat_of_nonneg (by omega), add_neg_cancel, zpow_zero, mul_one, habs]

/-- The formulas' divisors are integers that the format holds, so a quotient is no greater than its dividend. -/
theorem Interchange.within_div (ha : within f a j) {n : Int} (h1 : 1 ≤ n) (hn : n.natAbs ≤ 2 * 2 ^ f.fracBits)
    (hfrac : f.fracBits + 1 ≤ topExp f) (hj : j ≤ topExp f) :
    within f (roundBits f w (exactDiv (unpack f a.toNat) (unpack f (roundBits f w (exactInt n)).toNat))) j := by
  obtain ⟨p, ha, hp⟩ := ha
  have hq : (1 : ℚ) ≤ n := by exact_mod_cast h1
  refine I.round_within (I.isNumber_div ha (I.exactInt_exact hn hfrac) (by linarith)) ?_ hj
  rw [abs_div]
  exact (div_le_self (abs_nonneg p) (hq.trans (le_abs_self (n : ℚ)))).trans hp

theorem Interchange.within_exactInt {n : Int} (hn : n.natAbs ≤ 2 ^ k) (hk : k ≤ topExp f) :
    within f (roundBits f w (exactInt n)) k := by
  refine I.round_within (isNumber_exactInt n) ?_ hk
  rw [← Int.cast_abs, ← Nat.cast_natAbs]
  exact_mod_cast hn

end
end Sys2Proof.Machine
end

section
/-! PROOFS. The compensation commands (R140, R143, R147): their checks in order, and the formula or the guard. -/

namespace Sys2Proof.Machine

/-! ### `COMPT` -/

theorem exec_compt_disabled {s : State} (he : s.ctrl.ten = false) :
    exec .compt s = .next (raiseErr .invalidState s) := retire_error (c := compT) (by simp [compT, he])

theorem exec_compt_nocal {s : State} (he : s.ctrl.ten = true) (hv : s.status.tv = false) :
    exec .compt s = .next (raiseErr .nocal s) := retire_error (c := compT) (by simp [compT, he, hv])

theorem exec_compt_noraw {s : State} (he : s.ctrl.ten = true) (hv : s.status.tv = true) (hr : s.status.rtv = false) :
    exec .compt s = .next (raiseErr .noraw s) := retire_error (c := compT) (by simp [compT, he, hv, hr])

theorem exec_compt {s : State} (he : s.ctrl.ten = true) (hv : s.status.tv = true) (hr : s.status.rtv = true) :
    exec .compt s =
      .next (complete false { s with
        ft := fineTemperature s.rawT s.calT, temp := temperatureOf (fineTemperature s.rawT s.calT)
        status := { s.status with ftv := true } }) := by
  have hrule : compT s = .ok
      { state := { s with
          ft := fineTemperature s.rawT s.calT, temp := temperatureOf (fineTemperature s.rawT s.calT)
          status := { s.status with ftv := true } }
        sent := false } := by simp [compT, he, hv, hr]
  exact retire_ok hrule

/-- Settles O28: the model's formula is the one of R140, operation for operation. -/
theorem comptResult : Obligations.ComptResult :=
  ⟨rfl, fun _ => exec_compt_disabled, fun _ => exec_compt_nocal, fun _ => exec_compt_noraw, fun _ => exec_compt⟩

/-! ### `COMPP` -/

theorem exec_compp_disabled {s : State} (he : s.ctrl.pen = false) :
    exec .compp s = .next (raiseErr .invalidState s) := retire_error (c := compP) (by simp [compP, he])

theorem exec_compp_nocal {s : State} (he : s.ctrl.pen = true) (hv : s.status.pv = false) :
    exec .compp s = .next (raiseErr .nocal s) := retire_error (c := compP) (by simp [compP, he, hv])

theorem exec_compp_noraw {s : State} (he : s.ctrl.pen = true) (hv : s.status.pv = true) (hr : s.status.rpv = false) :
    exec .compp s = .next (raiseErr .noraw s) := retire_error (c := compP) (by simp [compP, he, hv, hr])

theorem exec_compp_noft {s : State} (he : s.ctrl.pen = true) (hv : s.status.pv = true) (hr : s.status.rpv = true)
    (hf : s.status.ftv = false) :
    exec .compp s = .next (raiseErr .noft s) := retire_error (c := compP) (by simp [compP, he, hv, hr, hf])

/-- `COMPP` past its checks: the compensated pressure, or +0.0 as a sentinel where the guard leaves none. -/
theorem exec_compp {s : State} (he : s.ctrl.pen = true) (hv : s.status.pv = true) (hr : s.status.rpv = true)
    (hf : s.status.ftv = true) {o : Option F32} (ho : compensatePressure s.rawP s.ft s.calP = o) :
    exec .compp s = .next (complete o.isNone { s with press := o.getD 0 }) := by
  have hrule : compP s = .ok { state := { s with press := o.getD 0 }, sent := o.isNone } := by
    cases o <;> simp [compP, he, hv, hr, hf, ho]
  exact retire_ok hrule

theorem compensatePressure_guard (raw : BitVec 20) {ft : F32} {c : CalP} (h : value32 (pressV1 ft c) = some 0) :
    compensatePressure raw ft c = none := if_pos ((isZero32_iff_value _).mpr h)

theorem compensatePressure_formula (raw : BitVec 20) {ft : F32} {c : CalP} (h : value32 (pressV1 ft c) ≠ some 0) :
    compensatePressure raw ft c = some (pressBody raw (pressV1 ft c) (pressV2 ft c) c) :=
  if_neg (mt (isZero32_iff_value _).mp h)

/-- Settles O30: the guard tests the value of the normalized term, and past it the formula is that of R143. -/
theorem comppResult : Obligations.ComppResult :=
  ⟨rfl, fun _ => exec_compp_disabled, fun _ => exec_compp_nocal, fun _ => exec_compp_noraw, fun _ => exec_compp_noft,
    fun s he hv hr hf =>
      ⟨fun h => exec_compp he hv hr hf (compensatePressure_guard s.rawP h),
        fun h => exec_compp he hv hr hf (compensatePressure_formula s.rawP h)⟩⟩

/-! ### `COMPH` -/

theorem exec_comph_disabled {s : State} (he : s.ctrl.hen = false) :
    exec .comph s = .next (raiseErr .invalidState s) := retire_error (c := compH) (by simp [compH, he])

theorem exec_comph_nocal {s : State} (he : s.ctrl.hen = true) (hv : s.status.hv = false) :
    exec .comph s = .next (raiseErr .nocal s) := retire_error (c := compH) (by simp [compH, he, hv])

theorem exec_comph_noraw {s : State} (he : s.ctrl.hen = true) (hv : s.status.hv = true) (hr : s.status.rhv = false) :
    exec .comph s = .next (raiseErr .noraw s) := retire_error (c := compH) (by simp [compH, he, hv, hr])

theorem exec_comph_noft {s : State} (he : s.ctrl.hen = true) (hv : s.status.hv = true) (hr : s.status.rhv = true)
    (hf : s.status.ftv = false) :
    exec .comph s = .next (raiseErr .noft s) := retire_error (c := compH) (by simp [compH, he, hv, hr, hf])

/-- `COMPH` past its checks: the compensated humidity, or +0.0 as a sentinel where the guard leaves none. -/
theorem exec_comph {s : State} (he : s.ctrl.hen = true) (hv : s.status.hv = true) (hr : s.status.rhv = true)
    (hf : s.status.ftv = true) {o : Option F32}
    (ho : compensateHumidity s.bench.h45Signed s.rawH s.ft s.calH = o) :
    exec .comph s = .next (complete o.isNone { s with hum := o.getD 0 }) := by
  have hrule : compH s = .ok { state := { s with hum := o.getD 0 }, sent := o.isNone } := by
    cases o <;> simp [compH, he, hv, hr, hf, ho]
  exact retire_ok hrule

theorem compensateHumidity_guard (isSigned : Bool) (raw : BitVec 16) {ft : F32} (c : CalH)
    (h : value64 (humShift ft) = some 0) : compensateHumidity isSigned raw ft c = none :=
  if_pos ((isZero64_iff_value _).mpr h)

theorem compensateHumidity_formula (isSigned : Bool) (raw : BitVec 16) {ft : F32} (c : CalH)
    (h : value64 (humShift ft) ≠ some 0) :
    compensateHumidity isSigned raw ft c = some (humClamp (humPolynomial isSigned raw (humShift ft) c)) :=
  if_neg (mt (isZero64_iff_value _).mp h)

/-- The clamp selects one of three binary64 numbers, and that one is narrowed (R135, R147). -/
theorem humClamp_eq (z : F64) :
    humClamp z = f64to32 (if flt64 (i2f64 100) z then i2f64 100 else if flt64 z (i2f64 0) then i2f64 0 else z) := by
  rw [apply_ite f64to32, apply_ite f64to32, humClamp]

/-- Settles O31: the guard tests the value of the shifted input, and past it the formula is that of R147, clamped and
narrowed once. -/
theorem comphResult : Obligations.ComphResult := by
  refine ⟨rfl, fun _ => exec_comph_disabled, fun _ => exec_comph_nocal, fun _ => exec_comph_noraw,
    fun _ => exec_comph_noft, fun s he hv hr hf => ⟨fun h => ?_, fun h => ?_⟩⟩
  · exact exec_comph he hv hr hf (compensateHumidity_guard s.bench.h45Signed s.rawH s.calH h)
  · have hform := compensateHumidity_formula s.bench.h45Signed s.rawH s.calH h
    rw [humClamp_eq] at hform
    exact exec_comph he hv hr hf hform

end Sys2Proof.Machine
end

section
/-! PROOFS. The exact differences of `COMPT` (R140), and the guard and the range of `COMPH` (R147, R149). -/

namespace Sys2Proof.Machine

theorem minExp_binary32 : minExp binary32 = -149 := rfl

theorem fracBits_binary32 : binary32.fracBits = 23 := rfl

theorem topExp_binary32 : topExp binary32 = 127 := rfl

/-! ### `COMPT` -/

/-- A multiple of `2 ^ (minExp + c)` by at most `fracBits + 1` bits, well below the overflow bound, is exact. -/
theorem Interchange.round_units {f : FloatFormat} {w : Nat} (I : Interchange f w) {x : Exact} {q : ℚ}
    (hx : isNumber x q) {m : Int} {c : Nat} (hm : m.natAbs ≤ 2 * 2 ^ f.fracBits) (hq : q = m * 2 ^ (minExp f + c))
    (hc : f.fracBits + 1 + (minExp f + c) ≤ topExp f) : numberOf f (roundBits f w x) = some q := by
  have hunit : (0 : ℚ) < 2 ^ (minExp f + c) := by positivity
  have habs : |q| = m.natAbs * 2 ^ (minExp f + c) := by
    rw [hq, abs_mul, abs_of_pos hunit, Nat.cast_natAbs, Int.cast_abs]
  have hm' : (m.natAbs : ℚ) ≤ 2 * 2 ^ f.fracBits := by exact_mod_cast hm
  refine I.round_exact hx hm habs (lt_of_le_of_lt ?_ (two_zpow_lt_overflowBound I.expPos hc))
  calc |q| = m.natAbs * 2 ^ (minExp f + c) := habs
    _ ≤ 2 * 2 ^ f.fracBits * 2 ^ (minExp f + c) := by gcongr
    _ = 2 ^ (f.fracBits + 1 + (minExp f + c) : Int) := by
      rw [zpow_add₀ (by norm_num) _ (minExp f + c), zpow_add_one₀ (by norm_num), zpow_natCast]
      ring

theorem value32_i2f32 (n : Nat) (hn : n ≤ 2 ^ 24) : value32 (i2f32 n) = some (n : ℚ) :=
  interchange32.round_units (isNumber_exactInt n) (m := n) (c := 149)
    (by rw [Int.natAbs_natCast]; exact hn) (by simp [minExp, binary32]) (by decide)

/-- `n / 2 ^ k` for a small integer and a small power of two is exact. -/
theorem value32_scaled {n d k : Nat} (hn : n ≤ 2 ^ 24) (hd : d = 2 ^ k) (hk : k ≤ 24) :
    value32 (fdiv32 (i2f32 n) (i2f32 d)) = some ((n : ℚ) / d) := by
  have hd24 : d ≤ 2 ^ 24 := by rw [hd]; exact Nat.pow_le_pow_right (by decide) hk
  have hd0 : (d : ℚ) ≠ 0 := by rw [hd]; positivity
  refine interchange32.round_units
    (interchange32.isNumber_div (value32_i2f32 n hn) (value32_i2f32 d hd24) hd0) (m := n) (c := 149 - k)
    (by rw [Int.natAbs_natCast]; exact hn) ?_ ?_
  · rw [show minExp binary32 + ((149 - k : Nat) : Int) = -k by rw [minExp_binary32]; omega,
      zpow_neg, zpow_natCast, hd]
    push_cast
    rw [div_eq_mul_inv]
  · rw [fracBits_binary32, minExp_binary32, topExp_binary32]
    omega

/-- The difference of the two quotients of R140: both are multiples of the smaller unit, by less than 2^24 of them. -/
theorem value32_scaledDifference (raw : BitVec 20) (t1 : BitVec 16) {k : Nat} (hk : k ≤ 20) :
    value32 (fsub32 (fdiv32 (i2f32 raw.toNat) (i2f32 (2 ^ (k + 4) : Nat)))
      (fdiv32 (i2f32 t1.toNat) (i2f32 (2 ^ k : Nat)))) =
      some ((raw.toNat : ℚ) / (2 ^ (k + 4) : Nat) - (t1.toNat : ℚ) / (2 ^ k : Nat)) := by
  have hraw := raw.isLt
  have ht1 := t1.isLt
  refine interchange32.round_units
    (interchange32.isNumber_sub (value32_scaled (by omega) rfl (by omega)) (value32_scaled (by omega) rfl (by omega)))
    (m := raw.toNat - 16 * t1.toNat) (c := 149 - (k + 4)) ?_ ?_ ?_
  · rw [fracBits_binary32]
    omega
  · rw [show minExp binary32 + ((149 - (k + 4) : Nat) : Int) = -(k + 4 : Nat) by rw [minExp_binary32]; omega,
      zpow_neg, zpow_natCast]
    push_cast
    field_simp
    ring
  · rw [fracBits_binary32, minExp_binary32, topExp_binary32]
    omega

/-- Settles O29: both differences have the form of `value32_scaledDifference`. -/
theorem comptDifferencesExact : Obligations.ComptDifferencesExact := fun raw t1 =>
  ⟨value32_scaledDifference raw t1 (k := 10) (by decide), value32_scaledDifference raw t1 (k := 13) (by decide)⟩

/-! ### The guard of `COMPH` -/

theorem Interchange.toNat_div_lt {f : FloatFormat} {w : Nat} (I : Interchange f w) (x : BitVec w) :
    x.toNat / signWeight f < 2 :=
  Nat.div_lt_of_lt_mul (by rw [Nat.mul_comm, ← I.width]; exact x.isLt)

/-- Two encodings of one number that is not 0 are the same. -/
theorem Interchange.numberOf_injective {f : FloatFormat} {w : Nat} (I : Interchange f w) {x y : BitVec w} {q : ℚ}
    (hx : numberOf f x = some q) (hy : numberOf f y = some q) (hq : q ≠ 0) : x = y := by
  have hmag : x.toNat % signWeight f = y.toNat % signWeight f :=
    (magnitudeValue_strictMono f).injective ((abs_of_value hx).symm.trans (abs_of_value hy))
  obtain ⟨-, hxq⟩ := magnitude_of_value hx
  obtain ⟨-, hyq⟩ := magnitude_of_value hy
  have hsign : signBit f x.toNat = signBit f y.toNat := by
    rw [hmag] at hxq
    cases hsx : signBit f x.toNat <;> cases hsy : signBit f y.toNat <;> simp [hsx, hsy] at hxq hyq ⊢ <;>
      exact hq (by linarith)
  have hxlt := I.toNat_div_lt x
  have hylt := I.toNat_div_lt y
  have hdiv : x.toNat / signWeight f = y.toNat / signWeight f := by
    simp only [signBit, Bool.beq_eq_decide_eq, decide_eq_decide] at hsign
    generalize x.toNat / signWeight f = i at *
    generalize y.toNat / signWeight f = j at *
    omega
  rw [BitVec.toNat_eq, ← Nat.div_add_mod x.toNat (signWeight f), hdiv, hmag, Nat.div_add_mod]

/-- Every number of a format is a whole multiple of the smallest one. -/
theorem exists_int_mul_of_value {f : FloatFormat} {bits : Nat} {q : ℚ} (h : exactValue (unpack f bits) = some q) :
    ∃ m : Int, q = m * 2 ^ minExp f := by
  obtain ⟨-, hq⟩ := magnitude_of_value h
  obtain ⟨c, r, hcr, hr, hc⟩ := exists_pack f (bits % signWeight f)
  rw [hcr, magnitudeValue_pack f hr.le hc, zpow_add₀ (by norm_num), zpow_natCast] at hq
  refine ⟨(if signBit f bits then -1 else 1) * (r * 2 ^ c), hq.trans ?_⟩
  push_cast
  ring

/-- So two numbers that differ do so by at least as much. -/
theorem two_zpow_le_abs_sub {f : FloatFormat} {bits bits' : Nat} {p q : ℚ} (hp : exactValue (unpack f bits) = some p)
    (hq : exactValue (unpack f bits') = some q) (hne : p ≠ q) : (2 : ℚ) ^ minExp f ≤ |p - q| := by
  obtain ⟨m, rfl⟩ := exists_int_mul_of_value hp
  obtain ⟨m', rfl⟩ := exists_int_mul_of_value hq
  have hunit : (0 : ℚ) < 2 ^ minExp f := by positivity
  have hm : m - m' ≠ 0 := fun h => hne (by rw [sub_eq_zero.mp h])
  have hone : (1 : ℚ) ≤ |((m - m' : Int) : ℚ)| := by exact_mod_cast Int.one_le_abs hm
  rw [← sub_mul, abs_mul, abs_of_pos hunit, ← Int.cast_sub]
  exact le_mul_of_one_le_left hunit.le hone

/-- The shifted input of an `FT` that is a number is that number less 76800, rounded (R147). -/
theorem humShift_isNumber {ft : F32} {p : ℚ} (h : value32 ft = some p) :
    isNumber (exactAdd (unpack64 (f32to64 ft)) (exactNeg (unpack64 (i2f64 76800)))) (p - 76800) := by
  have hconst : value64 (i2f64 76800) = some ((76800 : Int) : ℚ) :=
    interchange64.exactInt_exact (by decide) (by decide)
  exact_mod_cast interchange64.isNumber_sub (value64_f32to64 h) hconst

/-- An infinity or a NaN in `FT` goes through the shift and is no zero (R134). -/
theorem value64_humShift_none {ft : F32} (h : value32 ft = none) : value64 (humShift ft) = none := by
  obtain ⟨n, e, hconst⟩ : ∃ n e, unpack64 (i2f64 76800) = .num (i2f64 76800).msb n 1 e :=
    unpack64_num (interchange64.exactInt_exact (n := 76800) (by decide) (by decide))
  rw [humShift, fsub64, f32to64, hconst]
  cases hu : unpack32 ft with
  | nan => rw [unpack64_round_nan, value64, exactAdd, unpack64_round_nan, exactValue]
  | inf s => rw [unpack64_round_inf, value64, exactNeg, exactAdd, unpack64_round_inf, exactValue]
  | num => rw [value32, hu] at h; cases h

theorem value32_76800 : value32 0x47960000#32 = some 76800 := by
  have hu : unpack32 0x47960000#32 = .num false 9830400 1 (-7) := by decide
  rw [value32, hu, exactValue]
  norm_num

/-- The shift of another number than 76800 is at least the smallest binary32 number, which binary64 holds: it does not
round to 0. -/
theorem value64_humShift_ne_zero {ft : F32} {p : ℚ} (h : value32 ft = some p) (hp : p ≠ 76800) :
    value64 (humShift ft) ≠ some 0 := by
  have hbound : |p - 76800| ≤ 2 ^ 129 := (abs_sub p 76800).trans
    (two_pow_add_le (j := 128) (k := 17) (by decide) (by decide) (abs_lt_of_value32 h).le (by norm_num))
  obtain ⟨s, k, -, hk, hvalue⟩ := interchange64.round_value (humShift_isNumber h)
    (interchange64.abs_lt_overflowBound hbound (by decide))
  obtain ⟨j, hj⟩ := exists_magnitude binary64 925 1 (by decide)
  have hsmallest : magnitudeValue binary64 j = 2 ^ minExp binary32 := by
    rw [hj, Nat.cast_one, one_mul]
    rfl
  have hpos : (0 : ℚ) < 2 ^ minExp binary32 := by positivity
  have hle := le_nearestMagnitude hk (hsmallest.trans_le (two_zpow_le_abs_sub h value32_76800 hp))
  intro hz
  have hzero : magnitudeValue binary64 k = 0 := by
    have hsigned := Option.some.inj (hvalue.symm.trans hz)
    cases s <;> simpa using hsigned
  linarith

theorem value64_humShift_eq_zero (ft : F32) : value64 (humShift ft) = some 0 ↔ ft = 0x47960000#32 := by
  cases h : value32 ft with
  | none =>
    rw [value64_humShift_none h]
    refine ⟨fun hz => (nomatch hz), fun hft => ?_⟩
    rw [hft, value32_76800] at h
    cases h
  | some p =>
    by_cases hp : p = 76800
    · subst hp
      have hdiff := humShift_isNumber h
      rw [sub_self] at hdiff
      exact iff_of_true (interchange64.round_isZero hdiff)
        (interchange32.numberOf_injective h value32_76800 (by norm_num))
    · refine iff_of_false (value64_humShift_ne_zero h hp) fun hft => hp ?_
      rw [hft, value32_76800] at h
      exact (Option.some.inj h).symm

/-- Settles O32: the guard is the test whether the shifted input is 0, and that is so for one `FT` only. -/
theorem humidityGuardExactly : Obligations.HumidityGuardExactly := by
  intro s he hv hr hf
  refine ⟨_, exec_comph he hv hr hf rfl, ?_⟩
  rw [complete_status_sent, ← value64_humShift_eq_zero]
  constructor
  · intro h
    by_contra hz
    rw [compensateHumidity_formula _ _ _ hz] at h
    cases h
  · intro hz
    rw [compensateHumidity_guard _ _ _ hz]
    rfl

end Sys2Proof.Machine
end

section
/-! PROOFS. The range of `HUM` (R149): every intermediate of `COMPT` and `COMPH` stays below a power of two far from
overflow, so the clamp meets a number, and narrowing keeps it within [0, 100] (R135). -/

namespace Sys2Proof.Machine

theorem natAbs_toInt_le {n : Nat} (x : BitVec n) : x.toInt.natAbs ≤ 2 ^ n := by
  have := x.isLt
  rw [BitVec.toInt_eq_toNat_cond]
  split <;> omega

theorem natAbs_toNat_le {n : Nat} (x : BitVec n) : (x.toNat : Int).natAbs ≤ 2 ^ n := by
  have := x.isLt
  omega

theorem natAbs_h45Value_le (isSigned : Bool) (h : BitVec 12) : (h45Value isSigned h).natAbs ≤ 2 ^ 12 := by
  cases isSigned
  · exact natAbs_toNat_le h
  · exact natAbs_toInt_le h

/-- A generous bound on what `COMPT` can leave in `FT` (R140); R149 needs no better one. -/
theorem within_fineTemperature (raw : BitVec 20) (c : CalT) : within binary32 (fineTemperature raw c) 59 := by
  have I := interchange32
  have hraw : within binary32 (i2f32 raw.toNat) 20 := I.within_exactInt (natAbs_toNat_le raw) (by decide)
  have ht1 : within binary32 (i2f32 c.t1.toNat) 16 := I.within_exactInt (natAbs_toNat_le c.t1) (by decide)
  have ht2 : within binary32 (i2f32 c.t2.toInt) 16 := I.within_exactInt (natAbs_toInt_le c.t2) (by decide)
  have ht3 : within binary32 (i2f32 c.t3.toInt) 16 := I.within_exactInt (natAbs_toInt_le c.t3) (by decide)
  have quotient {x : F32} {k : Nat} (hx : within binary32 x k) (hk : k ≤ 127) {n : Int} (h1 : 1 ≤ n)
      (hn : n.natAbs ≤ 2 ^ 24) : within binary32 (fdiv32 x (i2f32 n)) k := I.within_div hx h1 hn (by decide) hk
  have ha := I.within_sub (m := 21) (quotient hraw (by decide) (n := 16384) (by decide) (by decide))
    (quotient ht1 (by decide) (n := 1024) (by decide) (by decide)) (by decide) (by decide) (by decide)
  have hb := I.within_sub (m := 21) (quotient hraw (by decide) (n := 131072) (by decide) (by decide))
    (quotient ht1 (by decide) (n := 8192) (by decide) (by decide)) (by decide) (by decide) (by decide)
  have hvar1 := I.within_mul (m := 37) ha ht2 (by decide) (by decide)
  have hsquare := I.within_mul (m := 42) hb hb (by decide) (by decide)
  have hvar2 := I.within_mul (m := 58) hsquare ht3 (by decide) (by decide)
  exact I.within_add hvar1 hvar2 (by decide) (by decide) (by decide)

theorem within_humShift {ft : F32} (h : within binary32 ft 59) : within binary64 (humShift ft) 60 := by
  have I := interchange64
  obtain ⟨p, hp, hle⟩ := h
  have hconst : within binary64 (i2f64 76800) 17 := I.within_exactInt (by decide) (by decide)
  exact I.within_sub ⟨p, value64_f32to64 hp, hle⟩ hconst (by decide) (by decide) (by decide)

theorem within_humPolynomial (isSigned : Bool) (raw : BitVec 16) {v : F64} (c : CalH) (hv : within binary64 v 60) :
    within binary64 (humPolynomial isSigned raw v c) 465 := by
  have I := interchange64
  have hraw : within binary64 (i2f64 raw.toNat) 16 := I.within_exactInt (natAbs_toNat_le raw) (by decide)
  have h1 : within binary64 (i2f64 c.h1.toNat) 8 := I.within_exactInt (natAbs_toNat_le c.h1) (by decide)
  have h2 : within binary64 (i2f64 c.h2.toInt) 16 := I.within_exactInt (natAbs_toInt_le c.h2) (by decide)
  have h3 : within binary64 (i2f64 c.h3.toNat) 8 := I.within_exactInt (natAbs_toNat_le c.h3) (by decide)
  have h4 : within binary64 (i2f64 (h45Value isSigned c.h4)) 12 :=
    I.within_exactInt (natAbs_h45Value_le isSigned c.h4) (by decide)
  have h5 : within binary64 (i2f64 (h45Value isSigned c.h5)) 12 :=
    I.within_exactInt (natAbs_h45Value_le isSigned c.h5) (by decide)
  have h6 : within binary64 (i2f64 c.h6.toInt) 8 := I.within_exactInt (natAbs_toInt_le c.h6) (by decide)
  have one : within binary64 (i2f64 1) 0 := I.within_exactInt (by decide) (by decide)
  have sixtyFour : within binary64 (i2f64 64) 6 := I.within_exactInt (by decide) (by decide)
  have quotient {x : F64} {k : Nat} (hx : within binary64 x k) (hk : k ≤ 1023) {n : Int} (hn1 : 1 ≤ n)
      (hn : n.natAbs ≤ 2 ^ 53) : within binary64 (fdiv64 x (i2f64 n)) k := I.within_div hx hn1 hn (by decide) hk
  have hslope := I.within_mul (m := 72) (quotient h5 (by decide) (n := 16384) (by decide) (by decide)) hv
    (by decide) (by decide)
  have hoffset := I.within_add (m := 73) (I.within_mul (m := 18) h4 sixtyFour (by decide) (by decide)) hslope
    (by decide) (by decide) (by decide)
  have hx := I.within_sub (m := 74) hraw hoffset (by decide) (by decide) (by decide)
  have hinner := I.within_add (m := 69) one
    (I.within_mul (m := 68) (quotient h3 (by decide) (n := 67108864) (by decide) (by decide)) hv (by decide) (by decide))
    (by decide) (by decide) (by decide)
  have houter := I.within_mul (m := 137)
    (I.within_mul (m := 68) (quotient h6 (by decide) (n := 67108864) (by decide) (by decide)) hv (by decide) (by decide))
    hinner (by decide) (by decide)
  have hy := I.within_mul (m := 154) (quotient h2 (by decide) (n := 65536) (by decide) (by decide))
    (I.within_add (m := 138) one houter (by decide) (by decide) (by decide)) (by decide) (by decide)
  have hw := I.within_mul (m := 228) hx hy (by decide) (by decide)
  have hsquare := quotient (I.within_mul (m := 236) h1 hw (by decide) (by decide)) (by decide) (n := 524288) (by decide)
    (by decide)
  exact I.within_mul hw (I.within_sub (m := 237) one hsquare (by decide) (by decide) (by decide)) (by decide) (by decide)

/-- A binary64 number from 0 to 100 is still one when it is narrowed (R135). -/
theorem f64to32_between {z : F64} {q : ℚ} (hz : value64 z = some q) (h0 : 0 ≤ q) (h100 : q ≤ 100) :
    ∃ v, value32 (f64to32 z) = some v ∧ 0 ≤ v ∧ v ≤ 100 := by
  have hlt : |(100 : ℚ)| < overflowBound binary32 :=
    interchange32.abs_lt_overflowBound (k := 7) (by norm_num) (by decide)
  rw [abs_of_pos (by norm_num)] at hlt
  exact interchange32.round_between (interchange64.isNumber_unpack hz) (r := 100) (by decide) hlt h0 h100

/-- The clamp of a number is a number from 0 to 100 (R147). -/
theorem humClamp_between {z : F64} {q : ℚ} (hz : value64 z = some q) :
    ∃ v, value32 (humClamp z) = some v ∧ 0 ≤ v ∧ v ≤ 100 := by
  have hundred : value64 (i2f64 100) = some ((100 : Int) : ℚ) := interchange64.exactInt_exact (by decide) (by decide)
  have hzero : value64 (i2f64 0) = some ((0 : Int) : ℚ) := interchange64.exactInt_exact (by decide) (by decide)
  have hhigh := flt64_iff_lt hundred hz
  have hlow := flt64_iff_lt hz hzero
  push_cast at hundred hzero hhigh hlow
  unfold humClamp
  split
  · exact f64to32_between hundred (by norm_num) le_rfl
  · split
    · exact f64to32_between hzero le_rfl (by norm_num)
    · rename_i h100 h0
      exact f64to32_between hz (not_lt.mp (mt hlow.mpr h0)) (not_lt.mp (mt hhigh.mpr h100))

/-- Settles O33: 0 on the guard path, and the clamp of a number otherwise. -/
theorem humidityWithinRange : Obligations.HumidityWithinRange := by
  intro s raw c he hv hr hf hft
  by_cases hz : value64 (humShift s.ft) = some 0
  · exact ⟨_, 0, exec_comph he hv hr hf (compensateHumidity_guard s.bench.h45Signed s.rawH s.calH hz),
      (isZero32_iff_value 0).mp (by decide), le_rfl, by norm_num⟩
  · have hshift := within_humShift (hft ▸ within_fineTemperature raw c)
    obtain ⟨z, hz', -⟩ := within_humPolynomial s.bench.h45Signed s.rawH s.calH hshift
    obtain ⟨v, hvalue, h0, h100⟩ := humClamp_between hz'
    exact ⟨_, v, exec_comph he hv hr hf (compensateHumidity_formula s.bench.h45Signed s.rawH s.calH hz), hvalue, h0,
      h100⟩

end Sys2Proof.Machine
end

section
/-! PROOFS. `LUX` (R161): what its five cells and its timing byte decode to (R162, R163), and its rule check by check. -/

namespace Sys2Proof.Machine

/-! ### The cells and the timing byte -/

theorem luxInputs_unwritten {m : Memory}
    (h : m.read 0x1 = none ∨ m.read 0xC = none ∨ m.read 0xD = none ∨ m.read 0xE = none ∨ m.read 0xF = none) :
    luxInputs m = none := by
  have low (a : Nat) (ha : m.read a = none) : wordLE m a = none := (wordLE_none m a).mpr (.inl ha)
  have high (a : Nat) (ha : m.read (a + 1) = none) : wordLE m a = none := (wordLE_none m a).mpr (.inr ha)
  rcases h with h | h | h | h | h
  · simp [luxInputs, h]
  · simp [luxInputs, low 0xC h]
  · simp [luxInputs, high 0xC h]
  · simp [luxInputs, low 0xE h]
  · simp [luxInputs, high 0xE h]

/-- Two written cells make a word, the low byte at the lower address (R162). -/
theorem wordLE_of_read {m : Memory} {a : Nat} {lo hi : Byte} (hlo : m.read a = some lo)
    (hhi : m.read (a + 1) = some hi) : ∃ w, wordLE m a = some w ∧ w.toNat = lo.toNat + 256 * hi.toNat := by
  have hword := leBits_toNat (fun k => if k = 0 then lo else hi) 0
  exact ⟨hi ++ lo, (wordLE_spec m a _).mpr ⟨lo, hi, hlo, hhi, hword⟩, hword⟩

theorem luxInputs_of_read {m : Memory} {tb l0 m0 l1 m1 : Byte} (ht : m.read 0x1 = some tb) (hl0 : m.read 0xC = some l0)
    (hm0 : m.read 0xD = some m0) (hl1 : m.read 0xE = some l1) (hm1 : m.read 0xF = some m1) :
    ∃ ch0 ch1, luxInputs m = some (tb, ch0, ch1) ∧ ch0.toNat = l0.toNat + 256 * m0.toNat ∧
      ch1.toNat = l1.toNat + 256 * m1.toNat := by
  obtain ⟨ch0, hch0, hn0⟩ := wordLE_of_read hl0 hm0
  obtain ⟨ch1, hch1, hn1⟩ := wordLE_of_read hl1 hm1
  exact ⟨ch0, ch1, by simp [luxInputs, ht, hch0, hch1], hn0, hn1⟩

/-- The field `INTEG` of the timing byte. -/
theorem integ_eq_iff (tb : Byte) (k : BitVec 2) : tb.extractLsb' 0 2 = k ↔ tb.toNat % 4 = k.toNat := by
  rw [← BitVec.toNat_inj, BitVec.extractLsb'_toNat, Nat.shiftRight_zero]

/-- The field `GAIN` of the timing byte. -/
theorem gain_iff (tb : Byte) : tb.getLsbD 4 = true ↔ tb.toNat / 16 % 2 = 1 := by
  rw [BitVec.getLsbD, Nat.testBit_eq_decide_div_mod_eq, decide_eq_true_eq]

/-- The gain of R163, as the integer it is. -/
def luxGain (tb : Byte) : F32 := if tb.toNat / 16 % 2 = 1 then i2f32 16 else i2f32 1

/-- The integration time of R163 where `INTEG` is not 3: 13.7, 101 or 402 ms. -/
def luxIntegTime (tb : Byte) : F32 :=
  if tb.toNat % 4 = 0 then 0x415B3333#32 else if tb.toNat % 4 = 1 then i2f32 101 else i2f32 402

theorem gain_eq (tb : Byte) : (if tb.getLsbD 4 then 0x41800000#32 else 0x3F800000#32) = luxGain tb := by
  rw [luxGain, show i2f32 16 = 0x41800000#32 by decide, show i2f32 1 = 0x3F800000#32 by decide]
  simp only [gain_iff]

theorem timingDecode_manual {tb : Byte} (h : tb.toNat % 4 = 3) : timingDecode tb = none := by
  simp [timingDecode, integ_eq_iff, h]

theorem timingDecode_timed {tb : Byte} (h : tb.toNat % 4 ≠ 3) :
    timingDecode tb = some { gain := luxGain tb, integTime := luxIntegTime tb } := by
  have h101 : i2f32 101 = 0x42CA0000#32 := by decide
  have h402 : i2f32 402 = 0x43C90000#32 := by decide
  have hinteg : tb.toNat % 4 = 0 ∨ tb.toNat % 4 = 1 ∨ tb.toNat % 4 = 2 := by omega
  simp only [timingDecode, gain_eq, integ_eq_iff, luxIntegTime, h101, h402]
  rcases hinteg with h | h | h <;> simp [h]

/-! ### The rule -/

theorem exec_lux_unwritten {s : State} (h : luxInputs s.luxi = none) :
    exec .lux s = .next (raiseErr .unwritten s) := retire_error (c := computeLux) (by simp [computeLux, h])

section
variable {s : State} {tb : Byte} {ch0 ch1 : BitVec 16} (h : luxInputs s.luxi = some (tb, ch0, ch1))
include h

theorem exec_lux_stale (hf : s.status.timf = false) : exec .lux s = .next (raiseErr .staleTiming s) :=
  retire_error (c := computeLux) (by simp [computeLux, h, hf])

theorem exec_lux_saturated (hf : s.status.timf = true) (hs : ch0 = Config.ch0Sat) :
    exec .lux s =
      .next (complete true { s with luxR := Config.satLux, status := { s.status with timf := false } }) := by
  have hrule : computeLux s = .ok (luxDone Config.satLux true s) := by simp [computeLux, h, hf, hs]
  exact retire_ok hrule

theorem exec_lux_badTiming (hf : s.status.timf = true) (hs : ch0 ≠ Config.ch0Sat) (ht : timingDecode tb = none) :
    exec .lux s = .next (raiseErr .badTiming s) :=
  retire_error (c := computeLux) (by simp [computeLux, h, hf, hs, ht])

theorem exec_lux_dark (hf : s.status.timf = true) {t : Timing} (ht : timingDecode tb = some t) (hd : ch0 = 0#16) :
    exec .lux s = .next (complete true { s with luxR := 0, status := { s.status with timf := false } }) := by
  have hs : 0#16 ≠ Config.ch0Sat := by decide
  have hrule : computeLux s = .ok (luxDone 0 true s) := by simp [computeLux, h, hf, ht, hd, hs]
  exact retire_ok hrule

theorem exec_lux (hf : s.status.timf = true) (hs : ch0 ≠ Config.ch0Sat) {t : Timing} (ht : timingDecode tb = some t)
    (hd : ch0 ≠ 0#16) :
    exec .lux s =
      .next (complete false
        { s with luxR := illuminance ch0 ch1 t, status := { s.status with timf := false } }) := by
  have hrule : computeLux s = .ok (luxDone (illuminance ch0 ch1 t) false s) := by simp [computeLux, h, hf, hs, ht, hd]
  exact retire_ok hrule

end

theorem refMs_eq : refMs = i2f32 402 := by decide

/-- Settles O35: the checks of R161 in order, and past them `illuminance`, which is the statement's formula on the two
counts and the decoded timing. -/
theorem luxResult : Obligations.LuxResult := by
  refine ⟨rfl, fun s h => exec_lux_unwritten (luxInputs_unwritten h), fun s tb l0 m0 l1 m1 ht hl0 hm0 hl1 hm1 => ?_⟩
  obtain ⟨ch0, ch1, hin, hn0, hn1⟩ := luxInputs_of_read ht hl0 hm0 hl1 hm1
  have hsat : ch0 = Config.ch0Sat ↔ ch0.toNat = 0xFFFF := BitVec.toNat_inj.symm
  have hdark : ch0 = 0#16 ↔ ch0.toNat = 0 := BitVec.toNat_inj.symm
  dsimp only
  rw [← hn0, ← hn1]
  refine ⟨exec_lux_stale hin, fun hf hs => exec_lux_saturated hin hf (hsat.mpr hs),
    fun hf hs hi => exec_lux_badTiming hin hf (mt hsat.mp hs) (timingDecode_manual hi),
    fun hf hd hi => exec_lux_dark hin hf (timingDecode_timed hi) (hdark.mpr hd), fun hf hs hd hi => ?_⟩
  have hform := exec_lux hin hf (mt hsat.mp hs) (timingDecode_timed hi) (mt hdark.mp hd)
  rw [illuminance, refMs_eq] at hform
  exact hform

end Sys2Proof.Machine
end

section
/-! PROOFS. One rounding of a real number. The rationals that go to one number of the format have no gaps between them, so
a real number between two of them goes there too. -/

namespace Sys2Proof.Machine

section
variable {K : Type} [Field K] [LinearOrder K] [IsStrictOrderedRing K] {v w x : K}

/-- The greater of two numbers is the nearer one from their middle on. -/
theorem abs_sub_le_iff_of_gt (h : w < v) : |v - x| ≤ |w - x| ↔ v + w ≤ 2 * x := by
  rw [← sq_le_sq]
  constructor <;> intro <;> nlinarith

/-- The smaller of two numbers is the nearer one up to their middle. -/
theorem abs_sub_le_iff_of_lt (h : v < w) : |v - x| ≤ |w - x| ↔ 2 * x ≤ v + w := by
  rw [← sq_le_sq]
  constructor <;> intro <;> nlinarith

end

/-- A number no farther than `w` from `a` and from `b` is no farther than `w` from anything between. -/
theorem nearest_between {v w a b : ℚ} {x : ℝ} {P : Prop} (hax : a ≤ x) (hxb : x ≤ b)
    (ha : |v - a| ≤ |w - a| ∧ (|v - a| = |w - a| → w = v ∨ P))
    (hb : |v - b| ≤ |w - b| ∧ (|v - b| = |w - b| → w = v ∨ P)) :
    |(v : ℝ) - x| ≤ |(w : ℝ) - x| ∧ (|(v : ℝ) - x| = |(w : ℝ) - x| → w = v ∨ P) := by
  obtain ⟨ha, hatie⟩ := ha
  obtain ⟨hb, hbtie⟩ := hb
  rcases lt_trichotomy w v with hwv | rfl | hvw
  · have hwv' : (w : ℝ) < v := by exact_mod_cast hwv
    rw [abs_sub_le_iff_of_gt hwv] at ha
    have hmid : (v : ℝ) + w ≤ 2 * a := by exact_mod_cast ha
    refine ⟨(abs_sub_le_iff_of_gt hwv').mpr (by linarith), fun htie => hatie (le_antisymm ?_ ?_)⟩
    · exact (abs_sub_le_iff_of_gt hwv).mpr ha
    · have hx := (abs_sub_le_iff_of_lt hwv').mp htie.ge
      exact (abs_sub_le_iff_of_lt hwv).mpr (by exact_mod_cast (by linarith : 2 * (a : ℝ) ≤ w + v))
  · exact ⟨le_rfl, fun _ => .inl rfl⟩
  · have hvw' : (v : ℝ) < w := by exact_mod_cast hvw
    rw [abs_sub_le_iff_of_lt hvw] at hb
    have hmid : 2 * (b : ℝ) ≤ v + w := by exact_mod_cast hb
    refine ⟨(abs_sub_le_iff_of_lt hvw').mpr (by linarith), fun htie => hbtie (le_antisymm ?_ ?_)⟩
    · exact (abs_sub_le_iff_of_lt hvw).mpr hb
    · have hx := (abs_sub_le_iff_of_gt hvw').mp htie.ge
      exact (abs_sub_le_iff_of_gt hvw).mpr (by exact_mod_cast (by linarith : (w : ℝ) + v ≤ 2 * b))

/-- A number of the format is nearest to itself. -/
theorem nearestMagnitude_self (f : FloatFormat) (k : Nat) : nearestMagnitude f (magnitudeValue f k) k := by
  intro j
  rw [sub_self, abs_zero]
  refine ⟨abs_nonneg _, fun h => .inl ?_⟩
  exact (magnitudeValue_strictMono f).injective (sub_eq_zero.mp (abs_eq_zero.mp h.symm))

/-- Rounding is monotone: two neighbours equally near to one number cannot both be even. -/
theorem nearestMagnitude_mono {f : FloatFormat} {a b : ℚ} {k j : Nat} (hk : nearestMagnitude f a k)
    (hj : nearestMagnitude f b j) (hab : a ≤ b) : k ≤ j := by
  by_contra hlt
  rw [not_le] at hlt
  have hmono := magnitudeValue_strictMono f
  have hvalue := hmono hlt
  have hmida := (abs_sub_le_iff_of_gt hvalue).mp (hk j).1
  have hmidb := (abs_sub_le_iff_of_lt hvalue).mp (hj k).1
  obtain rfl : a = b := by linarith
  have htie := le_antisymm (hk j).1 (hj k).1
  have heven := (hk j).2 htie
  have heven' := (hj k).2 htie.symm
  have hnext := (abs_sub_le_iff_of_gt (hmono (show j + 1 < k by omega))).mp (hk (j + 1)).1
  linarith [magnitudeValue_lt_succ f j]

/-- The magnitude bits `k` are those of the number nearest to a rational on either side of `x`. -/
def nearestReal (f : FloatFormat) (x : ℝ) (k : Nat) : Prop :=
  ∃ a b : ℚ, 0 ≤ a ∧ a ≤ x ∧ x ≤ b ∧ nearestMagnitude f a k ∧ nearestMagnitude f b k

theorem nearestReal_of_nearestMagnitude {f : FloatFormat} {a : ℚ} {k : Nat} (h0 : 0 ≤ a) (h : nearestMagnitude f a k) :
    nearestReal f a k := ⟨a, a, h0, le_rfl, le_rfl, h, h⟩

theorem nearestReal_mono {f : FloatFormat} {x y : ℝ} {k j : Nat} (hk : nearestReal f x k) (hj : nearestReal f y j)
    (hxy : x ≤ y) : k ≤ j := by
  obtain ⟨a, -, -, hax, -, hka, -⟩ := hk
  obtain ⟨-, b, -, -, hyb, -, hjb⟩ := hj
  exact nearestMagnitude_mono hka hjb (by exact_mod_cast hax.trans (hxy.trans hyb))

/-- The number nearest to `x` is no farther from it than any number of the format, of either sign. -/
theorem nearestReal_nearest {f : FloatFormat} {x : ℝ} {k j : Nat} {u : ℚ} (h : nearestReal f x k)
    (hu : |u| = magnitudeValue f j) :
    |(magnitudeValue f k : ℝ) - x| ≤ |(u : ℝ) - x| ∧
      (|(magnitudeValue f k : ℝ) - x| = |(u : ℝ) - x| → u = magnitudeValue f k ∨ k % 2 = 0) := by
  obtain ⟨a, b, h0, hax, hxb, ha, hb⟩ := h
  have hab : a ≤ b := by exact_mod_cast hax.trans hxb
  exact nearest_between hax hxb (nearestMagnitude_signed h0 ha hu) (nearestMagnitude_signed (h0.trans hab) hb hu)

/-- A rational number of half units, by its whole part and by whether there is a rest. -/
theorem nearestMagnitude_halfUnits {f : FloatFormat} (hfrac : 0 < f.fracBits) {c t : Nat} {y : ℚ} (hlo : t ≤ y)
    (hhi : y < t + 1) (hlt : t < 4 * 2 ^ f.fracBits) (hge : c = 0 ∨ 2 * 2 ^ f.fracBits ≤ t) :
    nearestMagnitude f (y / 2 * 2 ^ (minExp f + c)) (c * 2 ^ f.fracBits + roundHalfEven t (decide (y ≠ t))) := by
  obtain ⟨n, d, hd, rfl⟩ : ∃ n d : Nat, 0 < d ∧ y = n / d := by
    refine ⟨y.num.toNat, y.den, y.den_pos, ?_⟩
    have hnum : 0 ≤ y.num := Rat.num_nonneg.mpr (le_trans (by positivity) hlo)
    have hcast : ((y.num.toNat : Int) : ℚ) = y.num := by rw [Int.toNat_of_nonneg hnum]
    rw [← Int.cast_natCast, hcast, Rat.num_div_den]
  have hq : (0 : ℚ) < d := by exact_mod_cast hd
  rw [le_div_iff₀ hq] at hlo
  rw [div_lt_iff₀ hq] at hhi
  have hfloor : n / d = t := Nat.div_eq_of_lt_le (by exact_mod_cast hlo) (by exact_mod_cast hhi)
  have hrest : (n % d != 0) = decide ((n : ℚ) / d ≠ t) := by
    have hsplit := Nat.div_add_mod' n d
    rw [hfloor] at hsplit
    have hexact : (n : ℚ) / d = t ↔ n = t * d := by rw [div_eq_iff hq.ne']; exact_mod_cast Iff.rfl
    rw [Bool.eq_iff_iff, bne_iff_ne, decide_eq_true_eq, ne_eq, ne_eq, hexact]
    omega
  have hnear := nearestMagnitude_units hfrac (c := c) hd (by rw [hfloor]; exact hlt) (by rw [hfloor]; exact hge)
  rwa [hfloor, hrest] at hnear

/-- A real number of half units: those between two counts all go to the same number. -/
theorem nearestReal_halfUnits {f : FloatFormat} (hfrac : 0 < f.fracBits) {c t : Nat} {X : ℝ} {inexact : Bool}
    (hlo : t ≤ X) (hhi : X < t + 1) (hinexact : inexact = true ↔ X ≠ t) (hlt : t < 4 * 2 ^ f.fracBits)
    (hge : c = 0 ∨ 2 * 2 ^ f.fracBits ≤ t) :
    nearestReal f (X / 2 * 2 ^ (minExp f + c)) (c * 2 ^ f.fracBits + roundHalfEven t inexact) := by
  have hround {y : ℚ} (h1 : t ≤ y) (h2 : y < t + 1) (h3 : inexact = decide (y ≠ t)) :
      nearestMagnitude f (y / 2 * 2 ^ (minExp f + c)) (c * 2 ^ f.fracBits + roundHalfEven t inexact) :=
    h3 ▸ nearestMagnitude_halfUnits hfrac h1 h2 hlt hge
  have ht : (0 : ℚ) ≤ t := by positivity
  cases inexact with
  | false =>
    obtain rfl : X = t := by simpa using hinexact
    have hnear := nearestReal_of_nearestMagnitude (by positivity) (hround (y := t) le_rfl (by linarith) (by simp))
    push_cast at hnear
    exact hnear
  | true =>
    have hne := hinexact.mp rfl
    obtain ⟨y, hty, hyX⟩ := exists_rat_btwn (lt_of_le_of_ne hlo hne.symm)
    obtain ⟨z, hXz, hzt⟩ := exists_rat_btwn hhi
    have hty' : (t : ℚ) < y := by exact_mod_cast hty
    have hyz : y < z := by exact_mod_cast hyX.trans hXz
    have hzt' : z < t + 1 := by exact_mod_cast hzt
    have hy0 : 0 ≤ y := ht.trans hty'.le
    refine ⟨_, _, ?_, ?_, ?_, hround hty'.le (hyz.trans hzt') (by simp [hty'.ne']),
      hround (hty'.trans hyz).le hzt' (by simp [(hty'.trans hyz).ne'])⟩
    · positivity
    · push_cast
      gcongr
    · push_cast
      gcongr

end Sys2Proof.Machine
end

section
/-! PROOFS. `PowRatio` (R166): the integer fifth root of `r ^ 7` counts the half units of `r ^ 1.4`, which is all that one
rounding needs to know. -/

namespace Sys2Proof.Machine

theorem rpow_seven_fifths {q : ℝ} (hq : 0 ≤ q) : (q ^ (1.4 : ℝ)) ^ 5 = q ^ 7 := by
  rw [← Real.rpow_natCast, ← Real.rpow_mul hq, ← Real.rpow_natCast q 7]
  norm_num

/-- The fifth root found bit by bit is the whole part of the real one, and exact exactly if its power is. -/
theorem fifthRootBits_floor {n d bits : Nat} {X : ℝ} (hd : 0 < d) (hX0 : 0 ≤ X) (hX : X ^ 5 = n / d)
    (hlt : X < 2 ^ bits) :
    fifthRootBits (n / d) bits 0 ≤ X ∧ X < fifthRootBits (n / d) bits 0 + 1 ∧
      ((fifthRootBits (n / d) bits 0 ^ 5 * d != n) = true ↔ X ≠ fifthRootBits (n / d) bits 0) := by
  have hd' : (0 : ℝ) < d := by exact_mod_cast hd
  have hfloor : (n / d : Nat) < (0 + 2 ^ bits) ^ 5 := by
    rw [Nat.div_lt_iff_lt_mul hd, Nat.zero_add, ← Nat.cast_lt (α := ℝ), Nat.cast_mul, ← div_lt_iff₀ hd', ← hX]
    push_cast
    gcongr
  obtain ⟨hlow, -, -, hhigh⟩ := fifthRootBits_spec (n / d) bits 0 (by simp)
  have hhigh := hhigh hfloor
  generalize fifthRootBits (n / d) bits 0 = t at *
  rw [Nat.le_div_iff_mul_le hd, ← Nat.cast_le (α := ℝ), Nat.cast_mul, ← le_div_iff₀ hd', ← hX, Nat.cast_pow] at hlow
  rw [Nat.div_lt_iff_lt_mul hd, ← Nat.cast_lt (α := ℝ), Nat.cast_mul, ← div_lt_iff₀ hd', ← hX, Nat.cast_pow] at hhigh
  have hexact : t ^ 5 * d = n ↔ X = t := by
    rw [← pow_left_inj₀ hX0 (Nat.cast_nonneg t) (by decide : 5 ≠ 0), hX, div_eq_iff hd'.ne', eq_comm]
    exact_mod_cast Iff.rfl
  refine ⟨le_of_pow_le_pow_left₀ (by decide) hX0 hlow, ?_, by rw [bne_iff_ne, ne_eq, hexact]⟩
  exact_mod_cast lt_of_pow_lt_pow_left₀ 5 (by positivity) hhigh

/-- The integer logarithm of a fifth root, from that of its fifth power. -/
theorem two_zpow_bounds_of_pow_five {x : ℝ} (hx : 0 ≤ x) {l : Int} (hlo : (2 : ℝ) ^ l ≤ x ^ 5)
    (hhi : x ^ 5 < (2 : ℝ) ^ (l + 1)) : (2 : ℝ) ^ (l / 5) ≤ x ∧ x < (2 : ℝ) ^ (l / 5 + 1) := by
  have hpow (k : Int) : ((2 : ℝ) ^ k) ^ 5 = 2 ^ (k * 5) := (zpow_mul 2 k 5).symm
  constructor
  · refine le_of_pow_le_pow_left₀ (by decide : 5 ≠ 0) hx ?_
    rw [hpow]
    exact (zpow_le_zpow_right₀ (by norm_num) (by omega)).trans hlo
  · refine lt_of_pow_lt_pow_left₀ 5 (by positivity) ?_
    rw [hpow]
    exact hhi.trans_le (zpow_le_zpow_right₀ (by norm_num) (by omega))

/-- The integer logarithm of the fifth root of `n * 2 ^ e`. -/
theorem log2_of_pow_five {x : ℝ} (hx : 0 ≤ x) {n : Nat} {e : Int} (hn : n ≠ 0) (hpow : x ^ 5 = n * 2 ^ e) :
    (2 : ℝ) ^ ((floorLog2 n 1 + e) / 5) ≤ x ∧ x < (2 : ℝ) ^ ((floorLog2 n 1 + e) / 5 + 1) := by
  obtain ⟨hlo, hhi⟩ := floorLog2_bounds hn one_ne_zero
  rw [Nat.cast_one, div_one, ← Rat.cast_le (K := ℝ)] at hlo
  rw [Nat.cast_one, div_one, ← Rat.cast_lt (K := ℝ)] at hhi
  push_cast at hlo hhi
  apply two_zpow_bounds_of_pow_five hx
  · rw [hpow, zpow_add₀ (by norm_num)]
    gcongr
  · rw [hpow, add_right_comm, zpow_add₀ (by norm_num)]
    gcongr

/-- A fifth root of `n * 2 ^ e`, counted in half units of weight `2 ^ (u - 1)`. -/
theorem halfUnits_pow_five {x : ℝ} {n : Nat} {e : Int} (u : Int) (hpow : x ^ 5 = n * 2 ^ e) :
    (x * 2 ^ (1 - u)) ^ 5 = ((scaleBy n 1 (e - 5 * (u - 1))).1 : ℝ) / (scaleBy n 1 (e - 5 * (u - 1))).2 := by
  have hratio := congrArg (Rat.cast (K := ℝ)) (scaleBy_ratio n 1 (e - 5 * (u - 1)))
  push_cast at hratio
  rw [hratio, div_one, mul_pow, hpow, ← zpow_natCast ((2 : ℝ) ^ (1 - u)), ← zpow_mul, mul_assoc,
    ← zpow_add₀ (by norm_num)]
  congr 2
  push_cast
  ring

/-- The place that rounding takes is `c` binades above the lowest; unless it is the lowest, it holds the leading bit. -/
theorem lastPlace_cases (f : FloatFormat) (l : Int) :
    ∃ c : Nat, lastPlace f l = minExp f + c ∧ l - f.fracBits ≤ lastPlace f l ∧
      (c = 0 ∨ lastPlace f l = l - f.fracBits) := by
  have hmin : minExp f ≤ lastPlace f l := le_max_right _ _
  have hlog : l - f.fracBits ≤ lastPlace f l := le_max_left _ _
  have hplace : lastPlace f l = l - f.fracBits ∨ lastPlace f l = minExp f := max_choice _ _
  obtain ⟨c, hc⟩ := Int.eq_ofNat_of_zero_le (Int.sub_nonneg.mpr hmin)
  exact ⟨c, by omega, hlog, by omega⟩

/-- A number below `2 ^ (l + 1)` and not below `2 ^ l`, counted in half units of its last place. -/
theorem halfUnits_bounds (f : FloatFormat) {x : ℝ} {l : Int} (hlo : (2 : ℝ) ^ l ≤ x) (hhi : x < 2 ^ (l + 1)) :
    x * 2 ^ (1 - lastPlace f l) < 4 * 2 ^ f.fracBits ∧
      (lastPlace f l = l - f.fracBits → 2 * 2 ^ f.fracBits ≤ x * 2 ^ (1 - lastPlace f l)) := by
  obtain ⟨-, -, hlog, -⟩ := lastPlace_cases f l
  generalize lastPlace f l = u at *
  have htwo (k : Nat) : (2 : ℝ) ^ k * 2 ^ f.fracBits = 2 ^ (k + f.fracBits : Int) := by
    rw [zpow_add₀ (by norm_num), zpow_natCast, zpow_natCast]
  constructor
  · calc x * 2 ^ (1 - u) < 2 ^ (l + 1) * 2 ^ (1 - u) := by gcongr
      _ = 2 ^ (l + 1 + (1 - u)) := (zpow_add₀ (by norm_num) _ _).symm
      _ ≤ 2 ^ ((2 : Nat) + f.fracBits : Int) := zpow_le_zpow_right₀ (by norm_num) (by omega)
      _ = 4 * 2 ^ f.fracBits := by rw [← htwo]; norm_num
  · rintro rfl
    calc (2 : ℝ) * 2 ^ f.fracBits = 2 ^ ((1 : Nat) + f.fracBits : Int) := by rw [← htwo]; norm_num
      _ = 2 ^ l * 2 ^ (1 - (l - f.fracBits)) := by rw [← zpow_add₀ (by norm_num)]; congr 1; omega
      _ ≤ _ := by gcongr

/-- The magnitude bits of `PowRatio` are those of the number nearest to the real power, or an infinity's where these lie
beyond. -/
theorem powMagnitude_nearest {f : FloatFormat} (hfrac : 0 < f.fracBits) (n : Nat) (e : Int) :
    ∃ k, nearestReal f (((n : ℝ) * 2 ^ e) ^ (1.4 : ℝ)) k ∧ powMagnitude f n e = min k (infBits f) := by
  unfold powMagnitude
  split
  next hn =>
    subst hn
    obtain ⟨k, hk, hbits⟩ := roundMagnitude_nearest hfrac 0 0 one_ne_zero
    refine ⟨k, ?_, hbits⟩
    have hzero : (((0 : Nat) : ℝ) * 2 ^ e) ^ (1.4 : ℝ) = 0 := by
      rw [Nat.cast_zero, zero_mul, Real.zero_rpow (by norm_num)]
    rw [hzero]
    simpa using nearestReal_of_nearestMagnitude (by simp) hk
  next hn =>
    dsimp only
    have hpow : (((n : ℝ) * 2 ^ e) ^ (1.4 : ℝ)) ^ 5 = (n ^ 7 : Nat) * 2 ^ (7 * e) := by
      rw [rpow_seven_fifths (by positivity), mul_pow, ← zpow_natCast ((2 : ℝ) ^ e), ← zpow_mul, mul_comm e]
      push_cast
      rfl
    have hx0 : 0 ≤ ((n : ℝ) * 2 ^ e) ^ (1.4 : ℝ) := by positivity
    generalize ((n : ℝ) * 2 ^ e) ^ (1.4 : ℝ) = x at *
    obtain ⟨hxlo, hxhi⟩ := log2_of_pow_five hx0 (pow_ne_zero 7 hn) hpow
    generalize (floorLog2 (n ^ 7) 1 + 7 * e) / 5 = l at *
    obtain ⟨hlt, hge⟩ := halfUnits_bounds f hxlo hxhi
    obtain ⟨c, hc, -, hplace⟩ := lastPlace_cases f l
    generalize lastPlace f l = u at *
    have hspos := scaleBy_pos (n ^ 7) (7 * e - 5 * (u - 1)) one_ne_zero
    have hX := halfUnits_pow_five u hpow
    generalize scaleBy (n ^ 7) 1 (7 * e - 5 * (u - 1)) = s at *
    have hX0 : 0 ≤ x * 2 ^ (1 - u) := by positivity
    have hfits : x * 2 ^ (1 - u) < 2 ^ (f.fracBits + 3) := by
      refine hlt.trans_le ?_
      rw [pow_add, mul_comm]
      gcongr
      norm_num
    obtain ⟨hXlo, hXhi, hXex⟩ := fifthRootBits_floor hspos hX0 hX hfits
    generalize fifthRootBits (s.1 / s.2) (f.fracBits + 3) 0 = t at *
    have hx : x = x * 2 ^ (1 - u) / 2 * 2 ^ (minExp f + c) := by
      rw [← hc, zpow_sub₀ (by norm_num)]
      field_simp
    refine ⟨c * 2 ^ f.fracBits + roundHalfEven t (t ^ 5 * s.2 != s.1), ?_, ?_⟩
    · rw [hx]
      refine nearestReal_halfUnits hfrac hXlo hXhi hXex ?_ (hplace.imp_right fun hp => ?_)
      · exact_mod_cast hXlo.trans_lt hlt
      · exact Nat.lt_succ_iff.mp (by exact_mod_cast (hge hp).trans_lt hXhi)
    · rw [packMagnitude, hc, add_sub_cancel_left, Int.toNat_natCast]

/-- Finite magnitude bits without a sign bit are an encoding of their number. -/
theorem Interchange.ofNat_magnitude {f : FloatFormat} {w : Nat} (I : Interchange f w) {k : Nat} (hk : k < infBits f) :
    (BitVec.ofNat w k).toNat = k ∧ numberOf f (BitVec.ofNat w k) = some (magnitudeValue f k) := by
  have hsign : k < signWeight f := hk.trans (infBits_lt_signWeight f)
  have htoNat : (BitVec.ofNat w k).toNat = k := by
    rw [BitVec.toNat_ofNat, I.width]
    exact Nat.mod_eq_of_lt (by omega)
  refine ⟨htoNat, ?_⟩
  rw [numberOf, htoNat, unpack_of_magnitude_lt (by rwa [Nat.mod_eq_of_lt hsign]), Nat.mod_eq_of_lt hsign, signBit,
    Nat.div_eq_of_lt hsign]
  simp

/-- `PowRatio` of a number that is not negative; the two zeros have one power. -/
theorem powRatio_eq {r : F32} {q : ℚ} (h : value32 r = some q) (hq : 0 ≤ q) :
    ∃ (n : Nat) (e : Int), (q : ℝ) = n * 2 ^ e ∧ powRatio r = BitVec.ofNat 32 (powMagnitude binary32 n e) := by
  obtain ⟨n, e, hr⟩ := unpack32_num h
  refine ⟨n, e, ?_, by rw [powRatio, hr]⟩
  rw [value32, hr, exactValue, Option.some.injEq, mul_assoc] at h
  have habs : q = n * 2 ^ e := by
    rw [← abs_of_nonneg hq, ← h, abs_mul, abs_signum, one_mul, abs_of_nonneg (by positivity), Nat.cast_one, div_one]
  rw [habs]
  push_cast
  rfl

/-- On the domain of R166 `PowRatio` is the number nearest to the real power, and it is at most 1. -/
theorem powRatio_nearestReal {r : F32} {q : ℚ} (h : value32 r = some q) (hq0 : 0 ≤ q) (hq : q ≤ 1 / 2) :
    ∃ k, nearestReal binary32 ((q : ℝ) ^ (1.4 : ℝ)) k ∧ (powRatio r).toNat = k ∧
      value32 (powRatio r) = some (magnitudeValue binary32 k) ∧ magnitudeValue binary32 k ≤ 1 := by
  obtain ⟨n, e, hqe, hpow⟩ := powRatio_eq h hq0
  obtain ⟨k, hk, hbits⟩ := powMagnitude_nearest (f := binary32) (by decide) n e
  rw [← hqe] at hk
  obtain ⟨j, hj⟩ := exists_magnitude_natCast (f := binary32) (by decide) (r := 1) (by decide) 0
  rw [Nat.cast_one, pow_zero, one_mul] at hj
  have hone : nearestMagnitude binary32 1 j := hj ▸ nearestMagnitude_self binary32 j
  have hx : (q : ℝ) ^ (1.4 : ℝ) ≤ (1 : ℚ) := by
    have hq0' : (0 : ℝ) ≤ q := by exact_mod_cast hq0
    have hq1 : (q : ℝ) ≤ 1 := by exact_mod_cast hq.trans (by norm_num)
    rw [Rat.cast_one]
    exact Real.rpow_le_one hq0' hq1 (by norm_num)
  have hkj : k ≤ j := nearestReal_mono hk (nearestReal_of_nearestMagnitude zero_le_one hone) hx
  have hjfin : j < infBits binary32 :=
    (nearestMagnitude_lt_infBits (by decide) (by decide) hone).mpr
      (by simpa using two_zpow_lt_overflowBound (f := binary32) (k := 0) (by decide) (by decide))
  rw [Nat.min_eq_left (hkj.trans hjfin.le)] at hbits
  obtain ⟨htoNat, hvalue⟩ := interchange32.ofNat_magnitude (hkj.trans_lt hjfin)
  rw [hpow, hbits]
  exact ⟨k, hk, htoNat, hvalue, hj ▸ (magnitudeValue_strictMono binary32).monotone hkj⟩

/-- Settles O36: the integer fifth root counts the half units of the real power, so `PowRatio` is one rounding of it. -/
theorem powRatioNearest : Obligations.PowRatioNearest := by
  refine ⟨fun r q h hq0 hq => ?_, by decide, fun r r' q q' v v' h h' hq0 hqq' hq' hv hv' => ?_⟩
  · obtain ⟨k, hk, htoNat, hvalue, hle⟩ := powRatio_nearestReal h hq0 hq
    refine ⟨_, hvalue, magnitudeValue_nonneg _ _, hle, fun y w hw => ?_⟩
    rw [htoNat]
    exact nearestReal_nearest hk (abs_of_value hw)
  · obtain ⟨k, hk, -, hvalue, -⟩ := powRatio_nearestReal h hq0 (hqq'.trans hq')
    obtain ⟨k', hk', -, hvalue', -⟩ := powRatio_nearestReal h' (hq0.trans hqq') hq'
    obtain rfl := Option.some.inj (hvalue.symm.trans hv)
    obtain rfl := Option.some.inj (hvalue'.symm.trans hv')
    have hq0' : (0 : ℝ) ≤ q := by exact_mod_cast hq0
    have hreal : (q : ℝ) ≤ q' := by exact_mod_cast hqq'
    have hpow : (q : ℝ) ^ (1.4 : ℝ) ≤ (q' : ℝ) ^ (1.4 : ℝ) := Real.rpow_le_rpow hq0' hreal (by norm_num)
    exact (magnitudeValue_strictMono binary32).monotone (nearestReal_mono hk hk' hpow)

end Sys2Proof.Machine
end

section
/-! PROOFS. The measurer commands (R183 to R190): the word of one, and the three ways that it can retire. -/

namespace Sys2Proof

/-- The measurer number of a command word stands at bits 23:20, apart from its other fields (R82). -/
theorem assemble_sel_eq_or (op : BitVec 8) (m : BitVec 4) :
    assemble op m 0#16 = assemble op 0#4 0#16 ||| m.setWidth 32 <<< 20 := by
  have hm : m.setWidth 32 <<< 20 = 0#8 ++ m ++ 0#4 ++ 0#16 := by
    revert m
    decide
  rw [hm, assemble, assemble, BitVec.or_append, BitVec.or_append, BitVec.or_append]
  simp only [BitVec.or_zero, BitVec.zero_or]

end Sys2Proof

namespace Sys2Proof.Machine

theorem setPm_self {s : State} {m : BitVec 4} {p : Measurer} (hp : s.pms[m.toNat]? = some p) : s.setPm m p = s := by
  obtain ⟨hm, rfl⟩ := List.getElem?_eq_some_iff.mp hp
  rw [State.setPm, List.set_getElem_self]

theorem retire_noMeasurer {m : BitVec 4} {s : State} (f : Measurer → Command) (h : s.pms.length ≤ m.toNat) :
    retire (onMeasurer m f) s = .next (raiseErr .pmSel s) :=
  retire_error (onMeasurer_none (List.getElem?_eq_none h))

section
variable {s : State} {m : BitVec 4} {p : Measurer} (hp : s.pms[m.toNat]? = some p)
include hp

theorem retire_measurer_error {f : Measurer → Command} {code : ErrCode} (h : f p s = .error code) :
    retire (onMeasurer m f) s = .next (raiseErr code s) :=
  retire_error ((onMeasurer_some hp).trans h)

theorem retire_measurer_done {f : Measurer → Command} {q : Measurer} {sent : Bool}
    (h : f p s = .ok (measurerDone m q sent s)) :
    retire (onMeasurer m f) s = .next (complete sent (s.setPm m q)) :=
  retire_ok ((onMeasurer_some hp).trans h)

theorem retire_reader_closed {g : Strategy → Bool} {f : Measurer → Measurer × Bool} (ho : p.opened = false) :
    retire (onReader m g f) s = .next (raiseErr .pmState s) :=
  retire_measurer_error hp (by simp [ho])

theorem retire_reader_strategy {g : Strategy → Bool} {f : Measurer → Measurer × Bool} (ho : p.opened = true)
    (hg : g p.strat = false) : retire (onReader m g f) s = .next (raiseErr .pmStrat s) :=
  retire_measurer_error hp (by simp [ho, hg])

theorem retire_reader_done {g : Strategy → Bool} {f : Measurer → Measurer × Bool} {q : Measurer} {sent : Bool}
    (ho : p.opened = true) (hg : g p.strat = true) (h : f p = (q, sent)) :
    retire (onReader m g f) s = .next (complete sent (s.setPm m q)) :=
  retire_measurer_done hp (by simp [ho, hg, h])

end

/-! ### Open, start, stop and close -/

theorem exec_pmopen {s : State} {m : BitVec 4} {code : BitVec 2} {p : Measurer} {k : Strategy}
    (hp : s.pms[m.toNat]? = some p) (hk : strategyOf code = some k) (ho : p.opened = false) (hr : p.run = false) :
    exec (.pmopen m code) s =
      .next (complete false (s.setPm m { Measurer.reset with opened := true, strat := k })) :=
  retire_measurer_done hp (by simp [hk, ho, hr])

theorem exec_pmstop {s : State} {m : BitVec 4} {p q : Measurer} (hp : s.pms[m.toNat]? = some p)
    (hq : requestStop p = q) : exec (.pmstop m) s = .next (complete false (s.setPm m q)) :=
  retire_measurer_done hp (by rw [hq])

theorem requestStop_idle {p : Measurer} (hr : p.run = false) : requestStop p = p := by
  simpa [hr] using requestStop_cases p

theorem requestStop_poll {p : Measurer} (hr : p.run = true) (hk : p.strat ≠ .eirq) :
    requestStop p = { p with stopReq := true } := by
  simpa [hr, hk] using requestStop_cases p

theorem requestStop_irq {p : Measurer} (hr : p.run = true) (hk : p.strat = .eirq) :
    requestStop p = { p with run := false } := by
  simpa [hr, hk] using requestStop_cases p

/-- Settles O37: the checks of R183 in order, and past them the strategy that the code selects. -/
theorem pmopenResult : Obligations.PmopenResult := by
  refine ⟨fun m code => ?_, fun s m code h => retire_noMeasurer _ h, fun s m h => ?_, fun s m code p hp hcode h => ?_,
    fun s m p hp ho hr => ⟨exec_pmopen hp rfl ho hr, exec_pmopen hp rfl ho hr, exec_pmopen hp rfl ho hr⟩⟩
  · have himm : 0#14 ++ code = code.setWidth 16 := (BitVec.setWidth_eq_append (by decide)).symm
    rw [encode, assemble_eq_or, assemble_sel_eq_or, himm, BitVec.setWidth_setWidth (by decide)]
    rfl
  · exact retire_measurer_error (List.getElem?_eq_getElem h) rfl
  · have hcodeOk : strategyCodeOk code = true := by simp [strategyCodeOk, hcode]
    obtain ⟨k, hk⟩ := Option.isSome_iff_exists.mp ((strategyOf_isSome code).trans hcodeOk)
    exact retire_measurer_error hp (by simp [hk, h])

/-- Settles O38: the two checks of R184, and past them the start at `TIME`. -/
theorem pmstartResult : Obligations.PmstartResult := by
  refine ⟨fun m => assemble_sel_eq_or _ m, fun s m h => retire_noMeasurer _ h, fun s m p hp h => ?_,
    fun s m p hp ho hr => ?_⟩
  · exact retire_measurer_error hp (by simp [h])
  · exact retire_measurer_done hp (by simp [ho, hr])

/-- Settles O39: `PMSTOP` completes in every lifecycle state; where the measurer does not run it is left as it is. -/
theorem pmstopResult : Obligations.PmstopResult := by
  refine ⟨fun m => assemble_sel_eq_or _ m, fun s m h => retire_noMeasurer _ h,
    fun s m p hp hr hk => exec_pmstop hp (requestStop_poll hr hk),
    fun s m p hp hr hk => exec_pmstop hp (requestStop_irq hr hk), fun s m p hp hr => ?_⟩
  rw [exec_pmstop hp (requestStop_idle hr), setPm_self hp]
  rfl

/-- Settles O40: the two checks of R186, and past them `closedMeasurer`. -/
theorem pmcloseResult : Obligations.PmcloseResult := by
  refine ⟨fun m => assemble_sel_eq_or _ m, fun s m h => retire_noMeasurer _ h, fun s m p hp h => ?_,
    fun s m p hp ho => ?_⟩
  · exact retire_measurer_error hp (by simp [h])
  · exact retire_measurer_done hp (q := closedMeasurer p) (by simp [ho])

/-! ### The readers -/

theorem averageFifo_empty {p : Measurer} (h : p.fifo = []) : averageFifo p = ({ p with meanR := 0 }, true) := by
  simp [averageFifo, h]

theorem averageFifo_nonempty {p : Measurer} (h : p.fifo ≠ []) :
    averageFifo p = ({ p with meanR := fifoMean p.fifo }, false) := by
  simp [averageFifo, h]

theorem convertPpm_epoll {p : Measurer} (hk : p.strat = .epoll) :
    convertPpm p = ({ p with ppmR := ppmOf (i2f32 p.pw.toNat) }, !p.pwV) := by
  simp [convertPpm, ppmInput, ppmNoData, hk]

theorem convertPpm_eirq {p : Measurer} (hk : p.strat = .eirq) :
    convertPpm p =
      ({ p with ppmR := ppmOf (if p.fifo = [] then 0 else fifoMean p.fifo) }, p.fifo.isEmpty) := by
  simp [convertPpm, ppmInput, ppmNoData, hk]

theorem convertDensity_unpublished {p : Measurer} (h : p.pubLen = 0) :
    convertDensity p = ({ p with densR := 0 }, true) := by
  simp [convertDensity, h]

theorem convertDensity_published {p : Measurer} (h : p.pubLen ≠ 0#32) :
    convertDensity p = ({ p with densR := densityOf (dutyPercent p.pubOn p.pubLen) }, false) := by
  simp [convertDensity, h]

/-- The sentinel flag of a result whose data is flagged valid. -/
theorem ite_valid_eq_not (valid : Bool) : (if valid = true then false else true) = !valid := by cases valid <;> rfl

/-- Settles O41: the checks of a reader for strategy 0, and past them the snapshot. -/
theorem pmrdResult : Obligations.PmrdResult := by
  refine ⟨fun m => assemble_sel_eq_or _ m, fun s m h => retire_noMeasurer _ h,
    fun s m p hp ho => retire_reader_closed hp ho,
    fun s m p hp ho hk => retire_reader_strategy hp ho (by simp [hk]), fun s m p hp ho hk => ?_⟩
  rw [ite_valid_eq_not]
  exact retire_reader_done (f := takeSnapshot) hp ho (by simp [hk]) rfl

/-- Settles O42: the checks of a reader for strategy 2, and past them the sentinel or the mean. -/
theorem pmavgResult : Obligations.PmavgResult :=
  ⟨fun m => assemble_sel_eq_or _ m, fun s m h => retire_noMeasurer _ h,
    fun s m p hp ho => retire_reader_closed hp ho,
    fun s m p hp ho hk => retire_reader_strategy hp ho (by simp [hk]), fun s m p hp ho hk =>
      ⟨fun hq => retire_reader_done hp ho (by simp [hk]) (averageFifo_empty hq),
        fun hq => retire_reader_done hp ho (by simp [hk]) (averageFifo_nonempty hq)⟩⟩

/-- Settles O43: the checks of a reader for strategies 1 and 2, and past them the formula on the input of each. -/
theorem ppmResult : Obligations.PpmResult := by
  refine ⟨fun m => assemble_sel_eq_or _ m, fun s m h => retire_noMeasurer _ h,
    fun s m p hp ho => retire_reader_closed hp ho,
    fun s m p hp ho hk => retire_reader_strategy hp ho (by simp [hk]), fun s m p hp ho hk => ?_,
    fun s m p hp ho hk => ?_⟩
  · rw [ite_valid_eq_not]
    exact retire_reader_done hp ho (by simp [hk]) (convertPpm_epoll hk)
  · have hsent : p.fifo.isEmpty = if p.fifo = [] then true else false := by cases p.fifo <;> simp
    exact retire_reader_done hp ho (by simp [hk]) (hsent ▸ convertPpm_eirq hk)

/-- Settles O44: the checks of a reader for strategy 0, and past them the sentinel or the density. -/
theorem densResult : Obligations.DensResult :=
  ⟨fun m => assemble_sel_eq_or _ m, fun s m h => retire_noMeasurer _ h,
    fun s m p hp ho => retire_reader_closed hp ho,
    fun s m p hp ho hk => retire_reader_strategy hp ho (by simp [hk]), fun s m p hp ho hk =>
      ⟨fun hlen => retire_reader_done hp ho (by simp [hk]) (convertDensity_unpublished hlen),
        fun hlen => retire_reader_done hp ho (by simp [hk]) (convertDensity_published hlen)⟩⟩

end Sys2Proof.Machine
end

section
/-! PROOFS. One turn of a stream: the state in which its agent steps, and what it leaves. -/

namespace Sys2Proof.Machine

/-- The state in which the agent of the turn `t` steps, where `t` is all that is scheduled. -/
def presentTurn (t : Turn) (s : State) : State := latchInputs t (dropTurn (offerTurn t s))

theorem presentTurn_eq (t : Turn) (s : State) :
    presentTurn t s = { s with bench := { s.bench with schedule := [], time := t.time, pins := t.pins } } := rfl

/-- The step of an agent always answers a next state (R236, R237). -/
theorem exists_agentStep (a : AgentStep) (u : State) : ∃ t, agentStep a u = .next t := by
  cases a with
  | issue w =>
    cases hw : decode w with
    | ok i =>
      obtain ⟨t, ht⟩ := exec_next i u
      exact ⟨t, (issueWord_ok u hw).trans ht⟩
    | error e => exact ⟨_, issueWord_illegal u hw⟩
  | _ => exact ⟨_, rfl⟩

theorem afterTurn_of_step {t : Turn} {s v : State} (h : step (offerTurn t s) = .next v) : afterTurn t s = v := by
  rw [afterTurn, h]

theorem afterTurn_agent {t : Turn} {s v : State} (hr : t.resetLine = false)
    (h : agentStep t.agent (presentTurn t s) = .next v) : afterTurn t s = v :=
  afterTurn_of_step (by rw [step_turn rfl, takeTurn_agent _ hr]; exact h)

theorem afterTurn_poll (m : BitVec 4) (now : Word) (pins : BitVec 16) (s : State) :
    afterTurn { agent := .poll m, time := now, pins := pins, resetLine := false } s =
      pollStep m (presentTurn { agent := .poll m, time := now, pins := pins, resetLine := false } s) :=
  afterTurn_agent rfl rfl

theorem afterTurn_edge (m : BitVec 4) (now : Word) (pins : BitVec 16) (s : State) :
    afterTurn { agent := .edge m, time := now, pins := pins, resetLine := false } s =
      edgeStep m (presentTurn { agent := .edge m, time := now, pins := pins, resetLine := false } s) :=
  afterTurn_agent rfl rfl

/-- Everything that a turn of a stream can leave. -/
theorem afterTurn_inv (t : Turn) (s : State) : TurnEffect t (presentTurn t s) (afterTurn t s) := by
  cases hr : t.resetLine
  · obtain ⟨v, hv⟩ := exists_agentStep t.agent (presentTurn t s)
    rw [afterTurn_agent hr hv]
    exact agentStep_inv hv
  · rw [afterTurn_of_step (by rw [step_turn rfl, takeTurn_reset _ hr])]
    exact resetTurn_inv _ hr

end Sys2Proof.Machine
end

section
/-! PROOFS. The background events (R200 to R206): which one is a step of its measurer, and what it does to it. -/

namespace Sys2Proof.Machine

theorem pollEnabled_iff (p : Measurer) : pollEnabled p = true ↔ p.run = true ∧ p.strat ≠ .eirq := by
  simp [pollEnabled]

theorem edgeEnabled_iff (p : Measurer) : edgeEnabled p = true ↔ p.run = true ∧ p.strat = .eirq := by
  simp [edgeEnabled]

theorem pollStep_enabled {m : BitVec 4} {u : State} {p : Measurer} (hp : u.pm? m = some p)
    (he : pollEnabled p = true) : pollStep m u = u.setPm m (pollOnce (pinLevel m u) u.bench.time p) := by
  simp [pollStep, hp, he]

theorem edgeStep_enabled {m : BitVec 4} {u : State} {p : Measurer} (hp : u.pm? m = some p)
    (he : edgeEnabled p = true) : edgeStep m u = u.setPm m (edgeOnce (pinLevel m u) u.bench.time p) := by
  simp [edgeStep, hp, he]

theorem pollStep_disabled {m : BitVec 4} {u : State} (h : ∀ p, u.pm? m = some p → ¬ pollEnabled p = true) :
    pollStep m u = u := by
  rcases pollStep_cases m u with hu | ⟨p, hp, he, -⟩
  · exact hu
  · exact absurd he (h p hp)

theorem edgeStep_disabled {m : BitVec 4} {u : State} (h : ∀ p, u.pm? m = some p → ¬ edgeEnabled p = true) :
    edgeStep m u = u := by
  rcases edgeStep_cases m u with hu | ⟨p, hp, he, -⟩
  · exact hu
  · exact absurd he (h p hp)

/-- The edge callback of strategy 2 and the poll task of strategy 1 are the same prologue and observation (R200,
R204). -/
theorem edgeOnce_eq_pollOnce (level : Bool) (now : Word) {p : Measurer} (hk : p.strat = .eirq) :
    edgeOnce level now p = pollOnce level now p := by
  simp [edgeOnce, pollOnce, hk]

/-- A turn of the background unit of a measurer that runs is one iteration of it, at the pin and the time of the turn,
and nothing else of the machine changes. -/
theorem afterTurn_unit {s : State} {m : BitVec 4} {p : Measurer} {a : AgentStep} (now : Word) (pins : BitVec 16)
    (hp : s.pms[m.toNat]? = some p) (hr : p.run = true)
    (ha : a = .poll m ∧ p.strat ≠ .eirq ∨ a = .edge m ∧ p.strat = .eirq) :
    afterTurn { agent := a, time := now, pins := pins, resetLine := false } s =
      { s with
        pms := s.pms.set m.toNat (pollOnce (pins.getLsbD m.toNat) now p)
        bench := { s.bench with schedule := [], time := now, pins := pins } } := by
  rcases ha with ⟨rfl, hk⟩ | ⟨rfl, hk⟩
  · rw [afterTurn_poll, pollStep_enabled (u := presentTurn _ s) hp ((pollEnabled_iff p).mpr ⟨hr, hk⟩)]
    rfl
  · rw [afterTurn_edge, edgeStep_enabled (u := presentTurn _ s) hp ((edgeEnabled_iff p).mpr ⟨hr, hk⟩),
      edgeOnce_eq_pollOnce _ _ hk]
    rfl

/-! ### One iteration -/

theorem pollOnce_stopReq (level : Bool) (now : Word) {p : Measurer} (hs : p.stopReq = true) :
    pollOnce level now p = { p with run := false, stopReq := false } := by
  simp [pollOnce, backgroundPrologue, hs]

theorem pollOnce_closed (level : Bool) (now : Word) {p : Measurer} (hs : p.stopReq = false) (ho : p.opened = false) :
    pollOnce level now p = { p with run := false, pinErr := true } := by
  simp [pollOnce, backgroundPrologue, hs, ho]

theorem pollOnce_cycle (level : Bool) (now : Word) {p : Measurer} (hs : p.stopReq = false) (ho : p.opened = true)
    (hk : p.strat = .cycle) : pollOnce level now p = windowCheck now (observe level now p) := by
  simp [pollOnce, backgroundPrologue, hs, ho, hk]

theorem pollOnce_timestamp (level : Bool) (now : Word) {p : Measurer} (hs : p.stopReq = false) (ho : p.opened = true)
    (hk : p.strat ≠ .cycle) : pollOnce level now p = observe level now p := by
  cases hk' : p.strat <;> simp_all [pollOnce, backgroundPrologue]

/-- Settles O45: the prologue answers, and the step ends in its answer. -/
theorem prologueEndsBackgroundStep : Obligations.PrologueEndsBackgroundStep := by
  intro s m p now pins a hp hr ha
  rw [afterTurn_unit now pins hp hr ha]
  exact ⟨fun hs => by rw [pollOnce_stopReq _ _ hs], fun hs ho => by rw [pollOnce_closed _ _ hs ho]⟩

/-- Settles O48: a turn whose event is not enabled leaves the state in which its agent would have stepped. -/
theorem disabledBackgroundStepsDoNothing : Obligations.DisabledBackgroundStepsDoNothing := by
  intro s m now pins a ha
  rcases ha with ⟨rfl, h⟩ | ⟨rfl, h⟩
  · rw [afterTurn_poll, pollStep_disabled fun p hp => ?_, presentTurn_eq]
    simpa [pollEnabled_iff, or_iff_not_imp_left] using h p hp
  · rw [afterTurn_edge, edgeStep_disabled fun p hp => ?_, presentTurn_eq]
    simpa [edgeEnabled_iff, or_iff_not_imp_left] using h p hp

/-! ### Pulses -/

theorem observe_rise (now : Word) {p : Measurer} (hst : p.st = .waitingForRise) :
    observe true now p = { p with startTime := now, st := .waitingForFall } := by
  simp [observe, hst]

theorem observe_fall (now : Word) {p : Measurer} (hst : p.st = .waitingForFall) :
    observe false now p = recordFall now p := by
  simp [observe, hst]

theorem observe_low (now : Word) {p : Measurer} (hst : p.st = .waitingForRise) : observe false now p = p := by
  simp [observe, hst]

theorem observe_high (now : Word) {p : Measurer} (hst : p.st = .waitingForFall) : observe true now p = p := by
  simp [observe, hst]

/-- What an observation does in strategy 0, register by register (R201): a rise is timed, and a fall adds its width. -/
theorem observe_cycle (level : Bool) (now : Word) {p : Measurer} (hk : p.strat = .cycle) :
    observe level now p =
      { p with
        startTime := if p.st = .waitingForRise ∧ level = true then now else p.startTime
        endTime := if p.st = .waitingForFall ∧ level = false then now else p.endTime
        st := if level = true then .waitingForFall else .waitingForRise
        acc := if p.st = .waitingForFall ∧ level = false then p.acc + (now - p.startTime) else p.acc } := by
  cases hst : p.st <;> cases level
  · rw [observe_low now hst]
    cases p
    simp_all
  · simp [observe_rise now hst]
  · simp [observe_fall now hst, recordFall_cycle now p hk]
  · rw [observe_high now hst]
    cases p
    simp_all

theorem windowCheck_publishes {now : Word} {p : Measurer} (hw : 30000 ≤ (now - p.winStart).toNat) :
    windowCheck now p =
      { p with pubLen := now - p.winStart, pubOn := p.acc, pubV := true, winStart := now, acc := 0 } :=
  if_pos hw

theorem windowCheck_waits {now : Word} {p : Measurer} (hw : (now - p.winStart).toNat < 30000) :
    windowCheck now p = p :=
  if_neg (Nat.not_le.mpr hw)

/-- Settles O46: the window is tested on the measurer that has observed the pin, so a fall counts in the window in which
it is seen. -/
theorem pollIntegratesAndPublishes : Obligations.PollIntegratesAndPublishes := by
  intro s m p now pins hp hr hk hs ho
  dsimp only
  rw [afterTurn_unit now pins hp hr (.inl ⟨rfl, by simp [hk]⟩), pollOnce_cycle _ _ hs ho hk, observe_cycle _ _ hk]
  refine ⟨fun hw => ?_, fun hw => ?_⟩
  · simp only [windowCheck_publishes, hw]
  · simp only [windowCheck_waits, hw]

theorem pushWidth_eq (q : List Word) (w : Word) :
    pushWidth q w = (if q.length = 10 then q.tail else q) ++ [w] := by
  unfold pushWidth
  rw [List.drop_one]
  exact (apply_ite (· ++ [w]) (q.length = 10) q.tail q).symm

/-- A fall in the two strategies that record the width of a pulse (R201). -/
theorem recordFall_timestamp (now : Word) {p : Measurer} (hk : p.strat ≠ .cycle) :
    recordFall now p =
      { p with
        endTime := now, st := .waitingForRise, pw := now - p.startTime, pwV := true
        fifo := if p.strat = .eirq then pushWidth p.fifo (now - p.startTime) else p.fifo } := by
  cases hk' : p.strat with
  | cycle => exact absurd hk' hk
  | epoll => simp [recordFall_epoll now p hk', hk']
  | eirq => simp [recordFall_eirq now p hk', hk']

/-- Settles O47: past the prologue, a step of strategy 1 or 2 is an observation. -/
theorem edgeTimestampsPulses : Obligations.EdgeTimestampsPulses := by
  intro s m p now pins a hp hr hs ho ha
  have hunit : a = .poll m ∧ p.strat ≠ .eirq ∨ a = .edge m ∧ p.strat = .eirq :=
    ha.imp_left fun ⟨hpoll, hk⟩ => ⟨hpoll, by simp [hk]⟩
  have hk : p.strat ≠ .cycle := by rcases ha with ⟨-, hk⟩ | ⟨-, hk⟩ <;> simp [hk]
  dsimp only
  rw [afterTurn_unit now pins hp hr hunit, pollOnce_timestamp _ _ hs ho hk, ← pushWidth_eq]
  refine ⟨fun hst hl => ?_, fun hst hl => ?_, fun h => ?_⟩
  · rw [hl, observe_rise now hst]
  · rw [hl, observe_fall now hst, recordFall_timestamp now hk]
  · rcases h with ⟨hst, hl⟩ | ⟨hst, hl⟩ <;> rw [hl]
    · rw [observe_low now hst]
    · rw [observe_high now hst]

/-- Settles O49, by induction on the pushes: the FIFO is full from the tenth on, and each push then drops one more. -/
theorem fifoKeepsLastTen : Obligations.FifoKeepsLastTen := by
  intro ws
  induction ws using List.reverseRecOn with
  | nil => rfl
  | append_singleton ws w ih =>
    rw [List.foldl_append, ih, List.foldl_cons, List.foldl_nil, pushWidth_eq, List.length_append,
      List.length_singleton]
    by_cases hfull : 10 ≤ ws.length
    · rw [if_pos (by rw [List.length_drop]; omega), List.tail_drop, List.drop_append_of_le_length (by omega),
        Nat.sub_add_comm hfull]
    · rw [if_neg (by rw [List.length_drop]; omega), Nat.sub_eq_zero_of_le (by omega), List.drop_zero,
        Nat.sub_eq_zero_of_le (by omega), List.drop_zero]

end Sys2Proof.Machine
end

section
/-! PROOFS. What a turn or a command leaves of one measurer, and of the rest of the machine (R205, R208). -/

namespace Sys2Proof.Machine

/-- Measurer `k` after measurer `m` was replaced. -/
theorem set_getElem?_cases {l : List Measurer} {m k : Nat} {p q r : Measurer} (hp : l[k]? = some p)
    (hr : (l.set m q)[k]? = some r) : m ≠ k ∧ r = p ∨ m = k ∧ r = q := by
  have hk : k < l.length := (List.getElem?_eq_some_iff.mp hp).1
  by_cases hmk : m = k
  · subst hmk
    rw [List.getElem?_set_self hk] at hr
    exact .inr ⟨rfl, (Option.some.inj hr).symm⟩
  · rw [List.getElem?_set_ne hmk, hp] at hr
    exact .inl ⟨hmk, (Option.some.inj hr).symm⟩

/-- A background event changes at most its own measurer. -/
theorem agentStep_background {u t : State} {m : BitVec 4} {a : AgentStep} (ha : a = .poll m ∨ a = .edge m)
    (h : agentStep a u = .next t) : t = u ∨ ∃ q, t = u.setPm m q := by
  rcases ha with rfl | rfl <;> cases h
  · exact (pollStep_cases m u).imp_right fun ⟨_, _, _, h⟩ => ⟨_, h⟩
  · exact (edgeStep_cases m u).imp_right fun ⟨_, _, _, h⟩ => ⟨_, h⟩

/-- Settles O51: the state in which the event happens differs from the one before in the bench alone, and the event
replaces at most one measurer. -/
theorem backgroundTouchesOnlyItsMeasurer : Obligations.BackgroundTouchesOnlyItsMeasurer := by
  intro s t m now pins rest a ha hsched h
  rw [step_turn hsched, takeTurn_agent _ rfl] at h
  have hbench : (dropTurn s).bench.schedule = rest := by rw [dropTurn_bench_schedule, hsched, List.tail_cons]
  subst hbench
  rcases agentStep_background ha h with rfl | ⟨q, rfl⟩
  · exact ⟨fun _ _ => rfl, rfl, rfl⟩
  · exact ⟨fun k hk => List.getElem?_set_ne hk.symm, List.length_set, rfl⟩

/-- The measurer commands besides `PMOPEN`, `PMSTART` and `PMCLOSE`: a reader writes registers of its answer only (R187
to R190), and `PMSTOP` writes two lifecycle bits only (R185). -/
theorem MeasurerEffect.reader_or_stop {m : BitVec 4} {now : Word} {p q : Measurer} {i : Instr} {sent : Bool}
    (h : MeasurerEffect m now p i q sent) (hopen : ∀ c, i ≠ .pmopen m c) (hstart : i ≠ .pmstart m)
    (hclose : i ≠ .pmclose m) :
    (∃ snapLen snapOn meanR ppmR densR,
      q = { p with snapLen := snapLen, snapOn := snapOn, meanR := meanR, ppmR := ppmR, densR := densR }) ∨
    (i = .pmstop m ∧ ∃ run stopReq, q = { p with run := run, stopReq := stopReq }) := by
  cases h with
  | pmopen code => exact absurd rfl (hopen code)
  | pmstart => exact absurd rfl hstart
  | pmclose => exact absurd rfl hclose
  | pmstop =>
    refine .inr ⟨rfl, ?_⟩
    rcases requestStop_cases p with ⟨-, h⟩ | ⟨-, -, h⟩ | ⟨-, -, h⟩ <;> exact ⟨_, _, h⟩
  | pmrd => exact .inl ⟨_, _, _, _, _, rfl⟩
  | pmavg => exact .inl ⟨_, _, _, _, _, rfl⟩
  | ppm => exact .inl ⟨_, _, _, _, _, rfl⟩
  | dens => exact .inl ⟨_, _, _, _, _, rfl⟩

/-- What a command other than `SRST` leaves of measurer `k`. -/
theorem ExecEffect.measurer_cases {u t : State} {i : Instr} {k : Nat} {p q : Measurer} (h : ExecEffect u i t)
    (hsrst : i ≠ .srst) (hp : u.pms[k]? = some p) (hq : t.pms[k]? = some q) :
    q = p ∨ ∃ m sent, m.toNat = k ∧ MeasurerEffect m u.bench.time p i q sent := by
  have hsame (ht : t.pms = u.pms) : q = p := Option.some.inj (by rw [← hq, ht, hp])
  cases h with
  | srst => exact absurd rfl hsrst
  | measurer m p' q' i sent hp' h =>
    rcases set_getElem?_cases hp hq with ⟨-, rfl⟩ | ⟨rfl, rfl⟩
    · exact .inl rfl
    · obtain rfl := Option.some.inj (hp'.symm.trans hp)
      exact .inr ⟨m, sent, rfl, h⟩
  | _ => exact .inl (hsame rfl)

/-- Settles O52: a command reaches the measurer only if it is one of the measurer's own, and of those only the readers
and `PMSTOP` are left. -/
theorem hostReadersKeepMeasurement : Obligations.HostReadersKeepMeasurement := by
  intro i s t k p q h hp hq hsrst hopen hstart hclose
  rcases (exec_inv h).measurer_cases hsrst hp hq with rfl | ⟨m, sent, rfl, he⟩
  · simp
  · rcases he.reader_or_stop (fun c hi => hopen m c hi rfl) (fun hi => hstart m hi rfl) (fun hi => hclose m hi rfl) with
      ⟨_, _, _, _, _, rfl⟩ | ⟨hstop, _, _, rfl⟩
    · simp
    · simp [hstop]

end Sys2Proof.Machine
end

section
/-! PROOFS. A snapshot through quiet turns (R187), and a stop request through any turns (R206). -/

namespace Sys2Proof.Machine

/-! ### The snapshot -/

/-- The pair that the snapshot registers hold (R187). -/
def snapshotOf (p : Measurer) : Word × Word := (p.snapLen, p.snapOn)

/-- Measurer `m` exists, and its snapshot is `pair`. -/
def holdsSnapshot (m : BitVec 4) (pair : Word × Word) (s : State) : Prop :=
  ∃ p, s.pms[m.toNat]? = some p ∧ snapshotOf p = pair

theorem snapshotOf_prologue {p q : Measurer} (hq : backgroundPrologue p = some q) : snapshotOf q = snapshotOf p := by
  rcases backgroundPrologue_cases p with ⟨-, hp⟩ | ⟨-, -, hp⟩ | ⟨-, -, hp⟩ <;> rw [hp] at hq <;> cases hq <;> rfl

theorem snapshotOf_observe (level : Bool) (now : Word) (p : Measurer) :
    snapshotOf (observe level now p) = snapshotOf p := by
  rcases observe_cases level now p with ⟨-, -, h⟩ | ⟨-, -, h⟩ | ⟨-, h⟩ <;> rw [h]
  · rfl
  · cases hk : p.strat <;> simp [recordFall, hk, snapshotOf]

theorem snapshotOf_windowCheck (now : Word) (p : Measurer) : snapshotOf (windowCheck now p) = snapshotOf p := by
  rcases windowCheck_cases now p with ⟨-, h⟩ | ⟨-, h⟩ <;> rw [h]
  rfl

theorem snapshotOf_pollOnce (level : Bool) (now : Word) (p : Measurer) :
    snapshotOf (pollOnce level now p) = snapshotOf p := by
  unfold pollOnce
  split
  next q hq => exact snapshotOf_prologue hq
  next =>
    split
    next => rw [snapshotOf_windowCheck, snapshotOf_observe]
    next => exact snapshotOf_observe level now p
    next => exact snapshotOf_observe level now p

theorem holdsSnapshot_setPm {u : State} {m m' : BitVec 4} {pair : Word × Word} {p q : Measurer}
    (hp : u.pm? m' = some p) (hq : snapshotOf q = snapshotOf p) (hu : holdsSnapshot m pair u) :
    holdsSnapshot m pair (u.setPm m' q) := by
  obtain ⟨p', hp', hpair⟩ := hu
  by_cases hm : m = m'
  · subst hm
    obtain rfl := Option.some.inj (hp.symm.trans hp')
    exact ⟨q, setPm_pm?_same u m q hp, hq.trans hpair⟩
  · exact ⟨p', (setPm_pm?_other u m' m q hm).trans hp', hpair⟩

/-- Only a command or a reset could write the snapshot, and a quiet turn is neither. -/
theorem TurnEffect.keeps_snapshot {turn : Turn} {u t : State} {m : BitVec 4} {pair : Word × Word}
    (h : TurnEffect turn u t) (hquiet : isQuietTurn turn) (hu : holdsSnapshot m pair u) : holdsSnapshot m pair t := by
  obtain ⟨hreset, hissue⟩ := hquiet
  cases h with
  | reset hr => simp [hreset] at hr
  | resetRead hr => simp [hreset] at hr
  | idle => exact hu
  | read => exact hu
  | illegal => exact hu
  | command w i t ha => exact absurd ha (hissue w)
  | poll m' p hp => exact holdsSnapshot_setPm hp (snapshotOf_pollOnce _ _ p) hu
  | edge m' p hp he =>
    rw [edgeOnce_eq_pollOnce _ _ ((edgeEnabled_iff p).mp he).2]
    exact holdsSnapshot_setPm hp (snapshotOf_pollOnce _ _ p) hu

theorem holdsSnapshot_foldl {m : BitVec 4} {pair : Word × Word} {turns : List Turn} {s : State}
    (hquiet : ∀ x ∈ turns, isQuietTurn x) (hs : holdsSnapshot m pair s) :
    holdsSnapshot m pair (turns.foldl (fun v x => afterTurn x v) s) := by
  induction turns generalizing s with
  | nil => exact hs
  | cons x turns ih =>
    obtain ⟨hx, hturns⟩ := List.forall_mem_cons.mp hquiet
    exact ih hturns ((afterTurn_inv x s).keeps_snapshot hx hs)

/-- The pair published at a `PMRD` is the snapshot after it (R187). -/
theorem holdsSnapshot_pmrd {s t : State} {m : BitVec 4} {p : Measurer} (hp : s.pms[m.toNat]? = some p)
    (ho : p.opened = true) (hk : p.strat = .cycle) (h : exec (.pmrd m) s = .next t) :
    holdsSnapshot m (p.pubLen, p.pubOn) t := by
  have hdone := retire_reader_done (f := takeSnapshot) (g := (· == .cycle)) hp ho (by simp [hk]) rfl
  cases hdone.symm.trans h
  exact ⟨_, setPm_pm?_same s m _ hp, rfl⟩

/-- Settles O59: the snapshot holds the published pair after the `PMRD`, and quiet turns keep it up to either read. -/
theorem snapshotIsNeverTorn : Obligations.SnapshotIsNeverTorn := by
  intro s t m p before between hp ho hk h hbefore hbetween u u'
  have hu : holdsSnapshot m (p.pubLen, p.pubOn) u := holdsSnapshot_foldl hbefore (holdsSnapshot_pmrd hp ho hk h)
  obtain ⟨q', hq', hpair'⟩ := holdsSnapshot_foldl hbetween hu
  obtain ⟨q, hq, hpair⟩ := hu
  exact ⟨(regRead_offset hq (offset := 8) (by decide)).trans (Prod.mk.inj hpair).1,
    (regRead_offset hq' (offset := 9) (by decide)).trans (Prod.mk.inj hpair').2⟩

/-! ### The stop request -/

/-- A poll task runs, and its stop is requested (R185). -/
def stopPending (p : Measurer) : Prop := p.run = true ∧ p.stopReq = true ∧ p.strat ≠ .eirq

/-- `PMOPEN` and `PMSTART` refuse a measurer that runs, and `PMCLOSE` keeps the request (R183, R184, R186). -/
theorem MeasurerEffect.keeps_stopPending {m : BitVec 4} {now : Word} {p q : Measurer} {i : Instr} {sent : Bool}
    (h : MeasurerEffect m now p i q sent) (hp : stopPending p) : stopPending q := by
  obtain ⟨hrun, hstop, hk⟩ := id hp
  cases h with
  | pmopen code k _ _ hr => simp [hrun] at hr
  | pmstart _ hr => simp [hrun] at hr
  | pmstop =>
    rw [requestStop_poll hrun hk]
    exact ⟨hrun, rfl, hk⟩
  | pmclose => exact hp
  | pmrd => exact hp
  | pmavg => exact hp
  | ppm => exact hp
  | dens => exact hp

theorem MeasurerTurn.stopPending_or_stopped {m : BitVec 4} {u : State} {p q : Measurer} (h : MeasurerTurn m u p q)
    (hp : stopPending p) : stopPending q ∨ q.run = false := by
  obtain ⟨-, hstop, hk⟩ := id hp
  cases h with
  | command i q sent h => exact .inl (h.keeps_stopPending hp)
  | poll => exact .inr (by rw [pollOnce_stopReq _ _ hstop])
  | edge he => exact absurd ((edgeEnabled_iff p).mp he).2 hk

/-- What a turn leaves of measurer `k`: the same, the reset one, or what a turn of its own made of it. -/
theorem PmsTurn.measurer_cases {u : State} {l : List Measurer} {k : Nat} {p q : Measurer} (h : PmsTurn u l)
    (hp : u.pms[k]? = some p) (hq : l[k]? = some q) :
    q = p ∨ q = Measurer.reset ∨ ∃ m, m.toNat = k ∧ MeasurerTurn m u p q := by
  cases h with
  | same => exact .inl (Option.some.inj (hq.symm.trans hp))
  | reset => exact .inr (.inl (List.eq_of_mem_replicate (List.mem_of_getElem? hq)))
  | one m p' q' hp' h =>
    rcases set_getElem?_cases hp hq with ⟨-, rfl⟩ | ⟨rfl, rfl⟩
    · exact .inl rfl
    · obtain rfl := Option.some.inj (hp'.symm.trans hp)
      exact .inr (.inr ⟨m, rfl, h⟩)

/-- A turn leaves a requested stop pending, or the measurer stopped. -/
theorem afterTurn_stopPending {s : State} {k : Nat} {p : Measurer} (t : Turn) (hp : s.pms[k]? = some p)
    (hpending : stopPending p) : ∃ q, (afterTurn t s).pms[k]? = some q ∧ (stopPending q ∨ q.run = false) := by
  have hturn := (afterTurn_inv t s).pms
  obtain ⟨q, hq⟩ : ∃ q, (afterTurn t s).pms[k]? = some q := by
    refine ⟨_, List.getElem?_eq_getElem ?_⟩
    rw [hturn.length_eq]
    exact (List.getElem?_eq_some_iff.mp hp).1
  refine ⟨q, hq, ?_⟩
  rcases hturn.measurer_cases hp hq with rfl | rfl | ⟨m, -, h⟩
  · exact .inl hpending
  · exact .inr rfl
  · exact h.stopPending_or_stopped hpending

/-- A step of the poll task obeys the request (R205). -/
theorem afterTurn_obeys {s : State} {m : BitVec 4} {p : Measurer} {t : Turn} (ht : isPollTurn m t)
    (hp : s.pms[m.toNat]? = some p) (hpending : stopPending p) :
    (afterTurn t s).pms[m.toNat]? = some { p with run := false, stopReq := false } := by
  obtain ⟨a, now, pins, r⟩ := t
  obtain ⟨rfl, rfl⟩ := ht
  obtain ⟨hrun, hstop, hk⟩ := hpending
  rw [afterTurn_unit now pins hp hrun (.inl ⟨rfl, hk⟩), pollOnce_stopReq _ _ hstop]
  exact List.getElem?_set_self (List.getElem?_eq_some_iff.mp hp).1

/-- Settles O60: were the measurer never stopped, its stop would stay pending and its poll task enabled, so fairness
gives the task a step, which stops it. -/
theorem stopIsEventuallyObeyed : Obligations.StopIsEventuallyObeyed := by
  intro turns s m p hp hrun hstop hk hfair
  by_contra hnever
  push Not at hnever
  have hpending (k : Nat) : ∃ q, (trace turns s k).pms[m.toNat]? = some q ∧ stopPending q := by
    induction k with
    | zero => exact ⟨p, hp, hrun, hstop, hk⟩
    | succ k ih =>
      obtain ⟨q, hq, hqp⟩ := ih
      obtain ⟨q', hq', h⟩ := afterTurn_stopPending (turns k) hq hqp
      exact ⟨q', hq', h.resolve_right (hnever (k + 1) q' hq')⟩
  have henabled (j : Nat) : pollEnabledIn m (trace turns s j) := by
    obtain ⟨q, hq, hqrun, -, hqk⟩ := hpending j
    exact ⟨q, hq, (pollEnabled_iff q).mpr ⟨hqrun, hqk⟩⟩
  obtain ⟨j, -, hpoll⟩ := hfair 0 fun j _ => henabled j
  obtain ⟨q, hq, hqp⟩ := hpending j
  exact hnever (j + 1) _ (afterTurn_obeys hpoll hq hqp) rfl

end Sys2Proof.Machine
end

section
/-! PROOFS. Errors (R230 to R237): no step is refused, a command that fails writes its report alone, and a report stays
until `SRST` or reset. -/

namespace Sys2Proof.Machine

/-- Settles O7: with nothing scheduled the step keeps the state, `RESET` answers itself, and so does every agent. -/
theorem everyStepAnswersNext : Obligations.EveryStepAnswersNext := by
  intro s
  rcases step_cases s with ⟨-, h⟩ | ⟨t, -, -, -, h⟩ | ⟨t, -, -, -, h⟩ <;> rw [h]
  · exact ⟨_, rfl⟩
  · exact ⟨_, rfl⟩
  · exact exists_agentStep t.agent _

/-- A command fails and leaves the error's report alone, or completes and leaves `FAULT` to `SRST` (R81, R232). -/
theorem ExecEffect.failed_or_completed {s t : State} {i : Instr} (h : ExecEffect s i t) :
    (∃ code, code ≠ .ok ∧ t = raiseErr code s) ∨
    (t.status.err = .ok ∧ (i ≠ .srst → t.status.fault = s.status.fault)) := by
  cases h with
  | error i code hcode => exact .inl ⟨code, hcode, rfl⟩
  | srst => exact .inr ⟨rfl, fun hsrst => absurd rfl hsrst⟩
  | _ => exact .inr ⟨rfl, fun _ => rfl⟩

/-- Settles O15: what an error leaves is `raiseErr`, which writes three fields of `STATUS`. -/
theorem failedCommandChangesOnlyStatus : Obligations.FailedCommandChangesOnlyStatus := by
  intro i s t h
  rcases (exec_inv h).failed_or_completed with ⟨code, hcode, rfl⟩ | hdone
  · exact .inl ⟨hcode, rfl⟩
  · exact .inr hdone

/-- A command other than `SRST` sets `FAULT` or leaves it as it was. -/
theorem ExecEffect.keeps_fault {s t : State} {i : Instr} (h : ExecEffect s i t) (hsrst : i ≠ .srst)
    (hs : s.status.fault = true) : t.status.fault = true := by
  rcases h.failed_or_completed with ⟨code, -, rfl⟩ | ⟨-, hkept⟩
  · exact raiseErr_status_fault code s
  · exact (hkept hsrst).trans hs

/-- `SRST` has one word, so a turn that clears `FAULT` is `RESET` or the `Issue` of that word (R84, R105). -/
theorem TurnEffect.keeps_fault {turn : Turn} {u t : State} (h : TurnEffect turn u t) (hu : u.status.fault = true) :
    t.status.fault = true ∨ turn.resetLine = true ∨ turn.agent = .issue (encode .srst) := by
  cases h with
  | reset hr => exact .inr (.inl hr)
  | resetRead hr => exact .inr (.inl hr)
  | illegal => exact .inl (raiseErr_status_fault _ u)
  | command w i t ha hw he =>
    by_cases hi : i = .srst
    · subst hi
      rw [eq_encode_of_decode rfl hw] at ha
      exact .inr (.inr ha)
    · exact .inl (he.keeps_fault hi hu)
  | _ => exact .inl hu

/-- Settles O16: the inputs and the schedule are not in `STATUS`, so only the turn itself can clear `FAULT`. -/
theorem faultIsSticky : Obligations.FaultIsSticky := by
  intro s t hs h
  rcases step_inv h with ⟨-, rfl⟩ | ⟨turn, rest, hturn, he⟩
  · exact .inl hs
  · rcases he.keeps_fault hs with hfault | hcleared
    · exact .inl hfault
    · exact .inr ⟨turn, rest, hturn, hcleared⟩

end Sys2Proof.Machine
end

section
/-! PROOFS. The `RESET` line (R260, I40): a turn while it is asserted, for each kind of agent's step. -/

namespace Sys2Proof.Machine

/-- While `RESET` is asserted the agent's step is replaced by the reset turn, at the state that has lost the turn and has
its inputs. -/
theorem step_resetLine {s : State} {a : AgentStep} {time : Word} {pins : BitVec 16} {rest : List Turn}
    (h : s.bench.schedule = { agent := a, time := time, pins := pins, resetLine := true } :: rest) :
    step s = .next
      (resetTurn a { s with bench := { s.bench with schedule := rest, time := time, pins := pins } }) := by
  rw [step_turn h, takeTurn_reset _ rfl]
  simp [latchInputs, dropTurn, h]

theorem resetTurn_regRead (n : BitVec 12) (s : State) :
    resetTurn (.regRead n) s = returnRead 0 (resetAll s) := rfl

theorem resetTurn_of_ne_regRead {a : AgentStep} (s : State) (h : ∀ n, a ≠ .regRead n) :
    resetTurn a s = resetAll s := by
  cases a with
  | regRead n => exact absurd rfl (h n)
  | _ => rfl

/-- Settles O8: the turn leaves `resetAll`, which keeps the bench; only a `RegRead` also writes the read port, with 0. -/
theorem resetLineRestoresReset : Obligations.ResetLineRestoresReset := by
  intro s a time pins rest h
  rw [step_resetLine h]
  by_cases hread : ∃ n, a = .regRead n
  · obtain ⟨n, rfl⟩ := hread
    exact ⟨0, by rw [resetTurn_regRead]; rfl, fun _ => rfl, fun hne => absurd rfl (hne n)⟩
  · have hne : ∀ n, a ≠ .regRead n := not_exists.mp hread
    exact ⟨s.bench.readData, by rw [resetTurn_of_ne_regRead _ hne]; rfl, fun hr => absurd hr hread, fun _ => rfl⟩

end Sys2Proof.Machine
end
